-- ==== Sys2Proof/Word.lean ====
section
/-! DEFINITION. The words of the block: bytes, 16-bit fields, 32-bit registers and 64-bit address fields
(00_scope.md rules R5 and R6). All quantities are unsigned. -/

namespace Sys2Proof

/-- One byte of memory. -/
abbrev Byte := BitVec 8

/-- A 16-bit field of a descriptor: the RX `checksum`, `special`. -/
abbrev Half := BitVec 16

/-- One register (`REG_WIDTH` = 32). -/
abbrev Word := BitVec 32

/-- An address field: 64 bits, of which the space has `2 ^ ADDR_WIDTH` addresses. -/
abbrev Addr := BitVec 64

end Sys2Proof
end

