-- ==== Sys2Proof/Config.lean ====
section
/-! DEFINITION. What is fixed for the machine: the configuration record of 00_scope.md rule R5 with its constraints,
and the free values of `draw_N()` (00_scope.md rule R7), which are constants with no body. The record's one instance,
`config`, stands in Sys2Proof/Machine/Params.lean. -/

namespace Sys2Proof

/-- The lowest bit, in the number `D`, of each field of a TX descriptor (30_encoding.md rule R91). -/
structure TxLayout where
  addr : Nat
  length : Nat
  cso : Nat
  cmd : Nat
  status : Nat
  css : Nat
  special : Nat
  deriving DecidableEq, Repr

/-- The lowest bit, in the number `D`, of each field of an RX descriptor (30_encoding.md rule R94). -/
structure RxLayout where
  addr : Nat
  length : Nat
  checksum : Nat
  status : Nat
  errors : Nat
  special : Nat
  deriving DecidableEq, Repr

/-- The configuration record of 00_scope.md rule R5. `REG_BASE` is supplied by the launch, and the capacities of the
rings and the choice among the four buffer sizes stand in registers (A23). -/
structure Config where
  /-- `REG_WIDTH`, the width of the type `Word`. -/
  regWidth : Nat
  /-- `OFF(R)` of every register but the multicast table. -/
  offCtrl : Nat
  offIcr : Nat
  offIms : Nat
  offImc : Nat
  offRctl : Nat
  offTctl : Nat
  offRdbal : Nat
  offRdbah : Nat
  offRdlen : Nat
  offRdh : Nat
  offRdt : Nat
  offTdbal : Nat
  offTdbah : Nat
  offTdlen : Nat
  offTdh : Nat
  offTdt : Nat
  offRal0 : Nat
  offRah0 : Nat
  /-- `OFF(MTA[0])`; entry `n` stands 4 * n bytes further. -/
  offMta : Nat
  /-- `MTA_ENTRIES`. -/
  mtaEntries : Nat
  /-- Bytes of the register window (20_memory.md rule R70). -/
  windowSize : Nat
  /-- `DESC_SIZE`. -/
  descSize : Nat
  /-- `RING_ALIGN`. -/
  ringAlign : Nat
  /-- `BASE_ALIGN`. -/
  baseAlign : Nat
  /-- `N_TX` and `N_RX` of the reference configuration, the driver's `N`. -/
  refSlots : Nat
  /-- `ADDR_WIDTH`. -/
  addrWidth : Nat
  /-- `IDX_WIDTH`. -/
  idxWidth : Nat
  /-- `LEN_FIELD_WIDTH`. -/
  lenFieldWidth : Nat
  /-- `PAGE`. -/
  page : Nat
  /-- `RX_BUF_SIZE` for `BSIZE` = 00, 01, 10 and 11 (10_state.md rule R28). -/
  bufSize0 : Nat
  bufSize1 : Nat
  bufSize2 : Nat
  bufSize3 : Nat
  /-- `MAX_TX_LEN`. -/
  maxTxLen : Nat
  /-- `FCS_LEN`. -/
  fcsLen : Nat
  /-- Bit of `CTRL.RST` (30_encoding.md rule R96). -/
  rstBit : Nat
  /-- Bit of `TCTL.EN`. -/
  txEnBit : Nat
  /-- Bit of `RCTL.EN`. -/
  rxEnBit : Nat
  /-- Lower bit of `RCTL.BSIZE`, two bits. -/
  bsizeBit : Nat
  /-- Bit of `RCTL.SECRC`. -/
  secrcBit : Nat
  /-- Lowest bit and width of `LEN128` (rule R97). -/
  lenBit : Nat
  lenBits : Nat
  /-- Lowest bit of `IDX` (rule R97). -/
  idxBit : Nat
  /-- Bit of `RXDW` in `ICR`, `IMS` and `IMC` (rule R98). -/
  rxdwBit : Nat
  /-- The fields of a TX descriptor (rule R91). -/
  tx : TxLayout
  /-- The fields of an RX descriptor (rule R94). -/
  rx : RxLayout
  /-- Bits of `EOP` and `RS` in a TX descriptor's `cmd` (rule R92). -/
  cmdEopBit : Nat
  cmdRsBit : Nat
  /-- Bit of `DD` in a descriptor's `status` (rules R93, R95). -/
  ddBit : Nat
  /-- Bit of `EOP` in an RX descriptor's `status` (rule R95). -/
  rxEopBit : Nat
  deriving DecidableEq, Repr

namespace Config

/-- Whether a number is a power of two. -/
def isPow2 (n : Nat) : Bool := decide (n = 2 ^ n.log2)

/-- `OFF(R)` of every register, the multicast table's last. -/
def allOffsets (c : Config) : List Nat :=
  [ c.offCtrl, c.offIcr, c.offIms, c.offImc, c.offRctl, c.offTctl, c.offRdbal, c.offRdbah, c.offRdlen, c.offRdh
  , c.offRdt, c.offTdbal, c.offTdbah, c.offTdlen, c.offTdh, c.offTdt, c.offRal0, c.offRah0 ] ++
  (List.range c.mtaEntries).map fun n => c.offMta + 4 * n

/-- The bits of a field: those from `lo` on, `n` of them. -/
def bitsOf (lo n : Nat) : List Nat := (List.range n).map (lo + ·)

/-- The bits of every field of a TX descriptor, as rule R91 lists them. -/
def txBits (c : Config) : List Nat :=
  bitsOf c.tx.addr 64 ++ bitsOf c.tx.length c.lenFieldWidth ++ bitsOf c.tx.cso 8 ++ bitsOf c.tx.cmd 8 ++
    bitsOf c.tx.status 8 ++ bitsOf c.tx.css 8 ++ bitsOf c.tx.special 16

/-- The bits of every field of an RX descriptor, as rule R94 lists them. -/
def rxBits (c : Config) : List Nat :=
  bitsOf c.rx.addr 64 ++ bitsOf c.rx.length c.lenFieldWidth ++ bitsOf c.rx.checksum 16 ++ bitsOf c.rx.status 8 ++
    bitsOf c.rx.errors 8 ++ bitsOf c.rx.special 16

/-- The named bits of `RCTL`. -/
def rctlBits (c : Config) : List Nat := [c.rxEnBit, c.secrcBit] ++ bitsOf c.bsizeBit 2

/-- The constraint column of rule R5 on offsets: distinct, multiples of 4. -/
def offsetsOk (c : Config) : Bool :=
  decide c.allOffsets.Nodup && c.allOffsets.all fun off => decide (off % 4 = 0)

/-- The constraint column of rule R5 on numbers, row by row. -/
def sizesOk (c : Config) : Bool :=
  decide (c.regWidth = 32) && decide (c.ringAlign % c.descSize = 0) && decide (c.ringAlign = 128) &&
    isPow2 c.baseAlign && decide (c.refSlots % (c.ringAlign / c.descSize) = 0) && decide (8 ≤ c.refSlots) &&
    decide (c.bufSize0 ≤ c.page) && decide (c.bufSize1 ≤ c.page) && decide (c.bufSize2 ≤ c.page) &&
    decide (c.bufSize3 ≤ c.page) && decide (c.maxTxLen ≤ 2 ^ 16 - 1)

/-- The constraint column of rule R5 on bit positions: distinct within a word. -/
def bitsOk (c : Config) : Bool :=
  decide c.rctlBits.Nodup && decide c.txBits.Nodup && decide c.rxBits.Nodup && decide (c.cmdEopBit ≠ c.cmdRsBit) &&
    decide (c.ddBit ≠ c.rxEopBit)

/-- The constraints of rule R5, and nothing else. -/
def ok (c : Config) : Bool := c.offsetsOk && c.sizesOk && c.bitsOk

/-- What the layouts of 30_encoding.md ask beside rule R5 so that every field has room in its word (DEDUCED, A23): the
offsets in the window and the window in the 20 bits of `OFF`, a base of 64 bits that reaches every address, the named
bits in their registers, a length register that counts in units of `RING_ALIGN`, and the fields of a descriptor whole
bytes of it. -/
def fits (c : Config) : Bool :=
  c.allOffsets.all (fun off => decide (off < c.windowSize)) && decide (c.windowSize ≤ 2 ^ 20) &&
    decide (c.addrWidth ≤ 64) && decide (2 ^ c.lenBit = c.ringAlign) &&
    ([c.rstBit, c.txEnBit, c.rxdwBit] ++ c.rctlBits ++ bitsOf c.lenBit c.lenBits ++ bitsOf c.idxBit c.idxWidth).all
      (fun b => decide (b < c.regWidth)) &&
    [c.cmdEopBit, c.cmdRsBit, c.ddBit, c.rxEopBit].all (fun b => decide (b < 8)) &&
    (c.txBits ++ c.rxBits).all (fun b => decide (b < 8 * c.descSize)) &&
    [ c.lenFieldWidth, c.tx.addr, c.tx.length, c.tx.cmd, c.tx.status, c.rx.addr, c.rx.length, c.rx.checksum
    , c.rx.status, c.rx.errors, c.rx.special ].all (fun b => decide (b % 8 = 0))

/-- FREE VALUE: the `k`-th `draw_8()`. Nothing constrains it (A5). -/
opaque freeByte : Nat → Byte
/-- FREE VALUE: the `k`-th `draw_16()` (A5). -/
opaque freeHalf : Nat → Half
/-- FREE VALUE: the `k`-th `draw_32()` (A5). -/
opaque freeWord : Nat → Word
/-- FREE VALUE: the `draw_1()` of the interrupt line's `other` (10_state.md rule R41; A29). -/
opaque freeBit : Nat → Bool
/-- FREE VALUE: what the byte of host memory at an address holds while nothing has written it, as a host read finds
it ("whatever host memory holds", 10_state.md rule R33; A8). An engine read of such a byte faults instead. -/
opaque powerOnByte : Nat → Byte

end Config

end Sys2Proof
end

