-- ==== Sys2Proof/Machine/Params.lean ====
section
/-! DEFINITION. The configuration the model is instantiated with (00_scope.md rule R5; A23), and the types whose width
it gives. -/

namespace Sys2Proof

/-- The record of rule R5 at the defaults the spec gives: the offsets of 20_memory.md rule R70, the bit positions of
30_encoding.md. Every other definition takes its values from here. -/
def config : Config where
  regWidth := 32
  offCtrl := 0x00000
  offIcr := 0x000C0
  offIms := 0x000D0
  offImc := 0x000D8
  offRctl := 0x00100
  offTctl := 0x00400
  offRdbal := 0x02800
  offRdbah := 0x02804
  offRdlen := 0x02808
  offRdh := 0x02810
  offRdt := 0x02818
  offTdbal := 0x03800
  offTdbah := 0x03804
  offTdlen := 0x03808
  offTdh := 0x03810
  offTdt := 0x03818
  offRal0 := 0x05400
  offRah0 := 0x05404
  offMta := 0x05200
  mtaEntries := 128
  windowSize := 0x20000
  descSize := 16
  ringAlign := 128
  baseAlign := 16
  refSlots := 16
  addrWidth := 64
  idxWidth := 16
  lenFieldWidth := 16
  page := 4096
  bufSize0 := 2048
  bufSize1 := 1024
  bufSize2 := 512
  bufSize3 := 256
  maxTxLen := 4096
  fcsLen := 4
  rstBit := 26
  txEnBit := 1
  rxEnBit := 1
  bsizeBit := 16
  secrcBit := 26
  lenBit := 7
  lenBits := 13
  idxBit := 0
  rxdwBit := 7
  tx := { addr := 0, length := 64, cso := 80, cmd := 88, status := 96, css := 104, special := 112 }
  rx := { addr := 0, length := 64, checksum := 80, status := 96, errors := 104, special := 112 }
  cmdEopBit := 0
  cmdRsBit := 3
  ddBit := 0
  rxEopBit := 1

/-- The size of the physical address space, `2 ^ ADDR_WIDTH`. -/
def spaceSize : Nat := 2 ^ config.addrWidth

/-- The word of width `w` with the bit `k` set and no other. -/
def oneBit (w k : Nat) : BitVec w := 1#w <<< k

/-- Index of one entry of the multicast table, below `MTA_ENTRIES`. -/
abbrev MtaIdx := Fin config.mtaEntries

/-- A descriptor's length field, `LEN_FIELD_WIDTH` bits. -/
abbrev LenField := BitVec config.lenFieldWidth

/-- A head or tail index, `IDX_WIDTH` bits. -/
abbrev SlotIdx := BitVec config.idxWidth

/-- A descriptor as the number `D`, `DESC_SIZE` bytes (30_encoding.md rule R90). -/
abbrev DescWord := BitVec (8 * config.descSize)

end Sys2Proof
end

