-- ==== Sys2Proof/Syntax.lean ====
section
/-! DEFINITION. The operations of the block, one constructor per row of spec/opcode_table.json (30_encoding.md rule
R102): 19 register writes, 19 register reads, two TX descriptor forms and the RX descriptor. The offered frame of an
RX step is no part of the descriptor; it stands in the state (42_rx_engine.md rule R191). -/

namespace Sys2Proof

/-- One operation, with its operands. -/
inductive Instr where
  /-- `WR.CTRL v`, 40_host_register_ops.md rule R121. -/
  | wrCtrl (v : Word)
  /-- `WR.ICR v`, 40_host_register_ops.md rule R124. -/
  | wrIcr (v : Word)
  /-- `WR.IMS v`, 40_host_register_ops.md rule R125. -/
  | wrIms (v : Word)
  /-- `WR.IMC v`, 40_host_register_ops.md rule R127. -/
  | wrImc (v : Word)
  /-- `WR.RCTL v`, 40_host_register_ops.md rule R129. -/
  | wrRctl (v : Word)
  /-- `WR.TCTL v`, 40_host_register_ops.md rule R131. -/
  | wrTctl (v : Word)
  /-- `WR.RDBAL v`, 40_host_register_ops.md rule R133. -/
  | wrRdbal (v : Word)
  /-- `WR.RDBAH v`, 40_host_register_ops.md rule R135. -/
  | wrRdbah (v : Word)
  /-- `WR.RDLEN v`, 40_host_register_ops.md rule R137. -/
  | wrRdlen (v : Word)
  /-- `WR.RDH v`, 40_host_register_ops.md rule R139. -/
  | wrRdh (v : Word)
  /-- `WR.RDT v`, 40_host_register_ops.md rule R141. -/
  | wrRdt (v : Word)
  /-- `WR.TDBAL v`, 40_host_register_ops.md rule R143. -/
  | wrTdbal (v : Word)
  /-- `WR.TDBAH v`, 40_host_register_ops.md rule R145. -/
  | wrTdbah (v : Word)
  /-- `WR.TDLEN v`, 40_host_register_ops.md rule R147. -/
  | wrTdlen (v : Word)
  /-- `WR.TDH v`, 40_host_register_ops.md rule R149. -/
  | wrTdh (v : Word)
  /-- `WR.TDT v`, 40_host_register_ops.md rule R151. -/
  | wrTdt (v : Word)
  /-- `WR.MTA[n] v`, 40_host_register_ops.md rule R157. -/
  | wrMta (n : MtaIdx) (v : Word)
  /-- `WR.RAL0 v`, 40_host_register_ops.md rule R159. -/
  | wrRal0 (v : Word)
  /-- `WR.RAH0 v`, 40_host_register_ops.md rule R161. -/
  | wrRah0 (v : Word)
  /-- `RD.CTRL`, 40_host_register_ops.md rule R122. -/
  | rdCtrl
  /-- `RD.ICR`, 40_host_register_ops.md rule R123. -/
  | rdIcr
  /-- `RD.IMS`, 40_host_register_ops.md rule R126. -/
  | rdIms
  /-- `RD.IMC`, 40_host_register_ops.md rule R128. -/
  | rdImc
  /-- `RD.RCTL`, 40_host_register_ops.md rule R130. -/
  | rdRctl
  /-- `RD.TCTL`, 40_host_register_ops.md rule R132. -/
  | rdTctl
  /-- `RD.RDBAL`, 40_host_register_ops.md rule R134. -/
  | rdRdbal
  /-- `RD.RDBAH`, 40_host_register_ops.md rule R136. -/
  | rdRdbah
  /-- `RD.RDLEN`, 40_host_register_ops.md rule R138. -/
  | rdRdlen
  /-- `RD.RDH`, 40_host_register_ops.md rule R140. -/
  | rdRdh
  /-- `RD.RDT`, 40_host_register_ops.md rule R142. -/
  | rdRdt
  /-- `RD.TDBAL`, 40_host_register_ops.md rule R144. -/
  | rdTdbal
  /-- `RD.TDBAH`, 40_host_register_ops.md rule R146. -/
  | rdTdbah
  /-- `RD.TDLEN`, 40_host_register_ops.md rule R148. -/
  | rdTdlen
  /-- `RD.TDH`, 40_host_register_ops.md rule R150. -/
  | rdTdh
  /-- `RD.TDT`, 40_host_register_ops.md rule R152. -/
  | rdTdt
  /-- `RD.MTA[n]`, 40_host_register_ops.md rule R158. -/
  | rdMta (n : MtaIdx)
  /-- `RD.RAL0`, 40_host_register_ops.md rule R160. -/
  | rdRal0
  /-- `RD.RAH0`, 40_host_register_ops.md rule R162. -/
  | rdRah0
  /-- `TXD.EOP.RS`: send one frame and report, 41_tx_engine.md rule R172. -/
  | txdEopRs (addr : Addr) (len : LenField)
  /-- `TXD.EOP`: send one frame, report nothing, 41_tx_engine.md rule R173. -/
  | txdEop (addr : Addr) (len : LenField)
  /-- `RXD`: store one frame and report, 42_rx_engine.md rule R191. -/
  | rxd (addr : Addr)
  deriving DecidableEq, Repr

end Sys2Proof
end

