-- ==== Sys2Proof/Decode.lean ====
section
/-! DEFINITION. Decoding and encoding (30_encoding.md): the byte order, the registers and their offsets, the `MMIO`
transaction word, the two descriptor formats, a decoder total on every word that rejects by name, and the encoder of
the same tables. -/

namespace Sys2Proof

/-! ### Byte order (20_memory.md rule R60) -/

/-- The `n` bytes of a number, least significant first. -/
def leBytes : Nat → Nat → List Byte
  | 0, _ => []
  | n + 1, v => BitVec.ofNat 8 v :: leBytes n (v / 256)

/-- The number that bytes in ascending address order hold, least significant first. -/
def leNat : List Byte → Nat
  | [] => 0
  | b :: bs => b.toNat + 256 * leNat bs

/-! ### Registers and their offsets (20_memory.md rule R70) -/

/-- The registers a register access can name: the 19 names of 40_host_register_ops.md, `MTA` with its index. -/
inductive Reg where
  | ctrl | icr | ims | imc | rctl | tctl
  | rdbal | rdbah | rdlen | rdh | rdt
  | tdbal | tdbah | tdlen | tdh | tdt
  | mta (n : MtaIdx)
  | ral0 | rah0
  deriving DecidableEq, Repr

/-- `OFF(R)`, the byte offset of a register in the window. -/
def Reg.off (r : Reg) : Nat :=
  match r with
  | .ctrl => config.offCtrl
  | .icr => config.offIcr
  | .ims => config.offIms
  | .imc => config.offImc
  | .rctl => config.offRctl
  | .tctl => config.offTctl
  | .rdbal => config.offRdbal
  | .rdbah => config.offRdbah
  | .rdlen => config.offRdlen
  | .rdh => config.offRdh
  | .rdt => config.offRdt
  | .tdbal => config.offTdbal
  | .tdbah => config.offTdbah
  | .tdlen => config.offTdlen
  | .tdh => config.offTdh
  | .tdt => config.offTdt
  | .mta n => config.offMta + 4 * n.val
  | .ral0 => config.offRal0
  | .rah0 => config.offRah0

/-- The registers but the multicast table. -/
def plainRegs : List Reg :=
  [ .ctrl, .icr, .ims, .imc, .rctl, .tctl, .rdbal, .rdbah, .rdlen, .rdh, .rdt, .tdbal, .tdbah, .tdlen, .tdh, .tdt
  , .ral0, .rah0 ]

/-- The entry of the multicast table at an offset, if one stands there. -/
def mtaAt (off : Nat) : Option Reg :=
  if h : (off - config.offMta) / 4 < config.mtaEntries then
    if config.offMta ≤ off ∧ off % 4 = 0 then some (.mta ⟨(off - config.offMta) / 4, h⟩) else none
  else none

/-- The register at an offset, if the table lists one. -/
def Reg.ofOff (off : Nat) : Option Reg :=
  (mtaAt off).or (plainRegs.find? fun r => r.off == off)

/-- The register write of 30_encoding.md rule R102: `T.W` = 1. -/
def writeOp (r : Reg) (v : Word) : Instr :=
  match r with
  | .ctrl => .wrCtrl v
  | .icr => .wrIcr v
  | .ims => .wrIms v
  | .imc => .wrImc v
  | .rctl => .wrRctl v
  | .tctl => .wrTctl v
  | .rdbal => .wrRdbal v
  | .rdbah => .wrRdbah v
  | .rdlen => .wrRdlen v
  | .rdh => .wrRdh v
  | .rdt => .wrRdt v
  | .tdbal => .wrTdbal v
  | .tdbah => .wrTdbah v
  | .tdlen => .wrTdlen v
  | .tdh => .wrTdh v
  | .tdt => .wrTdt v
  | .mta n => .wrMta n v
  | .ral0 => .wrRal0 v
  | .rah0 => .wrRah0 v

/-- The register read of 30_encoding.md rule R102: `T.W` = 0. -/
def readOp (r : Reg) : Instr :=
  match r with
  | .ctrl => .rdCtrl
  | .icr => .rdIcr
  | .ims => .rdIms
  | .imc => .rdImc
  | .rctl => .rdRctl
  | .tctl => .rdTctl
  | .rdbal => .rdRdbal
  | .rdbah => .rdRdbah
  | .rdlen => .rdRdlen
  | .rdh => .rdRdh
  | .rdt => .rdRdt
  | .tdbal => .rdTdbal
  | .tdbah => .rdTdbah
  | .tdlen => .rdTdlen
  | .tdh => .rdTdh
  | .tdt => .rdTdt
  | .mta n => .rdMta n
  | .ral0 => .rdRal0
  | .rah0 => .rdRah0

/-! ### Words and what a decoder rejects -/

/-- The three kinds of word the block decodes (30_encoding.md rule R90). -/
inductive Code where
  /-- A register access as the word `T` (rule R100). -/
  | mmio (t : BitVec 64)
  /-- A descriptor fetched from the TX ring, as the number `D`. -/
  | txd (d : DescWord)
  /-- A descriptor fetched from the RX ring, as the number `D`. -/
  | rxd (d : DescWord)
  deriving DecidableEq, Repr

/-- Why a word is rejected (30_encoding.md rule R103). -/
inductive DecodeStop where
  /-- Bits 62:52 of `T` not 0, or a read with `DATA` not 0: not a word of the notation. -/
  | notAWord (t : BitVec 64)
  /-- `X_REGWIDTH`: an access that is not 32 bits wide or not at a multiple of 4. -/
  | regWidth (off : Nat) (width : Nat)
  /-- `X_UNKNOWN_REG`: an offset the table does not list. -/
  | unknownReg (off : Nat)
  /-- `X_TX_LEN`: a length of 0 or above `MAX_TX_LEN`. -/
  | txLen (len : LenField)
  /-- `X_TX_NOEOP`: end-of-packet not set. -/
  | txNoEop
  /-- `X_TX_CMD`: a reserved command bit set. -/
  | txCmd (cmd : Byte)
  deriving DecidableEq, Repr

/-- The length check of 41_tx_engine.md rule R176: `1 <= len <= MAX_TX_LEN`. -/
def txLenOk (len : LenField) : Bool :=
  decide (1 ≤ len.toNat) && decide (len.toNat ≤ config.maxTxLen)

/-! ### Register accesses -/

/-- A host access of `width` bits at `off` bytes into the window; the checks stand in the order of 60_exceptions.md
rule R231. -/
def decodeAccess (write : Bool) (width off : Nat) (v : Word) : Except DecodeStop Instr :=
  if width ≠ 32 ∨ off % 4 ≠ 0 then .error (.regWidth off width)
  else
    match Reg.ofOff off with
    | none => .error (.unknownReg off)
    | some r => .ok (if write then writeOp r v else readOp r)

/-- The word `T` (30_encoding.md rule R100): W in bit 63, zero in 62:52, OFF in 51:32, DATA in 31:0. -/
def decodeMmio (t : BitVec 64) : Except DecodeStop Instr :=
  let w := t.getLsbD 63
  let zero := t.extractLsb' 52 11
  let off := t.extractLsb' 32 20
  let data := t.extractLsb' 0 32
  if zero ≠ 0 ∨ (w = false ∧ data ≠ 0) then .error (.notAWord t)
  else decodeAccess w 32 off.toNat data

/-- The word `T` of a write of `v` to the register `r`. -/
def mmioWrite (r : Reg) (v : Word) : BitVec 64 :=
  1#1 ++ 0#11 ++ BitVec.ofNat 20 r.off ++ v

/-- The word `T` of a read of the register `r`. -/
def mmioRead (r : Reg) : BitVec 64 :=
  0#1 ++ 0#11 ++ BitVec.ofNat 20 r.off ++ 0#32

/-! ### Descriptors -/

/-- The command byte `EOP | RS` (30_encoding.md rule R92). -/
def cmdEopRs : Byte := oneBit 8 config.cmdEopBit ||| oneBit 8 config.cmdRsBit

/-- The command byte `EOP` (30_encoding.md rule R92). -/
def cmdEop : Byte := oneBit 8 config.cmdEopBit

/-- A TX descriptor (30_encoding.md rules R91, R92; 41_tx_engine.md rule R171): `addr`, `length` and `cmd`, and nothing
else is looked at. The length of the two admitted forms is checked where they execute; in any
other form it is checked here, first, as rule R231 of 60_exceptions.md orders the causes. -/
def decodeTxd (d : DescWord) : Except DecodeStop Instr :=
  let addr := d.extractLsb' config.tx.addr 64
  let len := d.extractLsb' config.tx.length config.lenFieldWidth
  let cmd := d.extractLsb' config.tx.cmd 8
  if cmd = cmdEopRs then .ok (.txdEopRs addr len)
  else if cmd = cmdEop then .ok (.txdEop addr len)
  else if txLenOk len = false then .error (.txLen len)
  else if cmd.getLsbD config.cmdEopBit = false then .error .txNoEop
  else .error (.txCmd cmd)

/-- An RX descriptor (30_encoding.md rule R94): only `addr` is read, and every descriptor is admitted. -/
def decodeRxd (d : DescWord) : Except DecodeStop Instr :=
  .ok (.rxd (d.extractLsb' config.rx.addr 64))

/-- The decoder, total on every word. -/
def decode : Code → Except DecodeStop Instr
  | .mmio t => decodeMmio t
  | .txd d => decodeTxd d
  | .rxd d => decodeRxd d

/-- The descriptor whose one field is `v` at bit `lo`, the others 0. -/
def inField {w : Nat} (v : BitVec w) (lo : Nat) : DescWord := v.setWidth _ <<< lo

/-- A TX descriptor with `cso`, `status`, `css` and `special` 0 (the directive `.txd`, 30_encoding.md rule R105). -/
def encodeTxd (addr : Addr) (len : LenField) (cmd : Byte) : DescWord :=
  inField addr config.tx.addr ||| inField len config.tx.length ||| inField cmd config.tx.cmd

/-- An RX descriptor with every other byte zero (the directive `.rxd`, 30_encoding.md rule R105). -/
def encodeRxd (addr : Addr) : DescWord := inField addr config.rx.addr

/-- The encoder: the word of an operation, its unused fields 0. -/
def encode (i : Instr) : Code :=
  match i with
  | .wrCtrl v => .mmio (mmioWrite .ctrl v)
  | .wrIcr v => .mmio (mmioWrite .icr v)
  | .wrIms v => .mmio (mmioWrite .ims v)
  | .wrImc v => .mmio (mmioWrite .imc v)
  | .wrRctl v => .mmio (mmioWrite .rctl v)
  | .wrTctl v => .mmio (mmioWrite .tctl v)
  | .wrRdbal v => .mmio (mmioWrite .rdbal v)
  | .wrRdbah v => .mmio (mmioWrite .rdbah v)
  | .wrRdlen v => .mmio (mmioWrite .rdlen v)
  | .wrRdh v => .mmio (mmioWrite .rdh v)
  | .wrRdt v => .mmio (mmioWrite .rdt v)
  | .wrTdbal v => .mmio (mmioWrite .tdbal v)
  | .wrTdbah v => .mmio (mmioWrite .tdbah v)
  | .wrTdlen v => .mmio (mmioWrite .tdlen v)
  | .wrTdh v => .mmio (mmioWrite .tdh v)
  | .wrTdt v => .mmio (mmioWrite .tdt v)
  | .wrMta n v => .mmio (mmioWrite (.mta n) v)
  | .wrRal0 v => .mmio (mmioWrite .ral0 v)
  | .wrRah0 v => .mmio (mmioWrite .rah0 v)
  | .rdCtrl => .mmio (mmioRead .ctrl)
  | .rdIcr => .mmio (mmioRead .icr)
  | .rdIms => .mmio (mmioRead .ims)
  | .rdImc => .mmio (mmioRead .imc)
  | .rdRctl => .mmio (mmioRead .rctl)
  | .rdTctl => .mmio (mmioRead .tctl)
  | .rdRdbal => .mmio (mmioRead .rdbal)
  | .rdRdbah => .mmio (mmioRead .rdbah)
  | .rdRdlen => .mmio (mmioRead .rdlen)
  | .rdRdh => .mmio (mmioRead .rdh)
  | .rdRdt => .mmio (mmioRead .rdt)
  | .rdTdbal => .mmio (mmioRead .tdbal)
  | .rdTdbah => .mmio (mmioRead .tdbah)
  | .rdTdlen => .mmio (mmioRead .tdlen)
  | .rdTdh => .mmio (mmioRead .tdh)
  | .rdTdt => .mmio (mmioRead .tdt)
  | .rdMta n => .mmio (mmioRead (.mta n))
  | .rdRal0 => .mmio (mmioRead .ral0)
  | .rdRah0 => .mmio (mmioRead .rah0)
  | .txdEopRs addr len => .txd (encodeTxd addr len cmdEopRs)
  | .txdEop addr len => .txd (encodeTxd addr len cmdEop)
  | .rxd addr => .rxd (encodeRxd addr)

/-! ### The opcode table's words -/

/-- Whether a 128-bit word of the opcode table is read as a TX descriptor: its command byte is one of the two the
table lists. An RX descriptor has no opcode bits and is told apart by its ring only (30_encoding.md rule R102), so
every other 128-bit word is read as one (A24). -/
def isTxWord (d : DescWord) : Bool :=
  decide (d.extractLsb' config.tx.cmd 8 = cmdEopRs) || decide (d.extractLsb' config.tx.cmd 8 = cmdEop)

/-- The word the opcode table means by `w`: 64 bits are a register access, any other length a descriptor (A24). -/
def tableCode (nbits w : Nat) : Code :=
  if nbits = 64 then .mmio (BitVec.ofNat 64 w)
  else if isTxWord (BitVec.ofNat _ w) then .txd (BitVec.ofNat _ w)
  else .rxd (BitVec.ofNat _ w)

/-- The instruction the decoder reads from a word of the opcode table. -/
def decodeTableWord (nbits w : Nat) : Option Instr :=
  match decode (tableCode nbits w) with
  | .ok i => some i
  | .error _ => none

end Sys2Proof
end

