-- ==== Sys2Proof/Machine/State.lean ====
section
/-! DEFINITION. The state of the machine as plain data (10_state.md rule R20): the block's registers, host memory, the
network side, the model's marks, what the launch supplies, the driver's ghost variables (43_driver_sequences.md rule
R210), and the steps still to come. -/

namespace Sys2Proof.Machine

/-! ### Faults and refusals (60_exceptions.md rule R231) -/

/-- The two engines, which also name the two rings. -/
inductive Engine where
  | tx | rx
  deriving DecidableEq, Repr

/-- A slot of a ring. -/
structure SlotRef where
  ring : Engine
  slot : Nat
  deriving DecidableEq, Repr

/-- The fault codes, each with what it records. All are safe: the machine stops where hardware might go on. -/
inductive Fault where
  /-- `F_OWN_WRITE`: a host store touched a byte of a device-owned descriptor or buffer
  (40_host_register_ops.md rule R154). Raised by host stores. Safe. -/
  | ownWrite (addr : Nat) (owner : SlotRef)
  /-- `F_DMA`: an engine accessed a byte outside `DMA_OK` (20_memory.md rule R79). Raised by the engines. Safe. -/
  | dma (addr : Nat) (engine : Engine)
  /-- `F_UNINIT`: an engine read a byte nothing has written (20_memory.md rule R79). Raised by the engines. Safe. -/
  | uninit (addr : Nat) (engine : Engine)
  /-- The model's own (A13): a host load or store of a byte at 2^64 or above, an address that does not exist
  (10_state.md rule R34). Raised by host loads and stores. Safe. -/
  | hostSpace (addr : Nat)
  deriving DecidableEq, Repr

/-- The refusal codes, each with what it records. All are safe: the model says nothing of such a run. -/
inductive Refusal where
  /-- An instruction without a meaning in the model. Raised by `exec`'s refused arms only. Safe. -/
  | notModelled (mnemonic : String)
  /-- A 64-bit word that is not a word of the notation (30_encoding.md rule R103; A35). Raised by the host's register
  accesses. Safe. -/
  | notAWord (t : BitVec 64)
  /-- `X_REGWIDTH`: a register access not 32 bits wide or not 4-byte aligned (20_memory.md rule R62). Raised by the
  host's register accesses. Safe. -/
  | regWidth (off : Int) (width : Nat)
  /-- `X_UNKNOWN_REG` (40_host_register_ops.md rule R163). Raised by the host's register accesses. Safe. -/
  | unknownReg (off : Nat)
  /-- `X_RINGWRAP`: a descriptor address of 2^64 or more (20_memory.md rule R65). Raised by whatever forms it: the
  engines, polls, the driver's sequences. Safe. -/
  | ringWrap (ring : Engine)
  /-- `X_IDX_RANGE` (40_host_register_ops.md rules R129, R131, R141, R151; 93 U9). Raised by `WR.RCTL`, `WR.TCTL`,
  `WR.RDT`, `WR.TDT`. Safe. -/
  | idxRange (reg : Reg) (value : Nat)
  /-- `X_HEAD_WRITE_EN` (40_host_register_ops.md rules R139, R149). Raised by `WR.RDH`, `WR.TDH`. Safe. -/
  | headWriteEn (reg : Reg)
  /-- `X_REPROGRAM` (40_host_register_ops.md rules R129, R133 to R137, R143 to R147). Raised by writes of base, length
  and `RCTL`. Safe. -/
  | reprogram (reg : Reg)
  /-- `X_TX_NOEOP` (41_tx_engine.md rule R174). Raised by the TX engine's decoding. Safe. -/
  | txNoEop (slot : Nat)
  /-- `X_TX_CMD` (41_tx_engine.md rule R175). Raised by the TX engine's decoding. Safe. -/
  | txCmd (slot : Nat) (cmd : Byte)
  /-- `X_TX_LEN` (41_tx_engine.md rule R176). Raised by the TX engine. Safe. -/
  | txLen (slot : Nat) (len : LenField)
  /-- `X_RX_LONG` (42_rx_engine.md rule R194). Raised by the RX engine. Safe. -/
  | rxLong (len : Nat)
  /-- `X_ALLOC`: the allocator failed inside `DRAIN_RECEIVE` (43_driver_sequences.md rule R217). Raised by the
  driver's drain. Safe. -/
  | alloc
  deriving DecidableEq, Repr

/-- Why an operation stopped short of a next state. -/
inductive Stop where
  | fault (f : Fault)
  | refused (r : Refusal)
  deriving DecidableEq, Repr

/-! ### The steps of the agents -/

/-- What the environment offers the RX engine: `f`, at least one byte, and `fcs`, `FCS_LEN` bytes
(10_state.md rule R36). -/
structure Offer where
  first : Byte
  rest : List Byte
  fcs : Vector Byte config.fcsLen
  deriving DecidableEq, Repr

/-- The widths of a host access to memory (40_host_register_ops.md rules R153, R154). -/
inductive Width where
  | w8 | w16 | w32 | w64
  deriving DecidableEq, Repr

/-- The host's primitive operations. -/
inductive HostOp where
  /-- A register access as the word `T` (30_encoding.md rule R100). -/
  | mmio (t : BitVec 64)
  /-- `LD<w> [a]` (40_host_register_ops.md rule R153). -/
  | load (w : Width) (a : Addr)
  /-- `ST<w> [a], v` (rule R154); the low `w` bits of `v` are the value. -/
  | store (w : Width) (a : Addr) (v : BitVec 64)
  /-- `POLL.TX i` (rule R155). -/
  | pollTx (i : SlotIdx)
  /-- `POLL.RX i` (rule R155). -/
  | pollRx (i : SlotIdx)
  deriving DecidableEq, Repr

/-- The threads of the driver: `INIT`, the TX lock's holder, the interrupt handler (43_driver_sequences.md rule
R220). -/
inductive Thread where
  | init | tx | rx
  deriving DecidableEq, Repr

/-- The calls that start a sequence of the driver (43_driver_sequences.md). -/
inductive Call where
  | init
  | transmitOne (buf : Addr) (len : LenField)
  | drainReceive
  | intr
  deriving DecidableEq, Repr

/-- One line of a driver sequence: a host primitive, or a change of ghost variables only. -/
inductive DriverOp where
  /-- A primitive whose operands are known when the sequence starts (`INIT`, the acknowledge of `INTR`). -/
  | host (op : HostOp)
  /-- `ST8 [tx_ring + k], v` or `ST8 [rx_ring + k], v` (R211). -/
  | initStore (e : Engine) (k : Nat) (v : Byte)
  /-- `tx_buf[i] <- none` (R211). -/
  | initTxBuf (i : Nat)
  /-- `b <- alloc_page(); rx_buf[i] <- b` (R211, R212). -/
  | initAlloc (i : Nat)
  /-- `ST64 [rx_ring + 16*i], rx_buf[i]` (R211). -/
  | initRxAddr (i : Nat)
  /-- `i <- RD TDT` (R213). -/
  | txReadTail
  /-- `if POLL.TX i = 0: return FULL` (R213, R214). -/
  | txPoll
  /-- `if tx_buf[i] != none: free_page(tx_buf[i])` (R213). -/
  | txFree
  /-- `ST64 [txd(i) + 0], buf` (R213). -/
  | txStoreAddr
  /-- `ST16 [txd(i) + 8], len` (R213). -/
  | txStoreLen
  /-- `ST8 [txd(i) + 11], 0x09` (R213). -/
  | txStoreCmd
  /-- `ST8 [txd(i) + 12], 0x00` (R213). -/
  | txStoreStatus
  /-- `tx_buf[i] <- buf` (R213). -/
  | txKeep
  /-- `WR TDT, (i + 1) mod N; return OK` (R213). -/
  | txWriteTail
  /-- `i <- ((RD RDT) + 1) mod N` (R215). -/
  | rxReadTail
  /-- `if POLL.RX i = 0: return` (R215). -/
  | rxPoll
  /-- `a <- LD64 [rxd(i) + 0]` (R215). -/
  | rxLoadAddr
  /-- `L <- LD16 [rxd(i) + 8]` (R215). -/
  | rxLoadLen
  /-- `deliver(a, L)` (R215, R216). -/
  | rxDeliver
  /-- `b <- alloc_page(); rx_buf[i] <- b` (R215, R217). -/
  | rxAlloc
  /-- `ST64 [rxd(i) + 0], b` (R215). -/
  | rxStoreAddr
  /-- `ST8 [rxd(i) + 12], 0x00` (R215). -/
  | rxStoreStatus
  /-- `WR RDT, i; goto loop` (R215). -/
  | rxWriteTail
  deriving DecidableEq, Repr

/-- What `TRANSMIT_ONE` returns (43_driver_sequences.md rules R213, R214). -/
inductive TxReturn where
  | ok | full
  deriving DecidableEq, Repr

/-- The driver's ghost variables (43_driver_sequences.md rule R210): not hardware (10_state.md rule R44). -/
structure Driver where
  /-- `N`. -/
  capacity : Nat
  /-- `tx_ring`. -/
  txRing : Addr
  /-- `rx_ring`. -/
  rxRing : Addr
  /-- `tx_buf[i]`. -/
  txBuf : List (Option Addr)
  /-- `rx_buf[i]`. -/
  rxBuf : List (Option Addr)
  /-- The pages `alloc_page()` can hand out, the next first. -/
  pages : List Addr
  /-- What each thread has still to do; empty when it is idle. -/
  initOps : List DriverOp
  txOps : List DriverOp
  rxOps : List DriverOp
  /-- `i`, `buf` and `len` of the `TRANSMIT_ONE` in progress. -/
  txSlot : Nat
  txCallBuf : Addr
  txCallLen : LenField
  /-- `i`, `a`, `L` and `b` of the `DRAIN_RECEIVE` in progress. -/
  rxSlot : Nat
  rxAddr : Addr
  rxLen : LenField
  rxPage : Addr
  /-- The calls `deliver(a, L)` made, oldest first. -/
  delivered : List (Addr × LenField)
  /-- The pages the dispatcher owns, delivered and not yet freed, oldest first (R216, R219). -/
  dispatching : List Addr
  /-- What the calls of `TRANSMIT_ONE` returned, oldest first. -/
  returned : List TxReturn
  /-- `INIT` has completed. -/
  ready : Bool
  /-- `INIT` failed fatally (R212). -/
  halted : Bool
  deriving DecidableEq, Repr

/-- One step of the interleaving: which agent takes it, and with what (10_state.md rule R20; A1). -/
inductive Turn where
  /-- A primitive operation of the host. -/
  | host (op : HostOp)
  /-- A step of the TX engine, `DEV.TX`. -/
  | txEngine
  /-- The environment offers a frame and the RX engine reacts, `DEV.RX f, fcs`. -/
  | offer (o : Offer)
  /-- The host begins a sequence of the driver. -/
  | call (c : Call)
  /-- A thread of the driver takes its next operation. -/
  | driver (t : Thread)
  /-- The dispatcher frees the `k`-th of the pages it owns (43_driver_sequences.md rules R216, R219; A27). -/
  | dispatcher (k : Nat)
  deriving DecidableEq, Repr

/-! ### The state -/

/-- What a tail write does when it shortens the device-owned interval (93_implementation_defined.md U9). -/
inductive TailPolicy where
  | interval | refuse
  deriving DecidableEq, Repr

/-- A run of physical addresses. -/
structure Region where
  base : Nat
  size : Nat
  deriving DecidableEq, Repr

/-- The parameters the launch supplies (92_eei_decisions.md, OPEN parameters). -/
structure Launch where
  /-- `REG_BASE`, a multiple of 4 (00_scope.md rule R5; `LaunchShape` in Safety.lean says so of a state). -/
  regBase : Addr
  /-- `DMA_OK`, as a union of regions; an address of 2^64 or above is never in it. -/
  dmaOk : List Region
  /-- `TAIL_RETREAT_POLICY`. -/
  tailPolicy : TailPolicy
  deriving DecidableEq, Repr

/-- The whole machine. -/
structure State where
  /-- `CTRL` (10_state.md rule R26). -/
  ctrl : Word
  /-- `TCTL` (rule R27). -/
  tctl : Word
  /-- `RCTL` (rule R28). -/
  rctl : Word
  /-- `IM`, reached through `IMS` and `IMC` (rule R29). -/
  im : Word
  /-- `ICR.RXDW` (rule R30). -/
  rxdw : Bool
  /-- The TX ring registers (rule R21). -/
  tdbal : Word
  tdbah : Word
  tdlen : Word
  tdh : Word
  tdt : Word
  /-- The RX ring registers (rule R22). -/
  rdbal : Word
  rdbah : Word
  rdlen : Word
  rdh : Word
  rdt : Word
  /-- `RAL0` and `RAH0` (rule R31). -/
  ral0 : Word
  rah0 : Word
  /-- `MTA[0]` to `MTA[MTA_ENTRIES - 1]` (rule R32). -/
  mta : Vector Word config.mtaEntries
  /-- Host memory (rule R34): the bytes that have been written, at rising addresses. -/
  mem : List Host.Cell
  /-- `tx_log` (rule R36), oldest first. -/
  txLog : List (List Byte)
  /-- The frame offered in the RX step being taken (rule R36). -/
  offer : Option Offer
  /-- `faulted` (rule R42). -/
  faulted : List Fault
  /-- `refused` (rule R42). -/
  refused : List Refusal
  /-- What the launch supplied. -/
  launch : Launch
  /-- MODEL'S OWN: the value the host's last read returned (A12). -/
  hostRead : BitVec 64
  /-- The driver's ghost variables. -/
  driver : Driver
  /-- MODEL'S OWN: the steps scheduled, the next first (A1). -/
  turns : List Turn
  /-- MODEL'S OWN: the index of the next free value (A5). -/
  draws : Nat
  /-- MODEL'S OWN: how many turns have passed, which says who is asked first where nothing is scheduled (A3). -/
  rota : Nat
  deriving DecidableEq, Repr

/-- The outcome of a step or of a meaning. -/
abbrev Result := Host.Outcome State Fault Refusal

/-! ### Reset (10_state.md rule R43, 70_reset_and_hazards.md rule R252) -/

/-- The parameters at launch (A9, A10, A11): the window at the top of the address space, every address below it
admitted for DMA, and the default tail policy. -/
def Launch.default : Launch where
  regBase := 0xFFFFFFFFFFFE0000
  dmaOk := [{ base := 0, size := 0xFFFFFFFFFFFE0000 }]
  tailPolicy := .interval

/-- The driver before `INIT`: the reference configuration and the memory layout of 95_test_vectors.md (A25). -/
def Driver.idle : Driver where
  capacity := config.refSlots
  txRing := 0x10000
  rxRing := 0x11000
  txBuf := List.replicate config.refSlots none
  rxBuf := List.replicate config.refSlots none
  pages := (List.range 32).map fun k => BitVec.ofNat 64 (0x20000 + k * config.page)
  initOps := []
  txOps := []
  rxOps := []
  txSlot := 0
  txCallBuf := 0
  txCallLen := 0
  rxSlot := 0
  rxAddr := 0
  rxLen := 0
  rxPage := 0
  delivered := []
  dispatching := []
  returned := []
  ready := false
  halted := false

/-- The machine at launch: after a reset, memory unwritten, no frame sent, no mark, nothing scheduled. Where the spec
leaves a register unspecified it is 0 (A6). -/
def State.reset : State where
  ctrl := 0
  tctl := 0
  rctl := 0
  im := 0
  rxdw := false
  tdbal := 0
  tdbah := 0
  tdlen := 0
  tdh := 0
  tdt := 0
  rdbal := 0
  rdbah := 0
  rdlen := 0
  rdh := 0
  rdt := 0
  ral0 := 0
  rah0 := 0
  mta := Vector.replicate config.mtaEntries 0
  mem := []
  txLog := []
  offer := none
  faulted := []
  refused := []
  launch := .default
  hostRead := 0
  driver := .idle
  turns := []
  draws := 0
  rota := 0

end Sys2Proof.Machine
end

