-- ==== Sys2Proof/Machine/Operands.lean ====
section
/-! DEFINITION. How every operand is built from register bits (30_encoding.md rules R96, R97, R98 and R101;
10_state.md rules R21 to R28): masks, ring base, capacity, head, tail, enables, receive buffer size, and the bytes an
offered frame is stored as. -/

namespace Sys2Proof.Machine

/-! ### Masks (30_encoding.md rules R96 to R98) -/

/-- `CTRL.RST`. -/
def maskRst : Word := oneBit 32 config.rstBit
/-- `TCTL.EN`. -/
def maskTxEn : Word := oneBit 32 config.txEnBit
/-- `RCTL.EN`. -/
def maskRxEn : Word := oneBit 32 config.rxEnBit
/-- `RCTL.BSIZE`. -/
def maskBsize : Word := oneBit 32 config.bsizeBit ||| oneBit 32 (config.bsizeBit + 1)
/-- `RCTL.SECRC`. -/
def maskSecrc : Word := oneBit 32 config.secrcBit
/-- `BASE_LO` of `TDBAL` and `RDBAL`. -/
def maskBaseLo : Word := ~~~BitVec.ofNat 32 (config.baseAlign - 1)
/-- `LEN128` of `TDLEN` and `RDLEN`. -/
def maskLen128 : Word := BitVec.ofNat 32 (2 ^ config.lenBits - 1) <<< config.lenBit
/-- `IDX` of a head or tail. -/
def maskIdx : Word := BitVec.ofNat 32 (2 ^ config.idxWidth - 1) <<< config.idxBit
/-- `RXDW` in `ICR`, `IMS` and `IMC`. -/
def maskRxdw : Word := oneBit 32 config.rxdwBit

/-! ### Fields of registers -/

/-- `EN` of `TCTL` or `RCTL`. -/
def enBit (e : Engine) (v : Word) : Bool :=
  match e with
  | .tx => v.getLsbD config.txEnBit
  | .rx => v.getLsbD config.rxEnBit

/-- `RCTL.BSIZE`. -/
def bsizeOf (v : Word) : BitVec 2 := v.extractLsb' config.bsizeBit 2

/-- `RCTL.SECRC`. -/
def secrcOf (v : Word) : Bool := v.getLsbD config.secrcBit

/-- The bit `RXDW` of a word for `ICR`, `IMS` or `IMC`. -/
def rxdwOf (v : Word) : Bool := v.getLsbD config.rxdwBit

/-- `IDX` of a head or tail, a slot number. -/
def idxOf (v : Word) : Nat := (v.extractLsb' config.idxBit config.idxWidth).toNat

/-- The head or tail register that holds the slot number `i`. -/
def idxWord (i : Nat) : Word := (BitVec.ofNat config.idxWidth i).setWidth 32 <<< config.idxBit

/-- The capacity a length register gives: `LEN128` times `RING_ALIGN / DESC_SIZE` slots (10_state.md rule R25;
A21). -/
def slotsOf (len : Word) : Nat :=
  (len.extractLsb' config.lenBit config.lenBits).toNat * (config.ringAlign / config.descSize)

/-- The ring base, `BAH ++ BAL` with the low bits 0 (10_state.md rule R25). -/
def baseOf (hi lo : Word) : Nat := (hi ++ (lo &&& maskBaseLo)).toNat

/-- `RX_BUF_SIZE` as `BSIZE` selects it (10_state.md rule R28). -/
def bufSizeOf (bsize : BitVec 2) : Nat :=
  if bsize = 0 then config.bufSize0
  else if bsize = 1 then config.bufSize1
  else if bsize = 2 then config.bufSize2
  else config.bufSize3

/-! ### The ring registers of an engine (10_state.md rules R21 to R25) -/

/-- `TDBA` or `RDBA`. -/
def ringBase (e : Engine) (s : State) : Nat :=
  match e with
  | .tx => baseOf s.tdbah s.tdbal
  | .rx => baseOf s.rdbah s.rdbal

/-- `N_TX` or `N_RX`. -/
def ringCap (e : Engine) (s : State) : Nat :=
  match e with
  | .tx => slotsOf s.tdlen
  | .rx => slotsOf s.rdlen

/-- The head index, the engine's program counter (10_state.md rule R23). -/
def ringHead (e : Engine) (s : State) : Nat :=
  match e with
  | .tx => idxOf s.tdh
  | .rx => idxOf s.rdh

/-- The tail index (10_state.md rule R24). -/
def ringTail (e : Engine) (s : State) : Nat :=
  match e with
  | .tx => idxOf s.tdt
  | .rx => idxOf s.rdt

/-- `TCTL.EN` or `RCTL.EN`. -/
def engineOn (e : Engine) (s : State) : Bool :=
  match e with
  | .tx => enBit .tx s.tctl
  | .rx => enBit .rx s.rctl

/-- The head register of an engine. -/
def headReg (e : Engine) : Reg :=
  match e with
  | .tx => .tdh
  | .rx => .rdh

/-- The tail register of an engine. -/
def tailReg (e : Engine) : Reg :=
  match e with
  | .tx => .tdt
  | .rx => .rdt

/-- `RX_BUF_SIZE` now. -/
def rxBufSize (s : State) : Nat := bufSizeOf (bsizeOf s.rctl)

/-! ### Circular index arithmetic (00_scope.md rules R8 and R13) -/

/-- `next(i)` in a ring of `n` slots. -/
def ringNext (n i : Nat) : Nat := (i + 1) % n

/-- `dist(a, b)`, the number of advances from `a` to `b`. -/
def ringDist (n a b : Nat) : Nat := (b % n + n - a % n) % n

/-- Whether slot `i` lies in the circular interval `[a, b)`. -/
def inInterval (n a b i : Nat) : Bool := decide (ringDist n a i < ringDist n a b)

/-! ### The offered frame (42_rx_engine.md rule R195) -/

/-- `f`. -/
def Offer.frame (o : Offer) : List Byte := o.first :: o.rest

/-- The bytes an offered frame is stored as: without the check sequence when `SECRC` is 1, with it otherwise. -/
def storedBytes (o : Offer) (s : State) : List Byte :=
  if secrcOf s.rctl then o.frame else o.frame ++ o.fcs.toList

end Sys2Proof.Machine
end

