-- ==== Sys2Proof/Machine/Flags.lean ====
section
/-! DEFINITION. The flags of the block (10_state.md rule R33): the status bytes the engines write, the done bit, the
interrupt cause and the interrupt line (10_state.md rules R30 and R41). -/

namespace Sys2Proof.Machine

/-- The mask of the done bit `DD` in a descriptor's status byte (30_encoding.md rules R93, R95). -/
def maskDd : Byte := oneBit 8 config.ddBit

/-- The mask of `DD` and `EOP` in an RX descriptor's status byte (30_encoding.md rule R95). -/
def maskDdEop : Byte := maskDd ||| oneBit 8 config.rxEopBit

/-- The done bit `DD` of a status byte. -/
def doneBit (status : Byte) : Bool := status.getLsbD config.ddBit

/-- The status byte of a TX write-back: `DD` = 1, every other bit the draw's (41_tx_engine.md rule R172). -/
def txDoneStatus (draw : Byte) : Byte := (draw &&& ~~~maskDd) ||| maskDd

/-- The status byte of an RX write-back: `DD` = `EOP` = 1, every other bit the draw's (42_rx_engine.md rule R191). -/
def rxDoneStatus (draw : Byte) : Byte := (draw &&& ~~~maskDdEop) ||| maskDdEop

/-- `RXDW` of a word for the pending cause. -/
def rxdwBit (pending : Bool) : Word := if pending then maskRxdw else 0

/-- What a read of `ICR` returns: bit 7 is `RXDW`, every other bit is the draw's (40_host_register_ops.md rule
R123). -/
def icrValue (pending : Bool) (draw : Word) : Word := (draw &&& ~~~maskRxdw) ||| rxdwBit pending

/-- The write-back raises the cause (42_rx_engine.md rule R197). -/
def raiseRxdw (s : State) : State := { s with rxdw := true }

/-- The host's read or write of `ICR` clears the cause (60_exceptions.md rule R234). -/
def clearRxdw (s : State) : State := { s with rxdw := false }

/-- `INT` (10_state.md rule R41): `(IM[7] and ICR[7]) or other`, where `other` is 0 when `IM` has no bit outside
`RXDW` and free otherwise (A29). -/
def intLine (s : State) : Bool :=
  (rxdwOf s.im && s.rxdw) || (decide (s.im &&& ~~~maskRxdw ≠ 0) && Config.freeBit s.draws)

end Sys2Proof.Machine
end

