-- ==== Sys2Proof/Machine/Ops.lean ====
section
/-! DEFINITION. The shared operations over memory and registers: memory as cells, DMA by the engines
(20_memory.md rule R79), ownership (10_state.md rules R37 to R39), descriptor addresses (20_memory.md rule R65), free
values, reset (70_reset_and_hazards.md rule R251), guarded register writes, and the model's marks (10_state.md rule
R42). The block takes no exception and has no return from one (60_exceptions.md rules R230, R236, R237). -/

namespace Sys2Proof.Machine

/-! ### Outcomes -/

/-- The outcome that a stop is. -/
def Stop.outcome : Stop → Result
  | .fault f => .fault f
  | .refused r => .refused r

/-! ### Memory (10_state.md rule R34) -/

/-- The byte written at `a`, if any. -/
def Memory.find : List Host.Cell → Nat → Option Byte
  | [], _ => none
  | c :: m, a => if c.1 = a then some c.2 else Memory.find m a

/-- The cells of bytes at ascending addresses from `a`. -/
def Memory.cells : Nat → List Byte → List Host.Cell
  | _, [] => []
  | a, b :: bs => (a, b) :: Memory.cells (a + 1) bs

/-- `MemWrite`: the bytes `bs` at `a`, ascending. -/
def Memory.write (m : List Host.Cell) (a : Nat) (bs : List Byte) : List Host.Cell :=
  m.filter (fun c => decide (c.1 < a)) ++ Memory.cells a bs ++ m.filter (fun c => decide (a + bs.length ≤ c.1))

/-- The canonical form: addresses strictly rising. An unlisted byte is an unwritten one and has no value, so no entry
can equal it (A8). -/
abbrev Memory.wf (m : List Host.Cell) : Prop := (m.map (·.1)).Pairwise (· < ·)

/-- The byte memory holds at `a`, as the host finds it. -/
def peek (s : State) (a : Nat) : Byte := (Memory.find s.mem a).getD (Config.powerOnByte a)

/-- `MemRead(a, n)` by the host, with no ownership check. -/
def peekBytes (s : State) (a n : Nat) : List Byte := (List.range n).map fun k => peek s (a + k)

/-- The state after `MemWrite`. -/
def State.store (s : State) (a : Nat) (bs : List Byte) : State := { s with mem := Memory.write s.mem a bs }

/-! ### Free values (00_scope.md rule R7, `draw_N()`; A5) -/

/-- `n` draws of 8 bits. -/
def drawBytes (s : State) (n : Nat) : List Byte := (List.range n).map fun k => Config.freeByte (s.draws + k)

/-- The state after `n` draws. -/
def State.drawn (s : State) (n : Nat) : State := { s with draws := s.draws + n }

/-! ### Descriptors -/

/-- `txd(i)` or `rxd(i)` (20_memory.md rule R65), an exact sum. -/
def descAddr (e : Engine) (i : Nat) (s : State) : Nat := ringBase e s + i * config.descSize

/-- Byte offset of `addr` in a descriptor (30_encoding.md rules R91, R94). -/
def offAddr (e : Engine) : Nat :=
  match e with
  | .tx => config.tx.addr / 8
  | .rx => config.rx.addr / 8
/-- Byte offset of `length`. -/
def offLength (e : Engine) : Nat :=
  match e with
  | .tx => config.tx.length / 8
  | .rx => config.rx.length / 8
/-- Byte offset of `status`. -/
def offStatus (e : Engine) : Nat :=
  match e with
  | .tx => config.tx.status / 8
  | .rx => config.rx.status / 8
/-- Byte offset of the TX `cmd`. -/
def offCmd : Nat := config.tx.cmd / 8
/-- Byte offset of the RX `checksum`. -/
def offChecksum : Nat := config.rx.checksum / 8
/-- Byte offset of the RX `errors`. -/
def offErrors : Nat := config.rx.errors / 8
/-- Byte offset of the RX `special`. -/
def offSpecial : Nat := config.rx.special / 8
/-- Bytes of a length field. -/
def lenFieldBytes : Nat := config.lenFieldWidth / 8

/-- A descriptor's `addr` field as memory holds it. -/
def bufAddr (e : Engine) (i : Nat) (s : State) : Nat := leNat (peekBytes s (descAddr e i s + offAddr e) 8)

/-- How many bytes of its buffer a device-owned slot owns (10_state.md rule R39). -/
def bufLen (e : Engine) (i : Nat) (s : State) : Nat :=
  match e with
  | .tx => leNat (peekBytes s (descAddr .tx i s + offLength .tx) lenFieldBytes)
  | .rx => rxBufSize s

/-! ### Ownership (10_state.md rules R37 to R39) -/

/-- Whether slot `i` of a ring is device-owned. -/
def deviceOwns (e : Engine) (i : Nat) (s : State) : Bool :=
  decide (i < ringCap e s) && inInterval (ringCap e s) (ringHead e s) (ringTail e s) i

/-- The device-owned slots of a ring, in slot order. -/
def ownedSlots (e : Engine) (s : State) : List Nat :=
  (List.range (ringCap e s)).filter fun i => deviceOwns e i s

/-- Whether `a` is one of the `n` bytes at `base`. -/
def covers (base n a : Nat) : Bool := decide (base ≤ a) && decide (a < base + n)

/-- Whether the byte `a` belongs to slot `i` of a ring: its descriptor or its buffer. DESIGN CHOICE (A17): the check
forms no descriptor address in the sense of 20_memory.md rule R65, so a slot whose descriptor lies at 2^64 or beyond
raises nothing here; the address and length of its buffer are then bytes nothing has written, free values. -/
def slotCovers (e : Engine) (i : Nat) (s : State) (a : Nat) : Bool :=
  covers (descAddr e i s) config.descSize a || covers (bufAddr e i s) (bufLen e i s) a

/-- The device-owned slot that the byte `a` belongs to, if any: the lowest of the TX ring, else of the RX ring (A16).
It raises no `X_RINGWRAP`, whatever the slots' addresses (A17). -/
def ownerOf (s : State) (a : Nat) : Option SlotRef :=
  match (ownedSlots .tx s).find? fun i => slotCovers .tx i s a with
  | some i => some { ring := .tx, slot := i }
  | none =>
    match (ownedSlots .rx s).find? fun i => slotCovers .rx i s a with
    | some i => some { ring := .rx, slot := i }
    | none => none

/-- Whether `a` is the status byte of a descriptor of a ring. -/
def isStatusOf (e : Engine) (s : State) (a : Nat) : Bool :=
  decide (ringBase e s ≤ a) && decide (a < ringBase e s + ringCap e s * config.descSize) &&
    decide ((a - ringBase e s) % config.descSize = offStatus e)

/-- Whether `a` is the status byte of a descriptor. -/
def isStatusByte (s : State) (a : Nat) : Bool := isStatusOf .tx s a || isStatusOf .rx s a

/-! ### DMA (20_memory.md rule R79) -/

/-- Whether the engines may access the byte `a`. -/
def dmaAdmits (s : State) (a : Nat) : Bool :=
  decide (a < spaceSize) && s.launch.dmaOk.any fun r => covers r.base r.size a

/-- The lowest of the `n` bytes at `a` that the engines may not access. -/
def dmaOutside (s : State) (a n : Nat) : Option Nat :=
  ((List.range n).map (a + ·)).find? fun x => !dmaAdmits s x

/-- The lowest of the `n` bytes at `a` that nothing has written. -/
def unwritten (s : State) (a n : Nat) : Option Nat :=
  ((List.range n).map (a + ·)).find? fun x => (Memory.find s.mem x).isNone

/-- `Fault(F_DMA)` unless the engine may access the `n` bytes at `a`. -/
def dmaCheck (e : Engine) (a n : Nat) (s : State) : Except Stop Unit :=
  match dmaOutside s a n with
  | some x => .error (.fault (.dma x e))
  | none => .ok ()

/-- An engine's read of the `n` bytes at `a`: `F_DMA` before `F_UNINIT` (60_exceptions.md rule R231). -/
def dmaRead (e : Engine) (a n : Nat) (s : State) : Except Stop (List Byte) :=
  match dmaCheck e a n s with
  | .error x => .error x
  | .ok () =>
    match unwritten s a n with
    | some x => .error (.fault (.uninit x e))
    | none => .ok (peekBytes s a n)

/-- An engine's write of the bytes `bs` at `a`. -/
def dmaWrite (e : Engine) (a : Nat) (bs : List Byte) (s : State) : Except Stop State :=
  match dmaCheck e a bs.length s with
  | .error x => .error x
  | .ok () => .ok (s.store a bs)

/-- An engine's writes, one after the other. -/
def dmaWrites (e : Engine) : List (Nat × List Byte) → State → Except Stop State
  | [], s => .ok s
  | w :: ws, s =>
    match dmaWrite e w.1 w.2 s with
    | .error x => .error x
    | .ok t => dmaWrites e ws t

/-- The address of slot `i`, formed by an agent: `X_RINGWRAP` if it is 2^64 or more (20_memory.md rule R65). -/
def formDescAddr (e : Engine) (i : Nat) (s : State) : Except Stop Nat :=
  if spaceSize ≤ descAddr e i s then .error (.refused (.ringWrap e)) else .ok (descAddr e i s)

/-- The address of the descriptor an engine is about to execute, all 16 bytes of it admitted for DMA. -/
def descriptorAt (e : Engine) (i : Nat) (s : State) : Except Stop Nat :=
  match formDescAddr e i s with
  | .error x => .error x
  | .ok d =>
    match dmaCheck e d config.descSize s with
    | .error x => .error x
    | .ok () => .ok d

/-! ### The engines' registers and the network side -/

/-- A head register's new value. -/
def State.setHead (s : State) (e : Engine) (v : Word) : State :=
  match e with
  | .tx => { s with tdh := v }
  | .rx => { s with rdh := v }

/-- A tail register's new value. -/
def State.setTail (s : State) (e : Engine) (v : Word) : State :=
  match e with
  | .tx => { s with tdt := v }
  | .rx => { s with rdt := v }

/-- `pc <- next(pc)` (10_state.md rule R23, 41_tx_engine.md rule R177, 42_rx_engine.md rule R196). -/
def advanceHead (e : Engine) (s : State) : State :=
  s.setHead e (idxWord (ringNext (ringCap e s) (ringHead e s)))

/-- `emit(bytes)` (10_state.md rule R36). -/
def State.emit (s : State) (bs : List Byte) : State := { s with txLog := s.txLog ++ [bs] }

/-! ### Register accesses by the host -/

/-- A register read: its value is what the host's read returns (A12). -/
def State.gotWord (s : State) (v : Word) : State := { s with hostRead := v.setWidth 64 }

/-- A register read that only returns a value. -/
def readReg (v : Word) (s : State) : Result := .next (s.gotWord v)

/-- A register write that is refused in some states. -/
def writeUnless (locked : Bool) (why : Refusal) (t : State) : Result :=
  if locked then .refused why else .next t

/-- The indices checked when an engine is enabled (40_host_register_ops.md rules R129, R131): the first of head and
tail that is out of range, which with `N` = 0 is the head (A18). -/
def enableCheck (e : Engine) (s : State) : Option Refusal :=
  if ringCap e s ≤ ringHead e s then some (.idxRange (headReg e) (ringHead e s))
  else if ringCap e s ≤ ringTail e s then some (.idxRange (tailReg e) (ringTail e s))
  else none

/-- Whether a tail write of `j` shortens the device-owned interval (93_implementation_defined.md U9). -/
def tailRetreats (e : Engine) (j : Nat) (s : State) : Bool :=
  decide (ringCap e s ≠ 0) &&
    decide (ringDist (ringCap e s) (ringHead e s) j < ringDist (ringCap e s) (ringHead e s) (ringTail e s))

/-- A tail write (40_host_register_ops.md rules R141, R151; 93_implementation_defined.md U9). -/
def writeTail (e : Engine) (v : Word) (s : State) : Result :=
  writeUnless
    ((engineOn e s && decide (ringCap e s ≤ idxOf v)) ||
      (decide (s.launch.tailPolicy = .refuse) && tailRetreats e (idxOf v) s))
    (.idxRange (tailReg e) (idxOf v))
    (s.setTail e (v &&& maskIdx))

/-! ### Reset (70_reset_and_hazards.md rule R251) -/

/-- `Reset()`: the table of 10_state.md rule R43, with one draw for each register it leaves unspecified. -/
def resetBlock (s : State) : State :=
  { s with
    ctrl := Config.freeWord s.draws &&& ~~~maskRst
    tctl := Config.freeWord (s.draws + 1) &&& ~~~maskTxEn
    rctl := Config.freeWord (s.draws + 2) &&& ~~~(maskRxEn ||| maskBsize ||| maskSecrc)
    im := Config.freeWord (s.draws + 3)
    rxdw := false
    tdbal := Config.freeWord (s.draws + 4) &&& maskBaseLo
    tdbah := Config.freeWord (s.draws + 5)
    tdlen := 0
    tdh := 0
    tdt := 0
    rdbal := Config.freeWord (s.draws + 6) &&& maskBaseLo
    rdbah := Config.freeWord (s.draws + 7)
    rdlen := 0
    rdh := 0
    rdt := 0
    ral0 := Config.freeWord (s.draws + 8)
    rah0 := Config.freeWord (s.draws + 9)
    mta := Vector.ofFn fun k : MtaIdx => Config.freeWord (s.draws + 10 + k.val)
    draws := s.draws + (10 + config.mtaEntries) }

/-! ### Marks (10_state.md rule R42) -/

/-- A mark added to a set of marks. -/
def addMark {α : Type} [DecidableEq α] (m : α) (ms : List α) : List α := if m ∈ ms then ms else ms ++ [m]

/-- The state with a fault recorded. -/
def State.recordFault (s : State) (f : Fault) : State := { s with faulted := addMark f s.faulted }

/-- The state with a refusal recorded. -/
def State.recordRefusal (s : State) (r : Refusal) : State := { s with refused := addMark r s.refused }

/-! ### The schedule (A1) -/

/-- The state in which the next scheduled step is taken: it is off the schedule, the free values move on, and the turn
is counted. -/
def State.nextTurn (s : State) : State :=
  { s with turns := s.turns.tail, draws := s.draws + 1, rota := s.rota + 1 }

end Sys2Proof.Machine
end

