-- ==== Sys2Proof/Machine/Control.lean ====
section
/-! DEFINITION. The control registers CTRL, RCTL and TCTL (40_host_register_ops.md rules R121, R122, R129 to R132). -/

namespace Sys2Proof.Machine

/-- `WR.CTRL v`: resets the block if `RST` is 1, else stores (40_host_register_ops.md rule R121). -/
def execWrCtrl (v : Word) (s : State) : Result :=
  if v &&& maskRst = 0 then .next { s with ctrl := v } else .next (resetBlock s)

/-- `RD.CTRL`: the register with `RST` reading 0 (40_host_register_ops.md rule R122). -/
def execRdCtrl (s : State) : Result :=
  readReg (s.ctrl &&& ~~~maskRst) s

/-- Whether a write of `RCTL` changes the buffer size or the stripping under an enabled receiver (40_host_register_ops.md rule R129). -/
def rctlReprograms (v old : Word) : Bool :=
  enBit .rx old && enBit .rx v && (decide (bsizeOf old ≠ bsizeOf v) || decide (secrcOf old ≠ secrcOf v))

/-- A write that may turn an engine on: the indices are checked when `EN` goes from 0 to 1 (40_host_register_ops.md rule R129 and R131). -/
def writeEnable (e : Engine) (v : Word) (s t : State) : Result :=
  match (if !engineOn e s && enBit e v then enableCheck e s else none) with
  | some why => .refused why
  | none => .next t

/-- `WR.RCTL v` (40_host_register_ops.md rule R129). -/
def execWrRctl (v : Word) (s : State) : Result :=
  if rctlReprograms v s.rctl then .refused (.reprogram .rctl)
  else writeEnable .rx v s { s with rctl := v }

/-- `RD.RCTL`: the register (40_host_register_ops.md rule R130). -/
def execRdRctl (s : State) : Result :=
  readReg s.rctl s

/-- `WR.TCTL v` (40_host_register_ops.md rule R131). -/
def execWrTctl (v : Word) (s : State) : Result :=
  writeEnable .tx v s { s with tctl := v }

/-- `RD.TCTL`: the register (40_host_register_ops.md rule R132). -/
def execRdTctl (s : State) : Result :=
  readReg s.tctl s

end Sys2Proof.Machine
end

