-- ==== Sys2Proof/Machine/Filter.lean ====
section
/-! DEFINITION. The receive-address filter and the multicast table, storage only (40_host_register_ops.md rules R157 to R162). -/

namespace Sys2Proof.Machine

/-- `WR.MTA[n] v` (40_host_register_ops.md rule R157). -/
def execWrMta (n : MtaIdx) (v : Word) (s : State) : Result :=
  .next { s with mta := s.mta.set n.val v n.isLt }

/-- `RD.MTA[n]` (40_host_register_ops.md rule R158). -/
def execRdMta (n : MtaIdx) (s : State) : Result :=
  readReg (s.mta[n.val]'n.isLt) s

/-- `WR.RAL0 v` (40_host_register_ops.md rule R159). -/
def execWrRal0 (v : Word) (s : State) : Result :=
  .next { s with ral0 := v }

/-- `RD.RAL0`: the register (40_host_register_ops.md rule R160). -/
def execRdRal0 (s : State) : Result :=
  readReg s.ral0 s

/-- `WR.RAH0 v` (40_host_register_ops.md rule R161). -/
def execWrRah0 (v : Word) (s : State) : Result :=
  .next { s with rah0 := v }

/-- `RD.RAH0`: the register (40_host_register_ops.md rule R162). -/
def execRdRah0 (s : State) : Result :=
  readReg s.rah0 s

end Sys2Proof.Machine
end

