-- ==== Sys2Proof/Machine/Interrupt.lean ====
section
/-! DEFINITION. The interrupt cause and mask: ICR, IMS and IMC (40_host_register_ops.md rules R123 to R128; 60_exceptions.md rules
R232 to R234). -/

namespace Sys2Proof.Machine

/-- `RD.ICR`: bit 7 is `RXDW`, every other bit is any value, and the cause is cleared (40_host_register_ops.md rule R123). -/
def execRdIcr (s : State) : Result :=
  .next (clearRxdw ((s.gotWord (icrValue s.rxdw (Config.freeWord s.draws))).drawn 1))

/-- `WR.ICR v`: clears the cause if bit 7 of `v` is 1 (40_host_register_ops.md rule R124). -/
def execWrIcr (v : Word) (s : State) : Result :=
  .next (if rxdwOf v then clearRxdw s else s)

/-- `WR.IMS v`: sets mask bits (40_host_register_ops.md rule R125). -/
def execWrIms (v : Word) (s : State) : Result :=
  .next { s with im := s.im ||| v }

/-- `RD.IMS`: the mask (40_host_register_ops.md rule R126). -/
def execRdIms (s : State) : Result :=
  readReg s.im s

/-- `WR.IMC v`: clears mask bits (40_host_register_ops.md rule R127). -/
def execWrImc (v : Word) (s : State) : Result :=
  .next { s with im := s.im &&& ~~~v }

/-- `RD.IMC`: any value (40_host_register_ops.md rule R128). -/
def execRdImc (s : State) : Result :=
  .next ((s.gotWord (Config.freeWord s.draws)).drawn 1)

end Sys2Proof.Machine
end

