-- ==== Sys2Proof/Machine/RxEngine.lean ====
section
/-! DEFINITION. The RX descriptor (42_rx_engine.md rules R191, R194 to R197). -/

namespace Sys2Proof.Machine

/-- The writes of one stored frame, in the order of 42_rx_engine.md rule R191: the buffer of `RX_BUF_SIZE` bytes at `addr`, then
the fields of the descriptor at `d` but its address, the status byte last. The draws are `RX_BUF_SIZE - L` bytes for the rest of
the buffer, then the checksum, `special` and the status. -/
def rxWrites (addr d : Nat) (bytes : List Byte) (s : State) : List (Nat × List Byte) :=
  let rest := rxBufSize s - bytes.length
  [ (addr, bytes)
  , (addr + bytes.length, drawBytes s rest)
  , (d + offLength .rx, leBytes lenFieldBytes bytes.length)
  , (d + offChecksum, leBytes 2 (Config.freeHalf (s.draws + rest)).toNat)
  , (d + offErrors, [0])
  , (d + offSpecial, leBytes 2 (Config.freeHalf (s.draws + rest + 1)).toNat)
  , (d + offStatus .rx, [rxDoneStatus (Config.freeByte (s.draws + rest + 2))]) ]

/-- How many free values a stored frame of `n` bytes takes. -/
def rxDraws (n : Nat) (s : State) : Nat := rxBufSize s - n + 3

/-- One frame stored through the descriptor at the head (42_rx_engine.md rule R191): memory, then the head, then the cause. -/
def storeFrame (addr : Nat) (bytes : List Byte) (s : State) : Except Stop State :=
  match descriptorAt .rx (ringHead .rx s) s with
  | .error x => .error x
  | .ok d =>
    match dmaWrites .rx (rxWrites addr d bytes s) s with
    | .error x => .error x
    | .ok t => .ok (raiseRxdw (advanceHead .rx (t.drawn (rxDraws bytes.length s))))

/-- Whether an offered frame is longer than one receive buffer (42_rx_engine.md rule R194). -/
def rxTooLong (o : Offer) (s : State) : Bool := decide (rxBufSize s < (storedBytes o s).length)

/-- The end of the offer: the frame is taken or lost, and nothing is offered any more. -/
def State.endOffer (s : State) : State := { s with offer := none }

/-- `RXD`: store the offered frame and report (42_rx_engine.md rule R191). With no frame offered the RX engine has no step
(42_rx_engine.md rule R190) and nothing happens (A30). -/
def execRxd (addr : Addr) (s : State) : Result :=
  match s.offer with
  | none => .next s
  | some o =>
    if rxTooLong o s then .refused (.rxLong (storedBytes o s).length)
    else
      match storeFrame addr.toNat (storedBytes o s) s with
      | .error x => x.outcome
      | .ok t => .next t.endOffer

end Sys2Proof.Machine
end

