-- ==== Sys2Proof/Machine/RxRing.lean ====
section
/-! DEFINITION. The RX ring registers (40_host_register_ops.md rules R133 to R142). -/

namespace Sys2Proof.Machine

/-- `WR.RDBAL v`: the low half of the ring base (40_host_register_ops.md rule R133). -/
def execWrRdbal (v : Word) (s : State) : Result :=
  writeUnless (engineOn .rx s) (.reprogram .rdbal) { s with rdbal := v &&& maskBaseLo }

/-- `RD.RDBAL`: the low half of the ring base, bits 3:0 reading 0 (40_host_register_ops.md rule R134). -/
def execRdRdbal (s : State) : Result :=
  readReg (s.rdbal &&& maskBaseLo) s

/-- `WR.RDBAH v`: the high half of the ring base (40_host_register_ops.md rule R135). -/
def execWrRdbah (v : Word) (s : State) : Result :=
  writeUnless (engineOn .rx s) (.reprogram .rdbah) { s with rdbah := v }

/-- `RD.RDBAH`: the high half of the ring base (40_host_register_ops.md rule R136). -/
def execRdRdbah (s : State) : Result :=
  readReg s.rdbah s

/-- `WR.RDLEN v`: the ring's byte size (40_host_register_ops.md rule R137). -/
def execWrRdlen (v : Word) (s : State) : Result :=
  writeUnless (engineOn .rx s) (.reprogram .rdlen) { s with rdlen := v &&& maskLen128 }

/-- `RD.RDLEN`: the ring's byte size (40_host_register_ops.md rule R138). -/
def execRdRdlen (s : State) : Result :=
  readReg s.rdlen s

/-- `WR.RDH v`: the head index (40_host_register_ops.md rule R139). -/
def execWrRdh (v : Word) (s : State) : Result :=
  writeUnless (engineOn .rx s) (.headWriteEn .rdh) { s with rdh := v &&& maskIdx }

/-- `RD.RDH`: the head index (40_host_register_ops.md rule R140). -/
def execRdRdh (s : State) : Result :=
  readReg s.rdh s

/-- `WR.RDT v`: the tail index, which hands slots over (40_host_register_ops.md rule R141). -/
def execWrRdt (v : Word) (s : State) : Result :=
  writeTail .rx v s

/-- `RD.RDT`: the tail index (40_host_register_ops.md rule R142). -/
def execRdRdt (s : State) : Result :=
  readReg s.rdt s

end Sys2Proof.Machine
end

