-- ==== Sys2Proof/Machine/TxEngine.lean ====
section
/-! DEFINITION. The TX descriptor forms (41_tx_engine.md rules R172, R173, R176, R177). -/

namespace Sys2Proof.Machine

/-- The length check and the transfer: the buffer's bytes leave the block (41_tx_engine.md rule R176; R172's first two lines). -/
def sendFrame (addr : Addr) (len : LenField) (s : State) : Except Stop State :=
  if txLenOk len = false then .error (.refused (.txLen (ringHead .tx s) len))
  else
    match dmaRead .tx addr.toNat len.toNat s with
    | .error x => .error x
    | .ok bytes => .ok (s.emit bytes)

/-- The write-back: the status byte of the descriptor at the head, and no other byte (41_tx_engine.md rule R172). -/
def reportDone (s : State) : Except Stop State :=
  match descriptorAt .tx (ringHead .tx s) s with
  | .error x => .error x
  | .ok d =>
    match dmaWrite .tx (d + offStatus .tx) [txDoneStatus (Config.freeByte s.draws)] s with
    | .error x => .error x
    | .ok t => .ok (t.drawn 1)

/-- `TXD.EOP.RS`: send one frame, report, advance the head (41_tx_engine.md rule R172). -/
def execTxdEopRs (addr : Addr) (len : LenField) (s : State) : Result :=
  match sendFrame addr len s with
  | .error x => x.outcome
  | .ok t =>
    match reportDone t with
    | .error x => x.outcome
    | .ok u => .next (advanceHead .tx u)

/-- `TXD.EOP`: send one frame, advance the head (41_tx_engine.md rule R173). -/
def execTxdEop (addr : Addr) (len : LenField) (s : State) : Result :=
  match sendFrame addr len s with
  | .error x => x.outcome
  | .ok t => .next (advanceHead .tx t)

end Sys2Proof.Machine
end

