-- ==== Sys2Proof/Machine/TxRing.lean ====
section
/-! DEFINITION. The TX ring registers (40_host_register_ops.md rules R143 to R152). -/

namespace Sys2Proof.Machine

/-- `WR.TDBAL v`: the low half of the ring base (40_host_register_ops.md rule R143). -/
def execWrTdbal (v : Word) (s : State) : Result :=
  writeUnless (engineOn .tx s) (.reprogram .tdbal) { s with tdbal := v &&& maskBaseLo }

/-- `RD.TDBAL`: the low half of the ring base, bits 3:0 reading 0 (40_host_register_ops.md rule R144). -/
def execRdTdbal (s : State) : Result :=
  readReg (s.tdbal &&& maskBaseLo) s

/-- `WR.TDBAH v`: the high half of the ring base (40_host_register_ops.md rule R145). -/
def execWrTdbah (v : Word) (s : State) : Result :=
  writeUnless (engineOn .tx s) (.reprogram .tdbah) { s with tdbah := v }

/-- `RD.TDBAH`: the high half of the ring base (40_host_register_ops.md rule R146). -/
def execRdTdbah (s : State) : Result :=
  readReg s.tdbah s

/-- `WR.TDLEN v`: the ring's byte size (40_host_register_ops.md rule R147). -/
def execWrTdlen (v : Word) (s : State) : Result :=
  writeUnless (engineOn .tx s) (.reprogram .tdlen) { s with tdlen := v &&& maskLen128 }

/-- `RD.TDLEN`: the ring's byte size (40_host_register_ops.md rule R148). -/
def execRdTdlen (s : State) : Result :=
  readReg s.tdlen s

/-- `WR.TDH v`: the head index (40_host_register_ops.md rule R149). -/
def execWrTdh (v : Word) (s : State) : Result :=
  writeUnless (engineOn .tx s) (.headWriteEn .tdh) { s with tdh := v &&& maskIdx }

/-- `RD.TDH`: the head index (40_host_register_ops.md rule R150). -/
def execRdTdh (s : State) : Result :=
  readReg s.tdh s

/-- `WR.TDT v`: the tail index, which hands slots over (40_host_register_ops.md rule R151). -/
def execWrTdt (v : Word) (s : State) : Result :=
  writeTail .tx v s

/-- `RD.TDT`: the tail index (40_host_register_ops.md rule R152). -/
def execRdTdt (s : State) : Result :=
  readReg s.tdt s

end Sys2Proof.Machine
end

