-- ==== Sys2Proof/Machine/Dispatch.lean ====
section
/-! DEFINITION. The dispatch: one arm per constructor of Instr, each one direct call of that instruction's meaning. -/

namespace Sys2Proof.Machine

def exec (i : Instr) (s : State) : Host.Outcome State Fault Refusal :=
  match i with
  | .wrCtrl v => Sys2Proof.Machine.execWrCtrl v s
  | .wrIcr v => Sys2Proof.Machine.execWrIcr v s
  | .wrIms v => Sys2Proof.Machine.execWrIms v s
  | .wrImc v => Sys2Proof.Machine.execWrImc v s
  | .wrRctl v => Sys2Proof.Machine.execWrRctl v s
  | .wrTctl v => Sys2Proof.Machine.execWrTctl v s
  | .wrRdbal v => Sys2Proof.Machine.execWrRdbal v s
  | .wrRdbah v => Sys2Proof.Machine.execWrRdbah v s
  | .wrRdlen v => Sys2Proof.Machine.execWrRdlen v s
  | .wrRdh v => Sys2Proof.Machine.execWrRdh v s
  | .wrRdt v => Sys2Proof.Machine.execWrRdt v s
  | .wrTdbal v => Sys2Proof.Machine.execWrTdbal v s
  | .wrTdbah v => Sys2Proof.Machine.execWrTdbah v s
  | .wrTdlen v => Sys2Proof.Machine.execWrTdlen v s
  | .wrTdh v => Sys2Proof.Machine.execWrTdh v s
  | .wrTdt v => Sys2Proof.Machine.execWrTdt v s
  | .wrMta n v => Sys2Proof.Machine.execWrMta n v s
  | .wrRal0 v => Sys2Proof.Machine.execWrRal0 v s
  | .wrRah0 v => Sys2Proof.Machine.execWrRah0 v s
  | .rdCtrl => Sys2Proof.Machine.execRdCtrl s
  | .rdIcr => Sys2Proof.Machine.execRdIcr s
  | .rdIms => Sys2Proof.Machine.execRdIms s
  | .rdImc => Sys2Proof.Machine.execRdImc s
  | .rdRctl => Sys2Proof.Machine.execRdRctl s
  | .rdTctl => Sys2Proof.Machine.execRdTctl s
  | .rdRdbal => Sys2Proof.Machine.execRdRdbal s
  | .rdRdbah => Sys2Proof.Machine.execRdRdbah s
  | .rdRdlen => Sys2Proof.Machine.execRdRdlen s
  | .rdRdh => Sys2Proof.Machine.execRdRdh s
  | .rdRdt => Sys2Proof.Machine.execRdRdt s
  | .rdTdbal => Sys2Proof.Machine.execRdTdbal s
  | .rdTdbah => Sys2Proof.Machine.execRdTdbah s
  | .rdTdlen => Sys2Proof.Machine.execRdTdlen s
  | .rdTdh => Sys2Proof.Machine.execRdTdh s
  | .rdTdt => Sys2Proof.Machine.execRdTdt s
  | .rdMta n => Sys2Proof.Machine.execRdMta n s
  | .rdRal0 => Sys2Proof.Machine.execRdRal0 s
  | .rdRah0 => Sys2Proof.Machine.execRdRah0 s
  | .txdEopRs addr len => Sys2Proof.Machine.execTxdEopRs addr len s
  | .txdEop addr len => Sys2Proof.Machine.execTxdEop addr len s
  | .rxd addr => Sys2Proof.Machine.execRxd addr s

end Sys2Proof.Machine
end

