-- ==== Sys2Proof/Machine/Host.lean ====
section
/-! DEFINITION. The host's primitive operations (40_host_register_ops.md): register accesses as words, loads, stores
and polls of memory, with the ownership checks of rules R153 to R155. -/

namespace Sys2Proof.Machine

/-! ### Register accesses -/

/-- The refusal a rejected word ends in; a TX descriptor's records its slot (60_exceptions.md rule R231). -/
def refusalOf (slot : Nat) : DecodeStop → Refusal
  | .notAWord t => .notAWord t
  | .regWidth off width => .regWidth (Int.ofNat off) width
  | .unknownReg off => .unknownReg off
  | .txLen len => .txLen slot len
  | .txNoEop => .txNoEop slot
  | .txCmd cmd => .txCmd slot cmd

/-- Runs what a word decodes to, or refuses as the decoder says. -/
def runDecoded (slot : Nat) (d : Except DecodeStop Instr) (s : State) : Result :=
  match d with
  | .ok i => exec i s
  | .error x => .refused (refusalOf slot x)

/-- A register access as the word `T` (30_encoding.md rule R100, 40_host_register_ops.md rule R120). DESIGN CHOICE
(A10): the word names a register by its offset and `REG_BASE` plays no part in it, so it is executed as usual even where
`REG_BASE` + `OFF` is 2^64 or more, of which the spec says nothing. -/
def hostMmio (t : BitVec 64) (s : State) : Result := runDecoded 0 (decodeMmio t) s

/-! ### Accesses at host addresses -/

/-- Bytes moved by an access of a width. -/
def Width.bytes : Width → Nat
  | .w8 => 1
  | .w16 => 2
  | .w32 => 4
  | .w64 => 8

/-- Whether any of the `n` bytes at `a` lies in the register window (10_state.md rule R35; A14). -/
def touchesWindow (s : State) (a n : Nat) : Bool :=
  decide (a < s.launch.regBase.toNat + config.windowSize) && decide (s.launch.regBase.toNat < a + n)

/-- A host access that touches the window: a register access, refused unless it is 32 bits wide at a multiple of 4
(20_memory.md rule R62; A14). -/
def windowAccess (write : Bool) (w : Width) (a : Nat) (v : BitVec 64) (s : State) : Result :=
  if a < s.launch.regBase.toNat then
    .refused (.regWidth (Int.ofNat a - Int.ofNat s.launch.regBase.toNat) (8 * w.bytes))
  else runDecoded 0 (decodeAccess write (8 * w.bytes) (a - s.launch.regBase.toNat) (v.setWidth 32)) s

/-- Whether a load returns the byte at `a` as memory holds it: it is not device-owned, or it is the status byte of a
descriptor (40_host_register_ops.md rule R153). -/
def loadsTrue (s : State) (a : Nat) : Bool := (ownerOf s a).isNone || isStatusByte s a

/-- The bytes a load of `n` bytes at `a` returns: a draw for each that it may not see (rule R153). -/
def loadBytes (s : State) (a n : Nat) : List Byte :=
  (List.range n).map fun k => if loadsTrue s (a + k) then peek s (a + k) else Config.freeByte (s.draws + k)

/-- The host's read result (A12). -/
def State.gotBytes (s : State) (bs : List Byte) : State := { s with hostRead := BitVec.ofNat 64 (leNat bs) }

/-- A load at an exact address, which may be 2^64 or more and then does not exist (00_scope.md rule R13 (c); A13). -/
def loadAt (w : Width) (a : Nat) (s : State) : Result :=
  if touchesWindow s a w.bytes then windowAccess false w a 0 s
  else if spaceSize < a + w.bytes then .fault (.hostSpace (max a spaceSize))
  else .next ((s.gotBytes (loadBytes s a w.bytes)).drawn w.bytes)

/-- `LD<w> [a]` (40_host_register_ops.md rule R153). -/
def hostLoad (w : Width) (a : Addr) (s : State) : Result := loadAt w a.toNat s

/-- The lowest of the `n` bytes at `a` that is device-owned, with its owner (A16). -/
def ownedByte (s : State) (a n : Nat) : Option (Nat × SlotRef) :=
  ((List.range n).map (a + ·)).findSome? fun x => (ownerOf s x).map fun o => (x, o)

/-- A store at an exact address, which may be 2^64 or more and then does not exist (00_scope.md rule R13 (c); A13).
DESIGN CHOICE (A37): the order of 60_exceptions.md rule R231 has no place for `F_OWN_WRITE`; a store that meets it and
also touches the register window is a register access, one that also runs past 2^64 is `hostSpace`, and only then
`F_OWN_WRITE` is asked. -/
def storeAt (w : Width) (a : Nat) (v : BitVec 64) (s : State) : Result :=
  if touchesWindow s a w.bytes then windowAccess true w a v s
  else if spaceSize < a + w.bytes then .fault (.hostSpace (max a spaceSize))
  else
    match ownedByte s a w.bytes with
    | some x => .fault (.ownWrite x.1 x.2)
    | none => .next (s.store a (leBytes w.bytes v.toNat))

/-- `ST<w> [a], v` (40_host_register_ops.md rule R154). -/
def hostStore (w : Width) (a : Addr) (v : BitVec 64) (s : State) : Result := storeAt w a.toNat v s

/-! ### The done-bit poll -/

/-- The state in which the host has read one bit (A12). -/
def State.gotBit (s : State) (b : Bool) : State := { s with hostRead := if b then 1 else 0 }

/-- `POLL.TX i` or `POLL.RX i` (40_host_register_ops.md rule R155): the done bit of a slot of the ring, as memory
holds it and whoever owns the slot. For `i >= N` the line means `LD8 [base + 16 i + 12] & 1` (30_encoding.md rule
R105; A15). DESIGN CHOICE (A15): a poll of a slot of the ring is admitted even where the status byte's address lies in
the register window, as R155 says of every poll; it reads what memory holds there, and only a poll beyond the capacity
meets the window check of 20_memory.md rule R62. -/
def hostPoll (e : Engine) (i : Nat) (s : State) : Result :=
  match formDescAddr e i s with
  | .error x => x.outcome
  | .ok d =>
    if i < ringCap e s then .next (s.gotBit (doneBit (peek s (d + offStatus e))))
    else
      match loadAt .w8 (d + offStatus e) s with
      | .next t => .next (t.gotBit (t.hostRead.getLsbD 0))
      | .fault f => .fault f
      | .refused r => .refused r

/-- One primitive operation of the host. -/
def hostOp (op : HostOp) (s : State) : Result :=
  match op with
  | .mmio t => hostMmio t s
  | .load w a => hostLoad w a s
  | .store w a v => hostStore w a v s
  | .pollTx i => hostPoll .tx i.toNat s
  | .pollRx i => hostPoll .rx i.toNat s

end Sys2Proof.Machine
end

