-- ==== Sys2Proof/Machine/Engines.lean ====
section
/-! DEFINITION. When the engines step and what they fetch: the TX engine at its head (41_tx_engine.md rules R170,
R171), the RX engine on an offered frame (42_rx_engine.md rules R190, R192 to R194). -/

namespace Sys2Proof.Machine

/-- Whether the TX engine has an enabled step (41_tx_engine.md rules R170, R179; 10_state.md rule R25). -/
def txEnabled (s : State) : Bool :=
  engineOn .tx s && decide (ringHead .tx s ≠ ringTail .tx s) && decide (ringCap .tx s ≠ 0)

/-- The descriptor the TX engine fetches: all `DESC_SIZE` bytes at its head (41_tx_engine.md rule R171). -/
def fetchTxd (s : State) : Except Stop DescWord :=
  match descriptorAt .tx (ringHead .tx s) s with
  | .error x => .error x
  | .ok d =>
    match dmaRead .tx d config.descSize s with
    | .error x => .error x
    | .ok bytes => .ok (BitVec.ofNat _ (leNat bytes))

/-- One step of the TX engine; with no enabled step nothing happens (A4). -/
def txStep (s : State) : Result :=
  if txEnabled s then
    match fetchTxd s with
    | .error x => x.outcome
    | .ok d => runDecoded (ringHead .tx s) (decodeTxd d) s
  else .next s

/-- The descriptor the RX engine fetches: the address field at its head, 8 bytes, and no other byte
(42_rx_engine.md rule R191; A19). -/
def fetchRxd (s : State) : Except Stop DescWord :=
  match descriptorAt .rx (ringHead .rx s) s with
  | .error x => .error x
  | .ok d =>
    match dmaRead .rx (d + offAddr .rx) 8 s with
    | .error x => .error x
    | .ok bytes => .ok (inField (BitVec.ofNat 64 (leNat bytes)) config.rx.addr)

/-- The state in which a frame is on offer. -/
def State.offering (s : State) (o : Offer) : State := { s with offer := some o }

/-- Whether the RX engine has no descriptor to use: head equals tail (42_rx_engine.md rule R192), or there is no ring
at all (10_state.md rule R25; A22). -/
def rxEmpty (s : State) : Bool :=
  decide (ringHead .rx s = ringTail .rx s) || decide (ringCap .rx s = 0)

/-- The environment offers a frame and the RX engine reacts, in the order of 42_rx_engine.md rule R190. -/
def rxStep (o : Offer) (s : State) : Result :=
  if engineOn .rx s = false then .next s
  else if rxTooLong o s then .refused (.rxLong (storedBytes o s).length)
  else if rxEmpty s then .next s
  else
    match fetchRxd s with
    | .error x => x.outcome
    | .ok d => runDecoded (ringHead .rx s) (decodeRxd d) (s.offering o)

end Sys2Proof.Machine
end

