-- ==== Sys2Proof/Machine/Driver.lean ====
section
/-! DEFINITION. The host's sequences INIT, TRANSMIT_ONE, DRAIN_RECEIVE and INTR (43_driver_sequences.md), each a list
of lines of which a thread takes one at a time, so that the other agents' steps may stand between any two
(rule R220). -/

namespace Sys2Proof.Machine

/-! ### The sequences -/

/-- A register write of a sequence. -/
def wrLine (r : Reg) (v : Word) : DriverOp := .host (.mmio (mmioWrite r v))

/-- The register writes with which `INIT` ends (43_driver_sequences.md rule R211). -/
def initRegisters (d : Driver) : List DriverOp :=
  [ wrLine .tdbal (d.txRing.extractLsb' 0 32)
  , wrLine .tdbah (d.txRing.extractLsb' 32 32)
  , wrLine .tdlen (BitVec.ofNat 32 (d.capacity * config.descSize))
  , wrLine .tdh 0
  , wrLine .tdt 0
  , wrLine .rdbal (d.rxRing.extractLsb' 0 32)
  , wrLine .rdbah (d.rxRing.extractLsb' 32 32)
  , wrLine .rdlen (BitVec.ofNat 32 (d.capacity * config.descSize))
  , wrLine .rdh 0
  , wrLine .rdt (idxWord (d.capacity - 1))
  , wrLine .tctl maskTxEn
  , wrLine .rctl (maskRxEn ||| maskSecrc)
  , wrLine .ims maskRxdw ]

/-- `INIT`, after its checks (rule R211). -/
def initSequence (d : Driver) : List DriverOp :=
  [wrLine .ctrl maskRst, wrLine .imc 0xFFFFFFFF] ++
  ((List.range (d.capacity * config.descSize)).flatMap fun k =>
    [.initStore .tx k 0, .initStore .rx k 0]) ++
  ((List.range d.capacity).flatMap fun i =>
    [.initStore .tx (config.descSize * i + offStatus .tx) maskDd, .initTxBuf i]) ++
  ((List.range d.capacity).flatMap fun i => [.initAlloc i, .initRxAddr i]) ++
  initRegisters d

/-- `TRANSMIT_ONE` (rule R213). -/
def transmitSequence : List DriverOp :=
  [ .txReadTail, .txPoll, .txFree, .txStoreAddr, .txStoreLen, .txStoreCmd, .txStoreStatus, .txKeep, .txWriteTail ]

/-- One turn of the loop of `DRAIN_RECEIVE` (rule R215). -/
def drainSequence : List DriverOp :=
  [ .rxReadTail, .rxPoll, .rxLoadAddr, .rxLoadLen, .rxDeliver, .rxAlloc, .rxStoreAddr, .rxStoreStatus, .rxWriteTail ]

/-- `INTR`: acknowledge, then drain (rule R218). -/
def intrSequence : List DriverOp := wrLine .icr 0xFFFFFFFF :: drainSequence

/-! ### One line of a sequence -/

/-- A change of the ghost variables. -/
def State.ghost (s : State) (f : Driver → Driver) : State := { s with driver := f s.driver }

/-- A host primitive and then a change of the ghost variables that may look at what it read. -/
def andThen (r : Result) (k : State → State) : Result :=
  match r with
  | .next t => .next (k t)
  | .fault f => .fault f
  | .refused r => .refused r

/-- A store to a field of a slot's descriptor. -/
def storeField (e : Engine) (i off : Nat) (w : Width) (v : BitVec 64) (s : State) : Result :=
  match formDescAddr e i s with
  | .error x => x.outcome
  | .ok d => storeAt w (d + off) v s

/-- A load of a field of a slot's descriptor. -/
def loadField (e : Engine) (i off : Nat) (w : Width) (s : State) : Result :=
  match formDescAddr e i s with
  | .error x => x.outcome
  | .ok d => loadAt w (d + off) s

/-- The base address of the driver's own ring. -/
def driverRing (e : Engine) (d : Driver) : Addr :=
  match e with
  | .tx => d.txRing
  | .rx => d.rxRing

/-- A store `k` bytes into the driver's own ring, with which `INIT` builds it (rule R211). The sum is exact
(00_scope.md rule R13 (c)): a slot of the ring at 2^64 or beyond is `X_RINGWRAP` (20_memory.md rule R65). -/
def storeRing (e : Engine) (k : Nat) (w : Width) (v : BitVec 64) (s : State) : Result :=
  if spaceSize ≤ (driverRing e s.driver).toNat + k / config.descSize * config.descSize then .refused (.ringWrap e)
  else storeAt w ((driverRing e s.driver).toNat + k) v s

/-- The buffer the driver believes a slot holds; a slot number beyond the list holds none (A25). -/
def heldBuf (bufs : List (Option Addr)) (i : Nat) : Option Addr := bufs.getD i none

/-- `TRANSMIT_ONE` ends here with a result (rules R213, R214). -/
def txReturns (r : TxReturn) (s : State) : State :=
  s.ghost fun d => { d with txOps := [], returned := d.returned ++ [r] }

/-- One line of a sequence, taken in the state in which it is off its thread's list. -/
def driverOp (op : DriverOp) (s : State) : Result :=
  match op with
  | .host op => hostOp op s
  | .initStore e k v => storeRing e k .w8 (v.setWidth 64) s
  | .initTxBuf i => .next (s.ghost fun d => { d with txBuf := d.txBuf.set i none })
  | .initAlloc i =>
    match s.driver.pages with
    | [] => .next (s.ghost fun d => { d with initOps := [], halted := true })
    | b :: bs => .next (s.ghost fun d => { d with pages := bs, rxBuf := d.rxBuf.set i (some b) })
  | .initRxAddr i =>
    storeRing .rx (config.descSize * i + offAddr .rx) .w64 ((heldBuf s.driver.rxBuf i).getD 0) s
  | .txReadTail =>
    andThen (hostMmio (mmioRead .tdt) s) fun t => t.ghost fun d => { d with txSlot := idxOf (t.hostRead.setWidth 32) }
  | .txPoll =>
    andThen (hostPoll .tx s.driver.txSlot s) fun t => if t.hostRead.getLsbD 0 then t else txReturns .full t
  | .txFree =>
    match heldBuf s.driver.txBuf s.driver.txSlot with
    | some b => .next (s.ghost fun d => { d with pages := d.pages ++ [b] })
    | none => .next s
  | .txStoreAddr => storeField .tx s.driver.txSlot (offAddr .tx) .w64 s.driver.txCallBuf s
  | .txStoreLen => storeField .tx s.driver.txSlot (offLength .tx) .w16 (s.driver.txCallLen.setWidth 64) s
  | .txStoreCmd => storeField .tx s.driver.txSlot offCmd .w8 (cmdEopRs.setWidth 64) s
  | .txStoreStatus => storeField .tx s.driver.txSlot (offStatus .tx) .w8 0 s
  | .txKeep => .next (s.ghost fun d => { d with txBuf := d.txBuf.set d.txSlot (some d.txCallBuf) })
  | .txWriteTail =>
    andThen (hostMmio (mmioWrite .tdt (idxWord (ringNext s.driver.capacity s.driver.txSlot))) s)
      (txReturns .ok)
  | .rxReadTail =>
    andThen (hostMmio (mmioRead .rdt) s) fun t =>
      t.ghost fun d => { d with rxSlot := ringNext d.capacity (idxOf (t.hostRead.setWidth 32)) }
  | .rxPoll =>
    andThen (hostPoll .rx s.driver.rxSlot s) fun t =>
      if t.hostRead.getLsbD 0 then t else t.ghost fun d => { d with rxOps := [] }
  | .rxLoadAddr =>
    andThen (loadField .rx s.driver.rxSlot (offAddr .rx) .w64 s) fun t => t.ghost fun d => { d with rxAddr := t.hostRead }
  | .rxLoadLen =>
    andThen (loadField .rx s.driver.rxSlot (offLength .rx) .w16 s) fun t =>
      t.ghost fun d => { d with rxLen := t.hostRead.setWidth _ }
  | .rxDeliver =>
    .next (s.ghost fun d => { d with
      delivered := d.delivered ++ [(d.rxAddr, d.rxLen)], dispatching := d.dispatching ++ [d.rxAddr] })
  | .rxAlloc =>
    match s.driver.pages with
    | [] => .refused .alloc
    | b :: bs =>
      .next (s.ghost fun d => { d with pages := bs, rxPage := b, rxBuf := d.rxBuf.set d.rxSlot (some b) })
  | .rxStoreAddr => storeField .rx s.driver.rxSlot (offAddr .rx) .w64 s.driver.rxPage s
  | .rxStoreStatus => storeField .rx s.driver.rxSlot (offStatus .rx) .w8 0 s
  | .rxWriteTail =>
    andThen (hostMmio (mmioWrite .rdt (idxWord s.driver.rxSlot)) s) fun t =>
      t.ghost fun d => { d with rxOps := drainSequence }

/-! ### Threads -/

/-- What a thread has still to do. -/
def threadOps (t : Thread) (d : Driver) : List DriverOp :=
  match t with
  | .init => d.initOps
  | .tx => d.txOps
  | .rx => d.rxOps

/-- The driver with a thread's list replaced. -/
def setThreadOps (t : Thread) (ops : List DriverOp) (d : Driver) : Driver :=
  match t with
  | .init => { d with initOps := ops }
  | .tx => { d with txOps := ops }
  | .rx => { d with rxOps := ops }

/-- `INIT` has run to its end (A28). -/
def initFinished (t : Thread) (s : State) : State :=
  if t = .init ∧ s.driver.initOps = [] ∧ s.driver.halted = false then s.ghost fun d => { d with ready := true } else s

/-- A thread takes its next line; an idle thread has no step (A4). -/
def driverStep (t : Thread) (s : State) : Result :=
  match threadOps t s.driver with
  | [] => .next s
  | op :: ops => andThen (driverOp op (s.ghost (setThreadOps t ops))) (initFinished t)

/-! ### The dispatcher -/

/-- The dispatcher frees the `k`-th of the pages it owns, which goes back to the allocator: the last link of the
ownership chain (rules R216, R219). With no such page it has no step (A4). DESIGN CHOICE (A27): when it does so, and for
which page, is the schedule's. -/
def dispatcherStep (k : Nat) (s : State) : Result :=
  match s.driver.dispatching[k]? with
  | none => .next s
  | some a =>
    .next (s.ghost fun d => { d with pages := d.pages ++ [a], dispatching := d.dispatching.eraseIdx k })

/-! ### Calls -/

/-- Whether `INIT` may begin: nothing of the driver is running (rule R220). -/
def initMayBegin (d : Driver) : Bool :=
  d.initOps.isEmpty && d.txOps.isEmpty && d.rxOps.isEmpty && !d.halted

/-- Whether `TRANSMIT_ONE` may begin: `INIT` is done and the TX lock is free (rule R220). DESIGN CHOICE (A36): the rest
of the precondition of rule R213, `1 <= len <= PAGE` and `len` bytes at `buf` that the caller owns, is not asked; the
spec leaves open what a call outside it does, and here it takes every line of its expansion. -/
def txMayBegin (d : Driver) : Bool := d.ready && d.initOps.isEmpty && d.txOps.isEmpty && !d.halted

/-- Whether `DRAIN_RECEIVE` may begin: `INIT` is done and no other execution runs (rules R215, R220). -/
def rxMayBegin (d : Driver) : Bool := d.ready && d.initOps.isEmpty && d.rxOps.isEmpty && !d.halted

/-- Whether the handler may begin: no `INIT` and no other drain runs (rules R218, R220). Whoever initialised the block,
the sequence `INIT` or other host operations, `INT` alone calls it (60_exceptions.md rule R236). -/
def intrMayBegin (d : Driver) : Bool := d.initOps.isEmpty && d.rxOps.isEmpty && !d.halted

/-- The check of rule R212: the ring's byte size is a multiple of `RING_ALIGN`. -/
def ringSizeOk (d : Driver) : Bool := decide (d.capacity * config.descSize % config.ringAlign = 0)

/-- Whether a call may begin now. -/
def callMayBegin (c : Call) (s : State) : Bool :=
  match c with
  | .init => initMayBegin s.driver
  | .transmitOne _ _ => txMayBegin s.driver
  | .drainReceive => rxMayBegin s.driver
  | .intr => intrMayBegin s.driver && intLine s

/-- The driver at the beginning of a sequence. -/
def beginCall (c : Call) (d : Driver) : Driver :=
  match c with
  | .init =>
    if ringSizeOk d then { d with initOps := initSequence d, ready := false }
    else { d with ready := false, halted := true }
  | .transmitOne buf len => { d with txOps := transmitSequence, txCallBuf := buf, txCallLen := len }
  | .drainReceive => { d with rxOps := drainSequence }
  | .intr => { d with rxOps := intrSequence }

/-- The host begins a sequence; a call that may not begin now has no step (A26). -/
def driverCall (c : Call) (s : State) : Result :=
  if callMayBegin c s then .next (s.ghost (beginCall c)) else .next s

end Sys2Proof.Machine
end

