-- ==== Sys2Proof/Machine/Schedule.lean ====
section
/-! DEFINITION. One step of the interleaving (20_memory.md rule R72, 60_exceptions.md rule R242): the agent that the
schedule names takes it; with nothing scheduled the agents that have something pending go on, in a fair order (A3). -/

namespace Sys2Proof.Machine

/-- Whether the agent that a turn names has an enabled step. A primitive of the host and an offer of the environment
always are one. -/
def turnEnabled (t : Turn) (s : State) : Bool :=
  match t with
  | .host _ => true
  | .txEngine => txEnabled s
  | .offer _ => true
  | .call c => callMayBegin c s
  | .driver th => !(threadOps th s.driver).isEmpty
  | .dispatcher k => decide (k < s.driver.dispatching.length)

/-- A turn taken. -/
def takeTurn (t : Turn) (s : State) : Result :=
  match t with
  | .host op => hostOp op s
  | .txEngine => txStep s
  | .offer o => rxStep o s
  | .call c => driverCall c s
  | .driver th => driverStep th s
  | .dispatcher k => dispatcherStep k s

/-- The agents that go on of themselves: the TX engine, the driver's threads, the handler while `INT` is high, and the
dispatcher, which must free what it is given (43_driver_sequences.md rule R216), the oldest page first. -/
def idleAgents : List Turn := [.txEngine, .driver .init, .driver .tx, .driver .rx, .call .intr, .dispatcher 0]

/-- The order in which they are asked: the one whose number the turn counter gives first, the others after it in a
circle, so that none that stays enabled waits for more than one round (70_reset_and_hazards.md rule R279). -/
def idleOrder (n : Nat) : List Turn :=
  idleAgents.drop (n % idleAgents.length) ++ idleAgents.take (n % idleAgents.length)

/-- What happens with nothing scheduled (A3): the first of them that has an enabled step takes it; where none has,
nothing. -/
def unscheduled (s : State) : Result :=
  match (idleOrder s.rota).find? (turnEnabled · s) with
  | some t => takeTurn t s
  | none => .next s

/-- One turn. -/
def runTurn (t : Option Turn) (s : State) : Result :=
  match t with
  | some t => takeTurn t s
  | none => unscheduled s

/-! ### A program's first instruction (A2) -/

/-- The address at which a fetched word's descriptor is placed: the rings of 95_test_vectors.md. -/
def fetchRing (e : Engine) : Nat :=
  match e with
  | .tx => 0x10000
  | .rx => 0x11000

/-- The frame offered so that the RX engine fetches its descriptor: one byte. -/
def fetchOffer : Offer where
  first := 0
  rest := []
  fcs := Vector.replicate config.fcsLen 0

/-- The state with the descriptor `d` in slot 0 of a ring of the reference size, that slot device-owned, its engine enabled, the
descriptor's bytes admitted for DMA, and that engine's step next. -/
def withDescriptor (e : Engine) (d : Nat) (s : State) : State :=
  let region : Region := { base := fetchRing e, size := config.descSize }
  let t := s.store (fetchRing e) (leBytes config.descSize d)
  let u := { t with launch := { t.launch with dmaOk := t.launch.dmaOk ++ [region] } }
  match e with
  | .tx => { u with
      tdbal := BitVec.ofNat 32 (fetchRing .tx), tdbah := 0, tdlen := BitVec.ofNat 32 (config.refSlots * config.descSize), tdh := 0, tdt := idxWord 1,
      tctl := u.tctl ||| maskTxEn, turns := [.txEngine] }
  | .rx => { u with
      rdbal := BitVec.ofNat 32 (fetchRing .rx), rdbah := 0, rdlen := BitVec.ofNat 32 (config.refSlots * config.descSize), rdh := 0, rdt := idxWord 1,
      rctl := u.rctl ||| maskRxEn, turns := [.offer fetchOffer] }

/-- The state whose very next step fetches and runs the opcode table's word `c`. -/
def withCode (c : Code) (s : State) : State :=
  match c with
  | .mmio t => { s with turns := [.host (.mmio t)] }
  | .txd d => withDescriptor .tx d.toNat s
  | .rxd d => withDescriptor .rx d.toNat s

end Sys2Proof.Machine
end

