-- ==== Sys2Proof/Machine/Step.lean ====
section
/-! DEFINITION. The machine's step, and the placing of one instruction as the next to run. -/

namespace Sys2Proof.Machine

/-- One step: the next turn of the schedule, taken in the state that has moved past it. -/
def step (s : State) : Host.Outcome State Fault Refusal := runTurn s.turns.head? s.nextTurn

/-- The state whose very next step runs the instruction of the opcode table's word `w` (A2, A24). -/
def State.withFetchWord (s : State) (nbits w : Nat) : State := withCode (tableCode nbits w) s

end Sys2Proof.Machine
end

