-- ==== Sys2Proof/Machine/Run.lean ====
section
/-! DEFINITION. A run that goes on past a fault or a refusal, with the model's marks (10_state.md rule R42; A20): the
step's writes do not happen and the code is recorded (60_exceptions.md rule R231). -/

namespace Sys2Proof.Machine

/-- One step of a run: the next state, or the state before with the mark recorded and the turn spent. -/
def advance (s : State) : State :=
  match step s with
  | .next t => t
  | .fault f => s.nextTurn.recordFault f
  | .refused r => s.nextTurn.recordRefusal r

/-- A run of `n` steps. -/
def runFor : Nat → State → State
  | 0, s => s
  | n + 1, s => runFor n (advance s)

end Sys2Proof.Machine
end

