-- ==== Sys2Proof/Safety.lean ====
section
/-! DEFINITION. What claims about the machine are stated in: the invariant of the registers and of memory, runs with no
mark, the stalled state, the end of a run and the quiescent state, the sides of the two engines, and the conditions under which a descriptor
executes. -/

namespace Sys2Proof.Machine

/-! ### Runs -/

/-- No fault and no refusal recorded (10_state.md rule R42). -/
def Unmarked (s : State) : Prop := s.faulted = [] ∧ s.refused = []

/-! ### The invariant -/

/-- The hard-wired and reserved register bits read as 0 (10_state.md rules R21, R22, R26). -/
def RegsShape (s : State) : Prop :=
  s.ctrl &&& maskRst = 0 ∧
  s.tdbal &&& ~~~maskBaseLo = 0 ∧ s.rdbal &&& ~~~maskBaseLo = 0 ∧
  s.tdlen &&& ~~~maskLen128 = 0 ∧ s.rdlen &&& ~~~maskLen128 = 0 ∧
  s.tdh &&& ~~~maskIdx = 0 ∧ s.tdt &&& ~~~maskIdx = 0 ∧
  s.rdh &&& ~~~maskIdx = 0 ∧ s.rdt &&& ~~~maskIdx = 0

/-- The indices of an enabled engine are slots of its ring (41_tx_engine.md rule R170). -/
def IndicesInRange (s : State) : Prop :=
  ∀ e : Engine, engineOn e s = true → ringHead e s < ringCap e s ∧ ringTail e s < ringCap e s

/-- Memory is in its canonical form and lists only addresses that exist (10_state.md rule R34). -/
def MemoryShape (s : State) : Prop :=
  Memory.wf s.mem ∧ ∀ c ∈ s.mem, c.1 < spaceSize

/-- The register window begins at a multiple of 4, which is all that 00_scope.md rule R5 asks. DESIGN CHOICE (A10): a
base from which the window crosses 2^64 is admitted. -/
def LaunchShape (s : State) : Prop := s.launch.regBase.toNat % 4 = 0

/-- The invariant of the machine between steps. -/
def Inv (s : State) : Prop :=
  RegsShape s ∧ IndicesInRange s ∧ MemoryShape s ∧ LaunchShape s ∧ s.offer = none

/-! ### Special states -/

/-- The TX engine is enabled and has no step: head equals tail (41_tx_engine.md rule R179). -/
def txStopped (s : State) : Bool := engineOn .tx s && !txEnabled s

/-- Whether a turn is the host's: one of its operations, a call or a line of its driver, or its dispatcher's. -/
def isHostTurn (t : Turn) : Bool :=
  match t with
  | .host _ | .call _ | .driver _ | .dispatcher _ => true
  | .txEngine | .offer _ => false

/-- Whether a turn offers a frame. -/
def isOffer (t : Turn) : Bool :=
  match t with
  | .offer _ => true
  | .host _ | .call _ | .driver _ | .dispatcher _ | .txEngine => false

/-- The host program has ended, with which its run ends (00_scope.md rule R12): none of its turns is to come and nothing
of it goes on of itself, whatever the TX engine and the environment have still to do. DESIGN CHOICE (A31), where R12
does not say when a host program has ended: it has not while `INT` is high and its handler could begin, or while the
dispatcher has a page to free. With an unnamed bit of `IM` set, the draw of `INT`'s `other` that decides is the one of
the next step; a later step draws again. -/
def hostEnded (s : State) : Bool :=
  !s.turns.any isHostTurn && (idleAgents.filter isHostTurn).all fun t => !turnEnabled t s.nextTurn

/-- The host program has ended and, in addition, the TX engine has no enabled step and the environment offers no further
frame (00_scope.md rule R12). The marks play no part here. -/
def quiescent (s : State) : Bool := hostEnded s && !txEnabled s && !s.turns.any isOffer

/-- A state with which a run may end: the host program has ended, and nothing is asked of the engines (00_scope.md rule
R12). DESIGN CHOICE (A32): R12 does not speak of marks; by 00_scope.md rule R9 a faulted state is never final, so no
fault may be recorded, while a recorded refusal is only kept. -/
def finalState (s : State) : Bool := hostEnded s && s.faulted.isEmpty

/-! ### What an operation is about -/

/-- The TX side's registers: `TCTL` and the TX ring. -/
def txSideRegs : List Reg := [.tctl, .tdbal, .tdbah, .tdlen, .tdh, .tdt]

/-- The RX side's registers: `RCTL` and the RX ring. -/
def rxSideRegs : List Reg := [.rctl, .rdbal, .rdbah, .rdlen, .rdh, .rdt]

/-- The TX side of two states is the same: `TCTL` and the TX ring registers. -/
def sameTxRegs (s t : State) : Prop :=
  t.tctl = s.tctl ∧ t.tdbal = s.tdbal ∧ t.tdbah = s.tdbah ∧ t.tdlen = s.tdlen ∧ t.tdh = s.tdh ∧ t.tdt = s.tdt

/-- The RX side of two states is the same: `RCTL` and the RX ring registers. -/
def sameRxRegs (s t : State) : Prop :=
  t.rctl = s.rctl ∧ t.rdbal = s.rdbal ∧ t.rdbah = s.rdbah ∧ t.rdlen = s.rdlen ∧ t.rdh = s.rdh ∧ t.rdt = s.rdt

/-- Every byte of memory outside the `n` bytes at `a` reads as before. -/
def memSameOutside (a n : Nat) (s t : State) : Prop :=
  ∀ x, x < a ∨ a + n ≤ x → Memory.find t.mem x = Memory.find s.mem x

/-! ### When a descriptor executes -/

/-- Every one of the `n` bytes at `a` may be accessed by the engines (20_memory.md rule R79). -/
def dmaAll (s : State) (a n : Nat) : Prop := ∀ k < n, dmaAdmits s (a + k) = true

/-- Memory holds the bytes `bs` at `a`, all of them written. -/
def holds (s : State) (a : Nat) (bs : List Byte) : Prop :=
  ∀ k (h : k < bs.length), Memory.find s.mem (a + k) = some bs[k]

/-- The descriptor at an engine's head exists and may be accessed. -/
def headAdmitted (e : Engine) (s : State) : Prop :=
  descAddr e (ringHead e s) s < spaceSize ∧ dmaAll s (descAddr e (ringHead e s) s) config.descSize

/-- The bytes the RX engine stores of an offered frame (42_rx_engine.md rule R195): `f` with `SECRC` = 1, `f ++ fcs`
with `SECRC` = 0. -/
def receivedBytes (o : Offer) (s : State) : List Byte :=
  if s.rctl.getLsbD 26 then o.first :: o.rest else o.first :: o.rest ++ o.fcs.toList

/-- The ranges `[a, a + n)` and `[b, b + m)` have no byte in common. -/
def apart (a n b m : Nat) : Prop := a + n ≤ b ∨ b + m ≤ a

/-! ### Sequences -/

/-- Lines of a driver sequence run one after the other with no other agent between them. -/
def runLines : List DriverOp → State → Result
  | [], s => .next s
  | op :: ops, s =>
    match driverOp op s with
    | .next t => runLines ops t
    | .fault f => .fault f
    | .refused r => .refused r

end Sys2Proof.Machine
end

