-- ==== Sys2Proof/WellFormed.lean ====
section
/-! DEFINITION. Which operations are well formed. Every register operation is, whatever its operands (their types
allow nothing else); a TX descriptor is when its length is one the model admits (41_tx_engine.md rule R176). An
ill-formed operation still decodes and is refused when it is executed. -/

namespace Sys2Proof

/-- Whether an operation's operands are ones the spec admits. -/
def WellFormed (i : Instr) : Bool :=
  match i with
  | .wrCtrl _ => true
  | .wrIcr _ => true
  | .wrIms _ => true
  | .wrImc _ => true
  | .wrRctl _ => true
  | .wrTctl _ => true
  | .wrRdbal _ => true
  | .wrRdbah _ => true
  | .wrRdlen _ => true
  | .wrRdh _ => true
  | .wrRdt _ => true
  | .wrTdbal _ => true
  | .wrTdbah _ => true
  | .wrTdlen _ => true
  | .wrTdh _ => true
  | .wrTdt _ => true
  | .wrMta _ _ => true
  | .wrRal0 _ => true
  | .wrRah0 _ => true
  | .rdCtrl => true
  | .rdIcr => true
  | .rdIms => true
  | .rdImc => true
  | .rdRctl => true
  | .rdTctl => true
  | .rdRdbal => true
  | .rdRdbah => true
  | .rdRdlen => true
  | .rdRdh => true
  | .rdRdt => true
  | .rdTdbal => true
  | .rdTdbah => true
  | .rdTdlen => true
  | .rdTdh => true
  | .rdTdt => true
  | .rdMta _ => true
  | .rdRal0 => true
  | .rdRah0 => true
  | .txdEopRs _ len => txLenOk len
  | .txdEop _ len => txLenOk len
  | .rxd _ => true

end Sys2Proof
end

