-- ==== Sys2Proof/Certificates/Slice0/Obligations.lean ====
section
/-! DEFINITION. The statements about the machine, each with the rules of spec/ it formalises. Masks, bit numbers and
byte offsets are written as the spec's numbers, not by the model's names for them. -/

open Sys2Proof Sys2Proof.Machine

/-! ### Register reads -/

/-- R122, R126, R130, R132: the word of a read of a control register or of `IMS`, and its effect: it returns the
register (bit 26 of `CTRL` as 0) and changes nothing else. -/
def Obligations.ControlReadsReturnTheRegister : Prop :=
  decode (.mmio 0x0000000000000000) = .ok .rdCtrl ∧ decode (.mmio 0x000000D000000000) = .ok .rdIms ∧
  decode (.mmio 0x0000010000000000) = .ok .rdRctl ∧ decode (.mmio 0x0000040000000000) = .ok .rdTctl ∧
  ∀ s : State,
    exec .rdCtrl s = .next { s with hostRead := (s.ctrl &&& 0xFBFFFFFF#32).setWidth 64 } ∧
    exec .rdIms s = .next { s with hostRead := s.im.setWidth 64 } ∧
    exec .rdRctl s = .next { s with hostRead := s.rctl.setWidth 64 } ∧
    exec .rdTctl s = .next { s with hostRead := s.tctl.setWidth 64 }

/-- R134, R136, R138, R140, R142: the word of a read of an RX ring register, and its effect: it returns the register,
whoever runs, and changes nothing else. -/
def Obligations.RxRingReadsReturnTheRegister : Prop :=
  decode (.mmio 0x0000280000000000) = .ok .rdRdbal ∧ decode (.mmio 0x0000280400000000) = .ok .rdRdbah ∧
  decode (.mmio 0x0000280800000000) = .ok .rdRdlen ∧ decode (.mmio 0x0000281000000000) = .ok .rdRdh ∧
  decode (.mmio 0x0000281800000000) = .ok .rdRdt ∧
  ∀ s : State,
    exec .rdRdbal s = .next { s with hostRead := (s.rdbal &&& 0xFFFFFFF0#32).setWidth 64 } ∧
    exec .rdRdbah s = .next { s with hostRead := s.rdbah.setWidth 64 } ∧
    exec .rdRdlen s = .next { s with hostRead := s.rdlen.setWidth 64 } ∧
    exec .rdRdh s = .next { s with hostRead := s.rdh.setWidth 64 } ∧
    exec .rdRdt s = .next { s with hostRead := s.rdt.setWidth 64 }

/-- R144, R146, R148, R150, R152: the word of a read of a TX ring register, and its effect: it returns the register,
whoever runs, and changes nothing else. -/
def Obligations.TxRingReadsReturnTheRegister : Prop :=
  decode (.mmio 0x0000380000000000) = .ok .rdTdbal ∧ decode (.mmio 0x0000380400000000) = .ok .rdTdbah ∧
  decode (.mmio 0x0000380800000000) = .ok .rdTdlen ∧ decode (.mmio 0x0000381000000000) = .ok .rdTdh ∧
  decode (.mmio 0x0000381800000000) = .ok .rdTdt ∧
  ∀ s : State,
    exec .rdTdbal s = .next { s with hostRead := (s.tdbal &&& 0xFFFFFFF0#32).setWidth 64 } ∧
    exec .rdTdbah s = .next { s with hostRead := s.tdbah.setWidth 64 } ∧
    exec .rdTdlen s = .next { s with hostRead := s.tdlen.setWidth 64 } ∧
    exec .rdTdh s = .next { s with hostRead := s.tdh.setWidth 64 } ∧
    exec .rdTdt s = .next { s with hostRead := s.tdt.setWidth 64 }

/-- R157 to R162: the words of the accesses to the multicast table and the receive-address filter, and their effects:
a write of an entry of the multicast table or of the receive-address filter is read back whole, a write of one entry
leaves every other entry, and neither the write nor the read changes anything else. -/
def Obligations.FilterRegistersAreStorage : Prop :=
  ∀ (s : State) (n : MtaIdx) (v : Word),
    decode (.mmio (BitVec.ofNat 32 (0x80005200 + 4 * n.val) ++ v)) = .ok (.wrMta n v) ∧
    decode (.mmio (BitVec.ofNat 32 (0x00005200 + 4 * n.val) ++ 0#32)) = .ok (.rdMta n) ∧
    decode (.mmio (0x80005400#32 ++ v)) = .ok (.wrRal0 v) ∧ decode (.mmio 0x0000540000000000) = .ok .rdRal0 ∧
    decode (.mmio (0x80005404#32 ++ v)) = .ok (.wrRah0 v) ∧ decode (.mmio 0x0000540400000000) = .ok .rdRah0 ∧
    (∃ t, exec (.wrMta n v) s = .next t ∧ t = { s with mta := t.mta } ∧
      exec (.rdMta n) t = .next { t with hostRead := v.setWidth 64 } ∧
      ∀ m : MtaIdx, m ≠ n → exec (.rdMta m) t = .next { t with hostRead := (s.mta[m.val]'m.isLt).setWidth 64 }) ∧
    (∃ w : Word, exec (.rdMta n) s = .next { s with hostRead := w.setWidth 64 } ∧ w = s.mta[n.val]'n.isLt) ∧
    exec (.wrRal0 v) s = .next { s with ral0 := v } ∧
    exec .rdRal0 s = .next { s with hostRead := s.ral0.setWidth 64 } ∧
    exec (.wrRah0 v) s = .next { s with rah0 := v } ∧
    exec .rdRah0 s = .next { s with hostRead := s.rah0.setWidth 64 }

/-! ### Interrupt cause and mask -/

/-- R123: the word of a read of `ICR`, and its effect: it returns the pending cause in bit 7 and any value in every
other bit, clears the cause, and changes nothing else (the free-value counter apart). -/
def Obligations.IcrReadReturnsAndClearsTheCause : Prop :=
  decode (.mmio 0x000000C000000000) = .ok .rdIcr ∧ ∀ s : State, ∃ (r : Word) (d : Nat),
    exec .rdIcr s = .next { s with hostRead := r.setWidth 64, rxdw := false, draws := d } ∧ r.getLsbD 7 = s.rxdw

/-- R128: the word of a read of `IMC`, and its effect: it returns any value and changes nothing else (the free-value
counter apart). -/
def Obligations.ImcReadReturnsAnyValue : Prop :=
  decode (.mmio 0x000000D800000000) = .ok .rdImc ∧
  ∀ s : State, ∃ (r : Word) (d : Nat), exec .rdImc s = .next { s with hostRead := r.setWidth 64, draws := d }

/-- R124: the word of a write of `ICR`, and its effect: with bit 7 set clears the cause, with bit 7 clear it changes
nothing: it can never set a cause. -/
def Obligations.IcrWriteClearsOnOne : Prop :=
  ∀ (s : State) (v : Word), decode (.mmio (0x800000C0#32 ++ v)) = .ok (.wrIcr v) ∧
    (v.getLsbD 7 = true → exec (.wrIcr v) s = .next { s with rxdw := false }) ∧
    (v.getLsbD 7 = false → exec (.wrIcr v) s = .next s)

/-- R125, R127: the words of a write of `IMS` and of `IMC`, and their effects: `IMS` sets exactly the mask bits that
are 1 in the data, `IMC` clears exactly those, the pending cause stays as it is, and nothing else changes. -/
def Obligations.MaskPortsSetAndClearBits : Prop :=
  ∀ (s : State) (v : Word),
    decode (.mmio (0x800000D0#32 ++ v)) = .ok (.wrIms v) ∧ decode (.mmio (0x800000D8#32 ++ v)) = .ok (.wrImc v) ∧
    (∃ t, exec (.wrIms v) s = .next t ∧ t = { s with im := t.im } ∧
      ∀ k < 32, t.im.getLsbD k = (s.im.getLsbD k || v.getLsbD k)) ∧
    (∃ t, exec (.wrImc v) s = .next t ∧ t = { s with im := t.im } ∧
      ∀ k < 32, t.im.getLsbD k = (s.im.getLsbD k && !v.getLsbD k))

/-- R41, R233 (the part about `RXDW`): with no mask bit outside bit 7 the line is the pending cause under its mask;
with the cause pending and enabled it is high whatever else is enabled. -/
def Obligations.InterruptLineFollowsTheCause : Prop :=
  ∀ s : State,
    (s.im &&& 0xFFFFFF7F#32 = 0 → intLine s = (s.im.getLsbD 7 && s.rxdw)) ∧
    (s.im.getLsbD 7 = true → s.rxdw = true → intLine s = true)

/-- R234: the cause is cleared by a read of `ICR`, by a write of `ICR` with bit 7 = 1, by reset, and by no other
operation of the block. -/
def Obligations.CauseIsClearedOnlyByHostOrReset : Prop :=
  ∀ (i : Instr) (s t : State), exec i s = .next t → s.rxdw = true → (t.rxdw = false ↔
    i = .rdIcr ∨ (∃ v : Word, i = .wrIcr v ∧ v.getLsbD 7 = true) ∨ (∃ v : Word, i = .wrCtrl v ∧ v.getLsbD 26 = true))

/-- R197, R191 and R232 with R30 (the only source in scope): the cause is set by a stored frame and by no other operation, and a
stored frame always sets it. -/
def Obligations.CauseIsSetOnlyByAStoredFrame : Prop :=
  (∀ (i : Instr) (s t : State), exec i s = .next t → s.rxdw = false → t.rxdw = true → ∃ addr, i = .rxd addr) ∧
  (∀ (addr : Addr) (s t : State) (o : Offer), s.offer = some o → exec (.rxd addr) s = .next t → t.rxdw = true)

/-! ### Control registers and reset -/

/-- R121, with the reset it names (R43, R251 and R253): the word of a write of `CTRL`, and its effect. With bit 26 clear it
stores the data and changes nothing else. With bit 26 set it resets the block in one step: engines disabled, indices
and lengths 0, buffer size and stripping 0, cause cleared, `RST` reads 0; the other block registers take values that
nothing constrains; host memory, `tx_log`, the marks, the launch and the host's own state are not touched, and no slot
is device-owned any more. No other bit of the data is kept: the outcome is the same for every data with bit 26 set. -/
def Obligations.CtrlWriteStoresOrResets : Prop :=
  ∀ (s : State) (v : Word), decode (.mmio (0x80000000#32 ++ v)) = .ok (.wrCtrl v) ∧
    (v.getLsbD 26 = false → exec (.wrCtrl v) s = .next { s with ctrl := v }) ∧
    (v.getLsbD 26 = true → ∀ w : Word, w.getLsbD 26 = true → exec (.wrCtrl w) s = exec (.wrCtrl v) s) ∧
    (v.getLsbD 26 = true → ∃ t, exec (.wrCtrl v) s = .next t ∧
      t.tctl.getLsbD 1 = false ∧ t.rctl.getLsbD 1 = false ∧ t.rctl.extractLsb' 16 2 = 0 ∧ t.rctl.getLsbD 26 = false ∧
      t.tdh = 0 ∧ t.tdt = 0 ∧ t.rdh = 0 ∧ t.rdt = 0 ∧ t.tdlen = 0 ∧ t.rdlen = 0 ∧ t.rxdw = false ∧
      t.ctrl.getLsbD 26 = false ∧ t.tdbal.extractLsb' 0 4 = 0 ∧ t.rdbal.extractLsb' 0 4 = 0 ∧
      t.mem = s.mem ∧ t.txLog = s.txLog ∧ t.faulted = s.faulted ∧ t.refused = s.refused ∧ t.launch = s.launch ∧
      t.driver = s.driver ∧ t.hostRead = s.hostRead ∧ t.offer = s.offer ∧ t.turns = s.turns ∧
      ∀ e i, deviceOwns e i t = false)

/-- R43, R252: the machine at launch holds the values that the spec gives for reset. -/
def Obligations.LaunchHasTheResetValues : Prop :=
  State.reset.ctrl.getLsbD 26 = false ∧ State.reset.tctl.getLsbD 1 = false ∧ State.reset.rctl.getLsbD 1 = false ∧
  State.reset.rctl.extractLsb' 16 2 = 0 ∧ State.reset.rctl.getLsbD 26 = false ∧
  State.reset.tdh = 0 ∧ State.reset.tdt = 0 ∧ State.reset.rdh = 0 ∧ State.reset.rdt = 0 ∧
  State.reset.tdlen = 0 ∧ State.reset.rdlen = 0 ∧ State.reset.rxdw = false ∧
  State.reset.tdbal.extractLsb' 0 4 = 0 ∧ State.reset.rdbal.extractLsb' 0 4 = 0 ∧
  State.reset.txLog = [] ∧ State.reset.faulted = [] ∧ State.reset.refused = []

/-- R129: the word of a write of `RCTL`, and its effect: it is stored unless it changes `BSIZE` or `SECRC` under an
enabled receiver, or turns `EN` on with `N_RX` = 0 or an index at or beyond `N_RX`; then it is refused. -/
def Obligations.RctlWriteIsStoredOrRefused : Prop :=
  ∀ (s : State) (v : Word),
    let changes := s.rctl.extractLsb' 16 2 ≠ v.extractLsb' 16 2 ∨ s.rctl.getLsbD 26 ≠ v.getLsbD 26
    let fits := ringHead .rx s < ringCap .rx s ∧ ringTail .rx s < ringCap .rx s
    decode (.mmio (0x80000100#32 ++ v)) = .ok (.wrRctl v) ∧
    (s.rctl.getLsbD 1 = true → v.getLsbD 1 = true → changes → exec (.wrRctl v) s = .refused (.reprogram .rctl)) ∧
    (s.rctl.getLsbD 1 = true → v.getLsbD 1 = true → ¬ changes → exec (.wrRctl v) s = .next { s with rctl := v }) ∧
    (v.getLsbD 1 = false → exec (.wrRctl v) s = .next { s with rctl := v }) ∧
    (s.rctl.getLsbD 1 = false → v.getLsbD 1 = true → fits → exec (.wrRctl v) s = .next { s with rctl := v }) ∧
    (s.rctl.getLsbD 1 = false → v.getLsbD 1 = true → ¬ fits →
      ∃ r n, exec (.wrRctl v) s = .refused (.idxRange r n) ∧ ringCap .rx s ≤ n)

/-- R131: the word of a write of `TCTL`, and its effect: it is stored unless it turns `EN` on with `N_TX` = 0 or an
index at or beyond `N_TX`; then it is refused. -/
def Obligations.TctlWriteIsStoredOrRefused : Prop :=
  ∀ (s : State) (v : Word),
    let fits := ringHead .tx s < ringCap .tx s ∧ ringTail .tx s < ringCap .tx s
    decode (.mmio (0x80000400#32 ++ v)) = .ok (.wrTctl v) ∧
    (s.tctl.getLsbD 1 = true ∨ v.getLsbD 1 = false ∨ fits → exec (.wrTctl v) s = .next { s with tctl := v }) ∧
    (s.tctl.getLsbD 1 = false → v.getLsbD 1 = true → ¬ fits →
      ∃ r n, exec (.wrTctl v) s = .refused (.idxRange r n) ∧ ringCap .tx s ≤ n)

/-! ### Ring registers -/

/-- R133, R135, R137, R139: the words of the writes of the RX base, length and head, and their effects: while the
receiver is disabled a write stores the data under its mask and changes nothing else, and the capacity is the stored
length over 16; while it is enabled the write is refused. -/
def Obligations.RxRingWritesNeedADisabledReceiver : Prop :=
  ∀ (s : State) (v : Word),
    decode (.mmio (0x80002800#32 ++ v)) = .ok (.wrRdbal v) ∧ decode (.mmio (0x80002804#32 ++ v)) = .ok (.wrRdbah v) ∧
    decode (.mmio (0x80002808#32 ++ v)) = .ok (.wrRdlen v) ∧ decode (.mmio (0x80002810#32 ++ v)) = .ok (.wrRdh v) ∧
    ringCap .rx { s with rdlen := v &&& 0x000FFF80#32 } = (v &&& 0x000FFF80#32).toNat / 16 ∧
    (s.rctl.getLsbD 1 = false →
      exec (.wrRdbal v) s = .next { s with rdbal := v &&& 0xFFFFFFF0#32 } ∧
      exec (.wrRdbah v) s = .next { s with rdbah := v } ∧
      exec (.wrRdlen v) s = .next { s with rdlen := v &&& 0x000FFF80#32 } ∧
      exec (.wrRdh v) s = .next { s with rdh := v &&& 0x0000FFFF#32 }) ∧
    (s.rctl.getLsbD 1 = true →
      exec (.wrRdbal v) s = .refused (.reprogram .rdbal) ∧
      exec (.wrRdbah v) s = .refused (.reprogram .rdbah) ∧
      exec (.wrRdlen v) s = .refused (.reprogram .rdlen) ∧
      exec (.wrRdh v) s = .refused (.headWriteEn .rdh))

/-- R143, R145, R147, R149: the same of the TX base, length and head. -/
def Obligations.TxRingWritesNeedADisabledTransmitter : Prop :=
  ∀ (s : State) (v : Word),
    decode (.mmio (0x80003800#32 ++ v)) = .ok (.wrTdbal v) ∧ decode (.mmio (0x80003804#32 ++ v)) = .ok (.wrTdbah v) ∧
    decode (.mmio (0x80003808#32 ++ v)) = .ok (.wrTdlen v) ∧ decode (.mmio (0x80003810#32 ++ v)) = .ok (.wrTdh v) ∧
    ringCap .tx { s with tdlen := v &&& 0x000FFF80#32 } = (v &&& 0x000FFF80#32).toNat / 16 ∧
    (s.tctl.getLsbD 1 = false →
      exec (.wrTdbal v) s = .next { s with tdbal := v &&& 0xFFFFFFF0#32 } ∧
      exec (.wrTdbah v) s = .next { s with tdbah := v } ∧
      exec (.wrTdlen v) s = .next { s with tdlen := v &&& 0x000FFF80#32 } ∧
      exec (.wrTdh v) s = .next { s with tdh := v &&& 0x0000FFFF#32 }) ∧
    (s.tctl.getLsbD 1 = true →
      exec (.wrTdbal v) s = .refused (.reprogram .tdbal) ∧
      exec (.wrTdbah v) s = .refused (.reprogram .tdbah) ∧
      exec (.wrTdlen v) s = .refused (.reprogram .tdlen) ∧
      exec (.wrTdh v) s = .refused (.headWriteEn .tdh))

/-- R141 (under the default `TAIL_RETREAT_POLICY`): a write of `RDT` stores bits 15:0 of the data unless the receiver
is enabled and they are at or beyond `N_RX`, which is refused; the device-owned slots are then those from head up to
the new tail, and nothing else changes. The premise on TAIL_RETREAT_POLICY is the default of log entry 11. -/
def Obligations.RxTailWriteHandsSlotsOver : Prop :=
  ∀ (s : State) (v : Word), s.launch.tailPolicy = .interval →
    decode (.mmio (0x80002818#32 ++ v)) = .ok (.wrRdt v) ∧
    (s.rctl.getLsbD 1 = true → ringCap .rx s ≤ (v.extractLsb' 0 16).toNat →
      exec (.wrRdt v) s = .refused (.idxRange .rdt (v.extractLsb' 0 16).toNat)) ∧
    (s.rctl.getLsbD 1 = false ∨ (v.extractLsb' 0 16).toNat < ringCap .rx s →
      exec (.wrRdt v) s = .next { s with rdt := v &&& 0x0000FFFF#32 } ∧
      ∀ i, deviceOwns .rx i { s with rdt := v &&& 0x0000FFFF#32 } = true ↔
        i < ringCap .rx s ∧ ringDist (ringCap .rx s) (ringHead .rx s) i <
          ringDist (ringCap .rx s) (ringHead .rx s) (v.extractLsb' 0 16).toNat)

/-- R151 (under the default `TAIL_RETREAT_POLICY`): the same of `TDT`; and the TX engine is enabled after the write
exactly when `TCTL.EN` is 1, the ring has slots and the new tail differs from the head. The premise on
TAIL_RETREAT_POLICY is the default of log entry 11. -/
def Obligations.TxTailWriteHandsSlotsOver : Prop :=
  ∀ (s : State) (v : Word), s.launch.tailPolicy = .interval →
    decode (.mmio (0x80003818#32 ++ v)) = .ok (.wrTdt v) ∧
    (s.tctl.getLsbD 1 = true → ringCap .tx s ≤ (v.extractLsb' 0 16).toNat →
      exec (.wrTdt v) s = .refused (.idxRange .tdt (v.extractLsb' 0 16).toNat)) ∧
    (s.tctl.getLsbD 1 = false ∨ (v.extractLsb' 0 16).toNat < ringCap .tx s →
      exec (.wrTdt v) s = .next { s with tdt := v &&& 0x0000FFFF#32 } ∧
      (∀ i, deviceOwns .tx i { s with tdt := v &&& 0x0000FFFF#32 } = true ↔
        i < ringCap .tx s ∧ ringDist (ringCap .tx s) (ringHead .tx s) i <
          ringDist (ringCap .tx s) (ringHead .tx s) (v.extractLsb' 0 16).toNat) ∧
      (txEnabled { s with tdt := v &&& 0x0000FFFF#32 } = true ↔
        s.tctl.getLsbD 1 = true ∧ ringCap .tx s ≠ 0 ∧ (v.extractLsb' 0 16).toNat ≠ ringHead .tx s))

/-- 93_implementation_defined.md U9, the alternative `refuse`: a tail write within the ring's range that would shorten
the device-owned interval, or lands on the head with slots still device-owned, is refused with `X_IDX_RANGE`; any
other is stored. That it applies to an enabled and a disabled engine alike is the model's choice, log entry 11. -/
def Obligations.TailRetreatIsRefusedByThePolicy : Prop :=
  ∀ (s : State) (v : Word), s.launch.tailPolicy = .refuse →
    (0 < ringCap .tx s → (v.extractLsb' 0 16).toNat < ringCap .tx s →
      (ringDist (ringCap .tx s) (ringHead .tx s) (v.extractLsb' 0 16).toNat <
          ringDist (ringCap .tx s) (ringHead .tx s) (ringTail .tx s) →
        exec (.wrTdt v) s = .refused (.idxRange .tdt (v.extractLsb' 0 16).toNat)) ∧
      (ringDist (ringCap .tx s) (ringHead .tx s) (ringTail .tx s) ≤
          ringDist (ringCap .tx s) (ringHead .tx s) (v.extractLsb' 0 16).toNat →
        exec (.wrTdt v) s = .next { s with tdt := v &&& 0x0000FFFF#32 })) ∧
    (0 < ringCap .rx s → (v.extractLsb' 0 16).toNat < ringCap .rx s →
      (ringDist (ringCap .rx s) (ringHead .rx s) (v.extractLsb' 0 16).toNat <
          ringDist (ringCap .rx s) (ringHead .rx s) (ringTail .rx s) →
        exec (.wrRdt v) s = .refused (.idxRange .rdt (v.extractLsb' 0 16).toNat)) ∧
      (ringDist (ringCap .rx s) (ringHead .rx s) (ringTail .rx s) ≤
          ringDist (ringCap .rx s) (ringHead .rx s) (v.extractLsb' 0 16).toNat →
        exec (.wrRdt v) s = .next { s with rdt := v &&& 0x0000FFFF#32 }))

/-- R22, and the write and read rules of the registers: no read and no write of a TX side register (`TCTL` and the TX
ring) changes an RX side register, and the reverse; and neither changes the interrupt state, memory or `tx_log`. -/
def Obligations.RingSidesAreIndependent : Prop :=
  ∀ (r : Reg) (v : Word) (s t : State), exec (readOp r) s = .next t ∨ exec (writeOp r v) s = .next t →
    (r ∈ txSideRegs → sameRxRegs s t ∧ t.im = s.im ∧ t.rxdw = s.rxdw ∧ t.mem = s.mem ∧ t.txLog = s.txLog) ∧
    (r ∈ rxSideRegs → sameTxRegs s t ∧ t.im = s.im ∧ t.rxdw = s.rxdw ∧ t.mem = s.mem ∧ t.txLog = s.txLog)

/-! ### Index arithmetic and ownership -/

/-- R8, R13 (b): the laws of circular index arithmetic in a ring of `n` slots. -/
def Obligations.CircularIndexArithmetic : Prop :=
  ∀ n a b : Nat, 2 ≤ n → a < n → b < n →
    ringNext n (n - 1) = 0 ∧ ringDist n a a = 0 ∧ ringDist n a (ringNext n a) = 1 ∧
    (a ≠ b → ringDist n a b + ringDist n b a = n) ∧ (ringNext n)^[n] a = a ∧
    ringDist n a b < n ∧ (ringNext n)^[ringDist n a b] a = b

/-- R37, R38: the number of device-owned slots is the distance from head to tail, so at most one less than the
capacity, and the tail slot is never device-owned. -/
def Obligations.DeviceOwnedSlotsAreCounted : Prop :=
  ∀ (e : Engine) (s : State), 0 < ringCap e s →
    (ownedSlots e s).length = ringDist (ringCap e s) (ringHead e s) (ringTail e s) ∧
    (ownedSlots e s).length ≤ ringCap e s - 1 ∧ deviceOwns e (ringTail e s) s = false

/-- R39: a byte is the device's exactly when it lies in the descriptor or the buffer of a device-owned slot: 16 bytes
at the descriptor, `length` bytes at `addr` for TX, `RX_BUF_SIZE` bytes at `addr` for RX. -/
def Obligations.OwnedBytesAreThoseOfOwnedSlots : Prop :=
  ∀ (s : State) (x : Nat),
    (ownerOf s x).isSome = true ↔
      (∃ i, deviceOwns .tx i s = true ∧
        ((descAddr .tx i s ≤ x ∧ x < descAddr .tx i s + 16) ∨
          (bufAddr .tx i s ≤ x ∧ x < bufAddr .tx i s + leNat (peekBytes s (descAddr .tx i s + 8) 2)))) ∨
      (∃ i, deviceOwns .rx i s = true ∧
        ((descAddr .rx i s ≤ x ∧ x < descAddr .rx i s + 16) ∨
          (bufAddr .rx i s ≤ x ∧ x < bufAddr .rx i s + rxBufSize s)))

/-! ### TX descriptors -/

/-- R172, R176, R177: `TXD.EOP.RS` with a length from 1 to 4096 whose buffer the engine may access and that is
written, and whose descriptor it may access: the buffer's bytes are appended to `tx_log`, the status byte of the
descriptor at the head is written with `DD` set, the head advances by one modulo the capacity, and nothing else
changes: no other byte of memory, no register. A length out of range is refused, a byte outside `DMA_OK` or never
written is a fault. The ring has slots, and the descriptor at the head exists and may be accessed by the engine (what
stops it otherwise is TxFetchStopsInOrder). -/
def Obligations.TxdEopRsSendsAndReports : Prop :=
  ∀ (s : State) (addr : Addr) (len : LenField), 0 < ringCap .tx s →
    (∀ d : BitVec 128, d.extractLsb' 0 64 = addr → d.extractLsb' 64 16 = len → d.extractLsb' 88 8 = 0x09 →
      decode (.txd d) = .ok (.txdEopRs addr len)) ∧
    (1 ≤ len.toNat → len.toNat ≤ 4096 → headAdmitted .tx s → dmaAll s addr.toNat len.toNat →
      ∀ bs : List Byte, bs.length = len.toNat → holds s addr.toNat bs →
      ∃ t, exec (.txdEopRs addr len) s = .next t ∧
        t = { s with mem := t.mem, txLog := s.txLog ++ [bs], draws := t.draws,
                     tdh := BitVec.ofNat 32 ((ringHead .tx s + 1) % ringCap .tx s) } ∧
        memSameOutside (descAddr .tx (ringHead .tx s) s + 12) 1 s t ∧
        ∃ st, Memory.find t.mem (descAddr .tx (ringHead .tx s) s + 12) = some st ∧ st.getLsbD 0 = true) ∧
    (len.toNat = 0 ∨ 4096 < len.toNat → exec (.txdEopRs addr len) s = .refused (.txLen (ringHead .tx s) len)) ∧
    (1 ≤ len.toNat → len.toNat ≤ 4096 → ¬ dmaAll s addr.toNat len.toNat →
      ∃ x, exec (.txdEopRs addr len) s = .fault (.dma x .tx) ∧ dmaAdmits s x = false ∧
        addr.toNat ≤ x ∧ x < addr.toNat + len.toNat) ∧
    (1 ≤ len.toNat → len.toNat ≤ 4096 → dmaAll s addr.toNat len.toNat →
      (∃ k < len.toNat, Memory.find s.mem (addr.toNat + k) = none) →
      ∃ x, exec (.txdEopRs addr len) s = .fault (.uninit x .tx) ∧ Memory.find s.mem x = none ∧
        addr.toNat ≤ x ∧ x < addr.toNat + len.toNat)

/-- R173, R176, R177: `TXD.EOP` is the same with no byte of memory written: the done bit stays as the host left it. -/
def Obligations.TxdEopSendsAndDoesNotReport : Prop :=
  ∀ (s : State) (addr : Addr) (len : LenField), 0 < ringCap .tx s →
    (∀ d : BitVec 128, d.extractLsb' 0 64 = addr → d.extractLsb' 64 16 = len → d.extractLsb' 88 8 = 0x01 →
      decode (.txd d) = .ok (.txdEop addr len)) ∧
    (1 ≤ len.toNat → len.toNat ≤ 4096 → dmaAll s addr.toNat len.toNat →
      ∀ bs : List Byte, bs.length = len.toNat → holds s addr.toNat bs →
      exec (.txdEop addr len) s =
        .next { s with txLog := s.txLog ++ [bs],
                       tdh := BitVec.ofNat 32 ((ringHead .tx s + 1) % ringCap .tx s) }) ∧
    (len.toNat = 0 ∨ 4096 < len.toNat → exec (.txdEop addr len) s = .refused (.txLen (ringHead .tx s) len)) ∧
    (1 ≤ len.toNat → len.toNat ≤ 4096 → ¬ dmaAll s addr.toNat len.toNat →
      ∃ x, exec (.txdEop addr len) s = .fault (.dma x .tx) ∧ dmaAdmits s x = false ∧
        addr.toNat ≤ x ∧ x < addr.toNat + len.toNat) ∧
    (1 ≤ len.toNat → len.toNat ≤ 4096 → dmaAll s addr.toNat len.toNat →
      (∃ k < len.toNat, Memory.find s.mem (addr.toNat + k) = none) →
      ∃ x, exec (.txdEop addr len) s = .fault (.uninit x .tx) ∧ Memory.find s.mem x = none ∧
        addr.toNat ≤ x ∧ x < addr.toNat + len.toNat)

/-- R171, R174, R175, R176: what a TX descriptor decodes to, over every 128-bit word: `cmd` 0x09 and 0x01 are the two
forms with `addr` 63:0 and `length` 79:64; of any other, a length out of range, then `EOP` = 0, then a reserved bit
(`cmd and 0xF6` not 0) is the reason it is refused; no other bit matters. -/
def Obligations.TxDescriptorsDecodeByCommand : Prop :=
  ∀ d : BitVec 128,
    let addr := d.extractLsb' 0 64
    let len := d.extractLsb' 64 16
    let cmd := d.extractLsb' 88 8
    let badLen := len.toNat = 0 ∨ 4096 < len.toNat
    (cmd = 0x09 → decode (.txd d) = .ok (.txdEopRs addr len)) ∧
    (cmd = 0x01 → decode (.txd d) = .ok (.txdEop addr len)) ∧
    (cmd ≠ 0x09 → cmd ≠ 0x01 → badLen → decode (.txd d) = .error (.txLen len)) ∧
    (¬ badLen → cmd.getLsbD 0 = false → decode (.txd d) = .error .txNoEop) ∧
    (¬ badLen → cmd.getLsbD 0 = true → cmd &&& 0xF6 ≠ 0 → decode (.txd d) = .error (.txCmd cmd))

/-- R170, R179, R180: with `TCTL.EN` = 0, or head equal to tail, the TX engine has no step: nothing is sent, written
or polled, and everything keeps its value. That such a step is answered with the state unchanged is the model's choice,
log entry 4. -/
def Obligations.TxEngineStopsAtTheTail : Prop :=
  ∀ s : State, s.tctl.getLsbD 1 = false ∨ ringHead .tx s = ringTail .tx s → txStep s = .next s

/-- R181 (what is written), R24, R177: a step of the TX engine changes no register but the head, no byte of memory but
the status byte of the descriptor at the head, and appends at most one frame. -/
def Obligations.TxStepWritesOnlyItsStatusByte : Prop :=
  ∀ s t : State, txStep s = .next t →
    t = { s with mem := t.mem, txLog := t.txLog, tdh := t.tdh, draws := t.draws } ∧
    memSameOutside (descAddr .tx (ringHead .tx s) s + 12) 1 s t ∧
    (txEnabled s = true → ∃ f, t.txLog = s.txLog ++ [f] ∧
      t.tdh = BitVec.ofNat 32 ((ringHead .tx s + 1) % ringCap .tx s))

/-- R37: the TX engine's step on a slot makes that slot software-owned again and changes the owner of no other slot.
-/
def Obligations.TxStepReturnsItsSlot : Prop :=
  ∀ s t : State, txEnabled s = true → ringHead .tx s < ringCap .tx s → ringTail .tx s < ringCap .tx s →
    txStep s = .next t →
    deviceOwns .tx (ringHead .tx s) s = true ∧ deviceOwns .tx (ringHead .tx s) t = false ∧
    ∀ i, i ≠ ringHead .tx s → deviceOwns .tx i t = deviceOwns .tx i s

/-- R258, R179 (under the default `TAIL_RETREAT_POLICY`): a tail write that lands on the head leaves no TX slot
device-owned and the TX engine without a step, with no fault and no refusal. The premise on TAIL_RETREAT_POLICY is the
default of log entry 11. That a step of an engine without one is answered with the state unchanged is the model's
choice, log entry 4. -/
def Obligations.TailOntoHeadStallsTheEngine : Prop :=
  ∀ (s : State) (v : Word), s.launch.tailPolicy = .interval → ringHead .tx s < ringCap .tx s →
    (v.extractLsb' 0 16).toNat = ringHead .tx s →
    ∃ t, exec (.wrTdt v) s = .next t ∧ (∀ i, deviceOwns .tx i t = false) ∧ txEnabled t = false ∧ txStep t = .next t

/-- R171, R79, R65, in the order of R231: what stops the TX engine's fetch: a descriptor address of 2^64 or more, one of
the 16 descriptor bytes outside `DMA_OK`, one of them never written. -/
def Obligations.TxFetchStopsInOrder : Prop :=
  ∀ s : State, txEnabled s = true →
    (0x10000000000000000 ≤ descAddr .tx (ringHead .tx s) s → txStep s = .refused (.ringWrap .tx)) ∧
    (descAddr .tx (ringHead .tx s) s < 0x10000000000000000 →
      ¬ dmaAll s (descAddr .tx (ringHead .tx s) s) 16 →
      ∃ x, txStep s = .fault (.dma x .tx) ∧ dmaAdmits s x = false ∧
        descAddr .tx (ringHead .tx s) s ≤ x ∧ x < descAddr .tx (ringHead .tx s) s + 16) ∧
    (headAdmitted .tx s → (∃ k < 16, Memory.find s.mem (descAddr .tx (ringHead .tx s) s + k) = none) →
      ∃ x, txStep s = .fault (.uninit x .tx) ∧ Memory.find s.mem x = none ∧
        descAddr .tx (ringHead .tx s) s ≤ x ∧ x < descAddr .tx (ringHead .tx s) s + 16)

/-- R181 (what is read): two states that agree on the TX registers, on memory, on the launch's parameters (`DMA_OK`
among them) and on the next free value take the same TX step, whatever the other registers hold, and agree on all of
these again after it. -/
def Obligations.TxStepReadsOnlyTheTxSide : Prop :=
  ∀ s u : State, sameTxRegs s u → u.mem = s.mem → u.launch = s.launch → u.draws = s.draws →
    (∀ t, txStep s = .next t → ∃ t', txStep u = .next t' ∧ sameTxRegs t t' ∧ t'.mem = t.mem ∧
      t'.launch = t.launch ∧ t'.draws = t.draws ∧
      ∃ fs, t.txLog = s.txLog ++ fs ∧ t'.txLog = u.txLog ++ fs) ∧
    (∀ f, txStep s = .fault f → txStep u = .fault f) ∧
    (∀ r, txStep s = .refused r → txStep u = .refused r)

/-! ### The RX engine -/

/-- R191, R195, R196, R197: `RXD` with a frame on offer that fits, its descriptor and `RX_BUF_SIZE` bytes at `addr`
admitted: the frame's bytes stand at `addr` (where the buffer does not overlap the written part of the descriptor),
the descriptor holds the length, `errors` = 0 and a status with `DD` and `EOP` set, the rest of the buffer and of the
descriptor's second half is written with any value, every other byte of memory is as before, the head advances by one
modulo the capacity, the cause is set, and nothing else changes. -/
def Obligations.RxdStoresAndReports : Prop :=
  ∀ (s : State) (addr : Addr) (o : Offer), 0 < ringCap .rx s → s.offer = some o →
    (receivedBytes o s).length ≤ rxBufSize s → headAdmitted .rx s → dmaAll s addr.toNat (rxBufSize s) →
    ∃ t, exec (.rxd addr) s = .next t ∧
      t = { s with mem := t.mem, draws := t.draws, offer := none, rxdw := true,
                   rdh := BitVec.ofNat 32 ((ringHead .rx s + 1) % ringCap .rx s) } ∧
      (∀ x, x < addr.toNat ∨ addr.toNat + rxBufSize s ≤ x →
        x < descAddr .rx (ringHead .rx s) s + 8 ∨ descAddr .rx (ringHead .rx s) s + 16 ≤ x →
        Memory.find t.mem x = Memory.find s.mem x) ∧
      (apart addr.toNat (rxBufSize s) (descAddr .rx (ringHead .rx s) s + 8) 8 →
        holds t addr.toNat (receivedBytes o s)) ∧
      (∀ k < rxBufSize s, Memory.find t.mem (addr.toNat + k) ≠ none) ∧
      holds t (descAddr .rx (ringHead .rx s) s + 8)
        [BitVec.ofNat 8 (receivedBytes o s).length, BitVec.ofNat 8 ((receivedBytes o s).length / 256)] ∧
      (∃ st, Memory.find t.mem (descAddr .rx (ringHead .rx s) s + 12) = some st ∧
        st.getLsbD 0 = true ∧ st.getLsbD 1 = true) ∧
      Memory.find t.mem (descAddr .rx (ringHead .rx s) s + 13) = some 0 ∧
      (∀ k < 8, Memory.find t.mem (descAddr .rx (ringHead .rx s) s + 8 + k) ≠ none)

/-- R191 (raises), R79, R65, in the order of R231: what stops the RX engine's step on a frame that fits: a descriptor
address of 2^64 or more, one of the 16 descriptor bytes outside `DMA_OK`, one of the 8 bytes of its address field never
written, and one of the buffer's `RX_BUF_SIZE` bytes outside `DMA_OK`. That the address field is read before the buffer
is checked is deduced, log entry 19. -/
def Obligations.RxStepStopsInOrder : Prop :=
  ∀ (s : State) (o : Offer), s.rctl.getLsbD 1 = true → (receivedBytes o s).length ≤ rxBufSize s →
    ringHead .rx s ≠ ringTail .rx s → ringCap .rx s ≠ 0 →
    (0x10000000000000000 ≤ descAddr .rx (ringHead .rx s) s → rxStep o s = .refused (.ringWrap .rx)) ∧
    (descAddr .rx (ringHead .rx s) s < 0x10000000000000000 →
      ¬ dmaAll s (descAddr .rx (ringHead .rx s) s) 16 →
      ∃ x, rxStep o s = .fault (.dma x .rx) ∧ dmaAdmits s x = false ∧
        descAddr .rx (ringHead .rx s) s ≤ x ∧ x < descAddr .rx (ringHead .rx s) s + 16) ∧
    (headAdmitted .rx s → (∃ k < 8, Memory.find s.mem (descAddr .rx (ringHead .rx s) s + k) = none) →
      ∃ x, rxStep o s = .fault (.uninit x .rx) ∧ Memory.find s.mem x = none ∧
        descAddr .rx (ringHead .rx s) s ≤ x ∧ x < descAddr .rx (ringHead .rx s) s + 8) ∧
    (headAdmitted .rx s → (∀ k < 8, Memory.find s.mem (descAddr .rx (ringHead .rx s) s + k) ≠ none) →
      ¬ dmaAll s (bufAddr .rx (ringHead .rx s) s) (rxBufSize s) →
      ∃ x, rxStep o s = .fault (.dma x .rx) ∧ dmaAdmits s x = false ∧
        bufAddr .rx (ringHead .rx s) s ≤ x ∧ x < bufAddr .rx (ringHead .rx s) s + rxBufSize s)

/-- R190, R192, R193, R194: a frame offered to a disabled receiver is dropped, whatever its length; one too long for
the buffer is refused even with no descriptor free; one that fits is dropped when head equals tail; a dropped frame
changes nothing. That the refusal records the number of bytes that would be stored is the model's choice, log entry 33.
-/
def Obligations.RxDropsAndRefusesInOrder : Prop :=
  ∀ (s : State) (o : Offer),
    (s.rctl.getLsbD 1 = false → rxStep o s = .next s) ∧
    (s.rctl.getLsbD 1 = true → rxBufSize s < (receivedBytes o s).length →
      rxStep o s = .refused (.rxLong (receivedBytes o s).length)) ∧
    (s.rctl.getLsbD 1 = true → (receivedBytes o s).length ≤ rxBufSize s → ringHead .rx s = ringTail .rx s →
      rxStep o s = .next s)

/-- R200 (what is written), R24: a step of the RX engine changes no register but the head and the cause, and no byte
of memory outside the buffer its descriptor names and the second half of that descriptor. -/
def Obligations.RxStepWritesOnlyItsBufferAndDescriptor : Prop :=
  ∀ (s t : State) (o : Offer), s.offer = none → rxStep o s = .next t →
    t = { s with mem := t.mem, rdh := t.rdh, rxdw := t.rxdw, draws := t.draws } ∧
    ∀ x, x < bufAddr .rx (ringHead .rx s) s ∨ bufAddr .rx (ringHead .rx s) s + rxBufSize s ≤ x →
      x < descAddr .rx (ringHead .rx s) s + 8 ∨ descAddr .rx (ringHead .rx s) s + 16 ≤ x →
      Memory.find t.mem x = Memory.find s.mem x

/-- R200 (what is read): two states that agree on the RX registers, on memory, on the launch's parameters (`DMA_OK`
among them) and on the next free value take the same RX step on an offered frame, whatever the other registers hold, and
agree on all of these again after it. -/
def Obligations.RxStepReadsOnlyTheRxSide : Prop :=
  ∀ (s u : State) (o : Offer), sameRxRegs s u → u.mem = s.mem → u.launch = s.launch → u.draws = s.draws →
    (∀ t, rxStep o s = .next t → ∃ t', rxStep o u = .next t' ∧ sameRxRegs t t' ∧ t'.mem = t.mem ∧
      t'.launch = t.launch ∧ t'.draws = t.draws ∧
      (t.rxdw = s.rxdw ∧ t'.rxdw = u.rxdw ∨ t.rxdw = true ∧ t'.rxdw = true)) ∧
    (∀ f, rxStep o s = .fault f → rxStep o u = .fault f) ∧
    (∀ r, rxStep o s = .refused r → rxStep o u = .refused r)

/-! ### The host's accesses to memory -/

/-- R154: a host store outside the register window faults if any byte it would write is device-owned, and else writes
its bytes, least significant first, and nothing else. -/
def Obligations.HostStoreWritesOrFaults : Prop :=
  ∀ (s : State) (w : Width) (a : Addr) (v : BitVec 64),
    a.toNat + w.bytes ≤ s.launch.regBase.toNat ∨ s.launch.regBase.toNat + 0x20000 ≤ a.toNat →
    a.toNat + w.bytes ≤ 0x10000000000000000 →
    ((∀ k < w.bytes, ownerOf s (a.toNat + k) = none) →
      ∃ t, hostStore w a v s = .next t ∧ t = { s with mem := t.mem } ∧ memSameOutside a.toNat w.bytes s t ∧
        ∀ k < w.bytes, Memory.find t.mem (a.toNat + k) = some (v.extractLsb' (8 * k) 8)) ∧
    ((∃ k < w.bytes, ownerOf s (a.toNat + k) ≠ none) →
      ∃ x o, hostStore w a v s = .fault (.ownWrite x o) ∧ ownerOf s x = some o ∧ a.toNat ≤ x ∧ x < a.toNat + w.bytes)

/-- R153, R155: a host load outside the register window completes, returns every written byte that is not device-owned
or is a descriptor's status byte as memory holds it, least significant first, and changes nothing else (the free-value
counter apart). That the upper bytes of a narrow result are 0 is log entry 12. -/
def Obligations.HostLoadReturnsWhatItMaySee : Prop :=
  ∀ (s : State) (w : Width) (a : Addr),
    a.toNat + w.bytes ≤ s.launch.regBase.toNat ∨ s.launch.regBase.toNat + 0x20000 ≤ a.toNat →
    a.toNat + w.bytes ≤ 0x10000000000000000 →
    ∃ (r : BitVec 64) (d : Nat), hostLoad w a s = .next { s with hostRead := r, draws := d } ∧
      (∀ k, w.bytes ≤ k → k < 8 → r.extractLsb' (8 * k) 8 = 0) ∧
      ∀ k < w.bytes, ∀ b : Byte, Memory.find s.mem (a.toNat + k) = some b →
        (ownerOf s (a.toNat + k) = none ∨
          ∃ e i, i < ringCap e s ∧ a.toNat + k = descAddr e i s + 12) →
        r.extractLsb' (8 * k) 8 = b

/-- R155: the done-bit poll of a slot of the ring returns bit 0 of its status byte as memory holds it, whoever owns
the slot, and changes nothing else. The status byte is one that has been written; what an unwritten one reads as is
log entry 8. -/
def Obligations.PollReturnsTheDoneBit : Prop :=
  ∀ (s : State) (e : Engine) (i : Nat) (b : Byte), i < ringCap e s → descAddr e i s < 0x10000000000000000 →
    Memory.find s.mem (descAddr e i s + 12) = some b →
    hostPoll e i s = .next { s with hostRead := if b.getLsbD 0 then 1 else 0 }

/-- R163: a 32-bit access at a multiple of 4 that is no register's offset is refused with `X_UNKNOWN_REG`, whether the
host makes it as a word, as a load or as a store. -/
def Obligations.UnlistedOffsetsAreRefused : Prop :=
  ∀ (s : State) (write : Bool) (off : Nat) (v : Word), off % 4 = 0 → (∀ r : Reg, r.off ≠ off) →
    runDecoded 0 (decodeAccess write 32 off v) s = .refused (.unknownReg off) ∧
    (∀ x : BitVec 64, x.extractLsb' 52 11 = 0 → (x.getLsbD 63 = true ∨ x.extractLsb' 0 32 = 0) →
      (x.extractLsb' 32 20).toNat = off → hostOp (.mmio x) s = .refused (.unknownReg off)) ∧
    (∀ (a : Addr) (d : BitVec 64), a.toNat = s.launch.regBase.toNat + off → off < 0x20000 →
      hostOp (.load .w32 a) s = .refused (.unknownReg off) ∧ hostOp (.store .w32 a d) s = .refused (.unknownReg off))

/-- R120, R62, R70: a 32-bit host load or store at `REG_BASE` plus a register's offset is that register's read or
write, with the low 32 bits of the value as its data. -/
def Obligations.WindowAccessesAreRegisterAccesses : Prop :=
  ∀ (s : State) (r : Reg) (a : Addr) (v : BitVec 64), a.toNat = s.launch.regBase.toNat + r.off →
    hostOp (.load .w32 a) s = exec (readOp r) s ∧ hostOp (.store .w32 a v) s = exec (writeOp r (v.setWidth 32)) s

/-- R62: a host load or store in the register window that is not 32 bits wide, or not at a multiple of 4 from its
base, is refused with `X_REGWIDTH`, whatever offset it names. -/
def Obligations.NarrowOrMisalignedAccessesAreRefused : Prop :=
  ∀ (s : State) (w : Width) (a : Addr) (v : BitVec 64),
    s.launch.regBase.toNat ≤ a.toNat → a.toNat < s.launch.regBase.toNat + 0x20000 →
    (w ≠ .w32 ∨ (a.toNat - s.launch.regBase.toNat) % 4 ≠ 0) →
    hostLoad w a s = .refused (.regWidth (Int.ofNat (a.toNat - s.launch.regBase.toNat)) (8 * w.bytes)) ∧
    hostStore w a v s = .refused (.regWidth (Int.ofNat (a.toNat - s.launch.regBase.toNat)) (8 * w.bytes))

/-! ### A step runs the decoded instruction -/

/-- R120, R72: when the next turn is the host's register access with word `T`, and `T` decodes to `i`, the step is `i`
executed in the state that has moved past the turn. -/
def Obligations.StepRunsTheHostsWord : Prop :=
  ∀ (s : State) (x : BitVec 64) (ts : List Turn) (i : Instr), s.turns = .host (.mmio x) :: ts →
    decode (.mmio x) = .ok i → step s = exec i { s with turns := ts, draws := s.draws + 1, rota := s.rota + 1 }

/-- R170, R171: when the next turn is the TX engine's and it has a step, the step is what the 16 bytes of the
descriptor at the head decode to, executed in the state that has moved past the turn; and where they decode to
nothing, the refusal. -/
def Obligations.StepRunsTheTxDescriptor : Prop :=
  ∀ (s : State) (ts : List Turn) (bs : List Byte), s.turns = .txEngine :: ts →
    s.tctl.getLsbD 1 = true → ringHead .tx s ≠ ringTail .tx s → ringCap .tx s ≠ 0 → headAdmitted .tx s →
    bs.length = 16 → holds s (descAddr .tx (ringHead .tx s) s) bs →
    (∀ i, decode (.txd (BitVec.ofNat 128 (leNat bs))) = .ok i →
      step s = exec i { s with turns := ts, draws := s.draws + 1, rota := s.rota + 1 }) ∧
    (∀ x, decode (.txd (BitVec.ofNat 128 (leNat bs))) = .error x →
      step s = .refused (refusalOf (ringHead .tx s) x))

/-- R190, R191: when the next turn is an offered frame that fits, the receiver is enabled and has a descriptor, the
step is `RXD` with the address that the first 8 bytes of the descriptor at the head hold, executed with the frame on
offer in the state that has moved past the turn. -/
def Obligations.StepRunsTheRxDescriptor : Prop :=
  ∀ (s : State) (ts : List Turn) (o : Offer) (bs : List Byte), s.turns = .offer o :: ts →
    s.rctl.getLsbD 1 = true → (receivedBytes o s).length ≤ rxBufSize s → ringHead .rx s ≠ ringTail .rx s →
    ringCap .rx s ≠ 0 → headAdmitted .rx s → bs.length = 8 → holds s (descAddr .rx (ringHead .rx s) s) bs →
    step s = exec (.rxd (BitVec.ofNat 64 (leNat bs)))
      { s with turns := ts, draws := s.draws + 1, rota := s.rota + 1, offer := some o }

/-! ### Encodings -/

/-- R91, R94, R100, R102: decoding the encoding of any operation, with every operand at every value, gives it back. -/
def Obligations.DecodeOfEncodeIsTheInstruction : Prop :=
  ∀ i : Instr, decode (encode i) = .ok i

/-- R100, R102: a register word has one meaning: a word that decodes to an operation is that operation's encoding, so
no two words are one operation and no bit of a word is ignored. -/
def Obligations.RegisterWordsHaveOneMeaning : Prop :=
  ∀ (x : BitVec 64) (i : Instr), decode (.mmio x) = .ok i → encode i = .mmio x

/-- 95_test_vectors.md sections 2.1 and 2.5: words of the spec decode to the operations it names, and its two words
that are not words are rejected. -/
def Obligations.SampleWordsDecode : Prop :=
  decode (.mmio 0x800000005A5A5A5A) = .ok (.wrCtrl 0x5A5A5A5A) ∧
  decode (.mmio 0x000000C000000000) = .ok .rdIcr ∧
  decode (.mmio 0x8000010004000002) = .ok (.wrRctl 0x04000002) ∧
  decode (.mmio 0x800028180000000F) = .ok (.wrRdt 15) ∧
  decode (.mmio 0x0000381800000000) = .ok .rdTdt ∧
  decode (.mmio 0x800053FC5A5A5A5A) = .ok (.wrMta ⟨127, by decide⟩ 0x5A5A5A5A) ∧
  decode (.mmio 0x0000540400000000) = .ok .rdRah0 ∧
  decode (.txd 0x00000001090000080000000000040000) = .ok (.txdEopRs 0x40000 8) ∧
  decode (.rxd 0x00000000000000000000000000020000) = .ok (.rxd 0x20000) ∧
  decode (.mmio 0x8010381800000001) = .error (.notAWord 0x8010381800000001) ∧
  decode (.mmio 0x0000381800000001) = .error (.notAWord 0x0000381800000001)

/-! ### Whole-machine rules -/

/-- R21, R22, R26 (reserved bits read as 0), R170 (an enabled engine's indices are in range), R34 (memory), R5 (`REG_BASE`
is a multiple of 4): every step of every agent, from any state in which the invariant holds, ends in one in which it
holds. -/
def Obligations.EveryStepKeepsTheInvariant : Prop :=
  ∀ s t : State, Inv s → step s = .next t → Inv t

/-- The invariant holds at launch. It rests on the values of log entry 6 where the spec gives none. -/
def Obligations.LaunchHasTheInvariant : Prop := Inv State.reset

/-- R36: `tx_log` is append-only: whatever agent steps, what has been sent stays, and at most one frame is added. -/
def Obligations.TxLogOnlyGrows : Prop :=
  ∀ s t : State, step s = .next t → t.txLog = s.txLog ∨ ∃ f, t.txLog = s.txLog ++ [f]

/-- R20, R79, R252, R42, R5: no step changes the launch's parameters or the model's marks: a step that ends in a next state
records nothing. -/
def Obligations.StepsLeaveLaunchAndMarks : Prop :=
  ∀ s t : State, step s = .next t → t.launch = s.launch ∧ t.faulted = s.faulted ∧ t.refused = s.refused

/-- R231, R42: a step that ends in a fault or a refusal leaves the rest of the state as it was and records its code;
the sets of marks only grow, whatever the step; and a run with no mark at its end had none before its last step. That
a stopped turn is spent and the run goes on is log entry 20. -/
def Obligations.StopsAreRecordedAndChangeNothingElse : Prop :=
  ∀ s : State,
    (∀ f, step s = .fault f → f ∈ (advance s).faulted ∧ advance s = { s with
      turns := s.turns.tail, draws := s.draws + 1, rota := s.rota + 1, faulted := (advance s).faulted }) ∧
    (∀ r, step s = .refused r → r ∈ (advance s).refused ∧ advance s = { s with
      turns := s.turns.tail, draws := s.draws + 1, rota := s.rota + 1, refused := (advance s).refused }) ∧
    (∀ f ∈ s.faulted, f ∈ (advance s).faulted) ∧ (∀ r ∈ s.refused, r ∈ (advance s).refused) ∧
    (Unmarked (advance s) → Unmarked s)

/-- R256, R154: no host operation changes a byte that is device-owned: only an engine's step writes there. -/
def Obligations.HostNeverWritesDeviceOwnedBytes : Prop :=
  ∀ (s t : State) (op : HostOp) (x : Nat), hostOp op s = .next t → ownerOf s x ≠ none →
    Memory.find t.mem x = Memory.find s.mem x

/-- R279, R236, R216: with nothing scheduled the agents that go on of themselves take turns, six in a round. In its
turn the TX engine takes its step if it has one; a thread of the driver takes one line, its next, if it has one left;
the handler begins its sequence if `INT` is high, no line of `INIT` is left, no drain runs and the driver has not halted,
whoever initialised the block; and the dispatcher frees the page it has owned longest, which goes back to the allocator,
if it owns one. Every step of a run, also one that stops, moves the round on by one and schedules nothing, so an agent
that stays enabled waits for one round at most. The model's choices here, each a log entry marked DESIGN CHOICE: that
the agents are asked in a round, entry 3; that a thread takes one line per turn, and that the handler waits for `INIT`
and for another drain, entry 26; when the dispatcher frees a page, which one, and where in the allocator's list it goes,
entry 27; that a halted driver takes no further step, entry 28. -/
def Obligations.UnscheduledAgentsTakeTurns : Prop :=
  ∀ s : State,
    (s.turns = [] → (s.rota + 1) % 6 = 0 → txEnabled s = true → step s = txStep s.nextTurn) ∧
    (∀ th k, (th, k) ∈ [(Thread.init, 1), (Thread.tx, 2), (Thread.rx, 3)] → s.turns = [] → (s.rota + 1) % 6 = k →
      threadOps th s.driver ≠ [] → step s = driverStep th s.nextTurn) ∧
    (s.turns = [] → (s.rota + 1) % 6 = 4 → s.driver.initOps = [] → s.driver.rxOps = [] → s.driver.halted = false →
      intLine s.nextTurn = true →
      step s = .next { s.nextTurn with driver := { s.driver with rxOps := intrSequence } }) ∧
    (∀ a rest, s.driver.dispatching = a :: rest → s.turns = [] → (s.rota + 1) % 6 = 5 →
      step s = .next { s.nextTurn with
        driver := { s.driver with pages := s.driver.pages ++ [a], dispatching := rest } }) ∧
    (advance s).rota = s.rota + 1 ∧ (s.turns = [] → (advance s).turns = [])

/-! ### The driver's sequences -/

/-- R65, R13 (c), R211: a line of `INIT` that stores into a ring, `k` bytes from its base, never wraps. It is refused
with `X_RINGWRAP` when the slot that its byte falls in lies at 2^64 or beyond; and it stores at the exact sum when that
is an address of the space, outside the register window, of a byte that nobody else owns. The first clause is DEDUCED,
log entry 15: R65 gives `X_RINGWRAP` for the slot addresses that are formed from `TDBA` and `RDBA`, R13 (c) asks only
for a refusal or a fault where a sum reaches 2^64, and neither speaks of a store of `INIT` by its slot. -/
def Obligations.InitStoresNeverWrap : Prop :=
  ∀ (s : State) (e : Engine) (k : Nat) (v : Byte) (base : Nat), (driverRing e s.driver).toNat = base →
    (0x10000000000000000 ≤ base + k / 16 * 16 → driverOp (.initStore e k v) s = .refused (.ringWrap e)) ∧
    (base + k < 0x10000000000000000 →
      base + k < s.launch.regBase.toNat ∨ s.launch.regBase.toNat + 0x20000 ≤ base + k →
      ownerOf s (base + k) = none →
      ∃ t, driverOp (.initStore e k v) s = .next t ∧ t = { s with mem := t.mem } ∧ memSameOutside (base + k) 1 s t ∧
        Memory.find t.mem (base + k) = some v)

/-- R214: `TRANSMIT_ONE` at its poll, the done bit of the slot at the tail clear: it returns `FULL`; no register and
no byte of memory is written, and nothing is freed. That the driver takes one line per step is log entry 26, and the
result register is log entry 12. The call's arguments are not looked at: of a call outside the precondition of R213,
`1 <= len <= PAGE` and a buffer of the caller's own, the spec says nothing, and that it too begins and returns `FULL`
is the model's choice, log entry 36. -/
def Obligations.TransmitOneFailsWithoutAnyWrite : Prop :=
  ∀ (s : State) (ops : List DriverOp) (b : Byte), s.driver.txOps = .txPoll :: ops →
    s.driver.txSlot < ringCap .tx s → descAddr .tx s.driver.txSlot s < 0x10000000000000000 →
    Memory.find s.mem (descAddr .tx s.driver.txSlot s + 12) = some b → b.getLsbD 0 = false →
    driverStep .tx s = .next { s with
      hostRead := 0, driver := { s.driver with txOps := [], returned := s.driver.returned ++ [.full] } }

/-- R211, R254: the thirteen register writes that end `INIT`, in the reference configuration, on a block whose engines
are disabled: all are accepted, and leave the rings programmed, all RX slots but the last device-owned, no TX slot,
both engines enabled. The premise on TAIL_RETREAT_POLICY is the default of log entry 11. -/
def Obligations.InitProgramsTheBlock : Prop :=
  ∀ (s : State) (d : Driver), s.launch.tailPolicy = .interval → s.tctl.getLsbD 1 = false → s.rctl.getLsbD 1 = false →
    s.im = 0 → d.capacity = 16 → d.txRing.extractLsb' 0 4 = 0 → d.rxRing.extractLsb' 0 4 = 0 →
    ∃ t, runLines (initRegisters d) s = .next t ∧
      ringBase .tx t = d.txRing.toNat ∧ ringBase .rx t = d.rxRing.toNat ∧ ringCap .tx t = 16 ∧ ringCap .rx t = 16 ∧
      t.tdh = 0 ∧ t.tdt = 0 ∧ t.rdh = 0 ∧ t.rdt = 15 ∧ t.tctl = 2 ∧ t.rctl = 0x04000002 ∧ t.im = 0x80 ∧
      (∀ i, deviceOwns .tx i t = false) ∧ (∀ i, deviceOwns .rx i t = true ↔ i < 15) ∧
      t.mem = s.mem ∧ t.txLog = s.txLog ∧ t.rxdw = s.rxdw ∧ rxBufSize t = 2048
end

