-- ==== Sys2Proof/Laws/Config.lean ====
section
/-! SUPPORT. The configuration: that it meets its constraints, and the numbers that the model's names for sizes, masks
and fields stand for, as the spec writes them. -/

namespace Sys2Proof.Laws

open Sys2Proof.Machine

/-- The configuration meets the constraints of 00_scope.md rule R5. -/
theorem config_ok : config.ok = true := by decide +kernel

/-- Every field has room in its word. -/
theorem config_fits : config.fits = true := by decide +kernel

@[simp] theorem config_ringAlign : config.ringAlign = 128 := rfl
@[simp] theorem config_windowSize : config.windowSize = 0x20000 := rfl
@[simp] theorem config_idxBit : config.idxBit = 0 := rfl
@[simp] theorem config_offMta : config.offMta = 0x5200 := rfl
@[simp] theorem config_maxTxLen : config.maxTxLen = 4096 := rfl

/-- The four that widths of types are written with are no rewrite rules. -/
theorem config_descSize : config.descSize = 16 := rfl
theorem config_idxWidth : config.idxWidth = 16 := rfl
theorem config_lenFieldWidth : config.lenFieldWidth = 16 := rfl
theorem config_mtaEntries : config.mtaEntries = 128 := rfl

theorem spaceSize_eq : spaceSize = 0x10000000000000000 := rfl

/-! ### Masks -/

theorem maskRst_eq : maskRst = 0x04000000 := by decide
theorem maskTxEn_eq : maskTxEn = 0x00000002 := by decide
theorem maskRxEn_eq : maskRxEn = 0x00000002 := by decide
theorem maskBsize_eq : maskBsize = 0x00030000 := by decide
theorem maskSecrc_eq : maskSecrc = 0x04000000 := by decide
theorem maskBaseLo_eq : maskBaseLo = 0xFFFFFFF0 := by decide
theorem maskLen128_eq : maskLen128 = 0x000FFF80 := by decide
theorem maskIdx_eq : maskIdx = 0x0000FFFF := by decide
theorem maskRxdw_eq : maskRxdw = 0x00000080 := by decide
theorem maskDd_eq : maskDd = 0x01 := by decide
theorem maskDdEop_eq : maskDdEop = 0x03 := by decide
theorem cmdEopRs_eq : cmdEopRs = 0x09 := by decide
theorem cmdEop_eq : cmdEop = 0x01 := by decide

/-! ### Fields -/

theorem enBit_eq (e : Engine) (v : Word) : enBit e v = v.getLsbD 1 := by cases e <;> rfl
theorem bsizeOf_eq (v : Word) : bsizeOf v = v.extractLsb' 16 2 := rfl
theorem secrcOf_eq (v : Word) : secrcOf v = v.getLsbD 26 := rfl
theorem rxdwOf_eq (v : Word) : rxdwOf v = v.getLsbD 7 := rfl
theorem idxOf_eq (v : Word) : idxOf v = (v.extractLsb' 0 16).toNat := rfl
theorem slotsOf_eq (v : Word) : slotsOf v = (v.extractLsb' 7 13).toNat * 8 := rfl

end Sys2Proof.Laws
end

