-- ==== Sys2Proof/Laws/Memory.lean ====
section
/-! SUPPORT. Memory: what a write leaves, read byte by byte, and that every write keeps the canonical form. -/

namespace Sys2Proof.Laws

open Sys2Proof.Machine

theorem find_append (l m : List Host.Cell) (x : Nat) :
    Memory.find (l ++ m) x = (Memory.find l x).or (Memory.find m x) := by
  induction l with
  | nil => simp [Memory.find]
  | cons c l ih => simp only [List.cons_append, Memory.find]; split <;> simp [ih]

theorem find_filter (p : Nat → Bool) (m : List Host.Cell) (x : Nat) :
    Memory.find (m.filter fun c => p c.1) x = if p x then Memory.find m x else none := by
  induction m with
  | nil => simp [Memory.find]
  | cons c m ih =>
    by_cases hc : p c.1 <;> by_cases hx : c.1 = x <;> simp_all [Memory.find]

theorem find_cells (a : Nat) (bs : List Byte) (x : Nat) :
    Memory.find (Memory.cells a bs) x = if a ≤ x then bs[x - a]? else none := by
  induction bs generalizing a with
  | nil => simp [Memory.cells, Memory.find]
  | cons b bs ih =>
    simp only [Memory.cells, Memory.find, ih]
    rcases Nat.lt_trichotomy a x with h | rfl | h
    · rw [if_neg (by omega), if_pos (by omega), if_pos (by omega), show x - a = x - (a + 1) + 1 by omega,
        List.getElem?_cons_succ]
    · simp
    · rw [if_neg (by omega), if_neg (by omega), if_neg (by omega)]

/-- A read of one byte after a write: the written byte inside the written range, the old one outside it. -/
theorem find_write (m : List Host.Cell) (a : Nat) (bs : List Byte) (x : Nat) :
    Memory.find (Memory.write m a bs) x =
      if a ≤ x ∧ x < a + bs.length then bs[x - a]? else Memory.find m x := by
  unfold Memory.write
  rw [find_append, find_append, find_cells, find_filter (fun y => decide (y < a)),
    find_filter (fun y => decide (a + bs.length ≤ y))]
  by_cases h1 : x < a
  · simp [h1, show ¬ a ≤ x by omega, show ¬ a + bs.length ≤ x by omega]
  · by_cases h2 : x < a + bs.length
    · have : x - a < bs.length := by omega
      simp [h1, h2, show a ≤ x by omega, this]
    · simp [h1, h2, show a ≤ x by omega, show a + bs.length ≤ x by omega,
        show bs.length ≤ x - a by omega]

theorem find_write_outside (m : List Host.Cell) (a : Nat) (bs : List Byte) (x : Nat)
    (h : x < a ∨ a + bs.length ≤ x) : Memory.find (Memory.write m a bs) x = Memory.find m x := by
  rw [find_write, if_neg (by omega)]

theorem find_write_inside (m : List Host.Cell) (a : Nat) (bs : List Byte) (k : Nat) (h : k < bs.length) :
    Memory.find (Memory.write m a bs) (a + k) = some bs[k] := by
  rw [find_write, if_pos (by omega)]
  simp [h]

theorem cells_keys (a : Nat) (bs : List Byte) :
    (Memory.cells a bs).map (·.1) = List.range' a bs.length := by
  induction bs generalizing a with
  | nil => rfl
  | cons b bs ih => simp [Memory.cells, ih, List.range'_succ]

theorem mem_cells {a : Nat} {bs : List Byte} {c : Host.Cell} (h : c ∈ Memory.cells a bs) :
    a ≤ c.1 ∧ c.1 < a + bs.length := by
  have : c.1 ∈ (Memory.cells a bs).map (·.1) := List.mem_map_of_mem h
  rw [cells_keys, List.mem_range'_1] at this
  exact this

/-- Every write keeps the canonical form. -/
theorem wf_write {m : List Host.Cell} (h : Memory.wf m) (a : Nat) (bs : List Byte) :
    Memory.wf (Memory.write m a bs) := by
  have h' : m.Pairwise fun c d => c.1 < d.1 := List.pairwise_map.1 h
  refine List.pairwise_map.2 ?_
  unfold Memory.write
  rw [List.pairwise_append, List.pairwise_append]
  refine ⟨⟨h'.filter _, ?_, ?_⟩, h'.filter _, ?_⟩
  · have := List.pairwise_lt_range' (s := a) (n := bs.length)
    rw [← cells_keys] at this
    exact List.pairwise_map.1 this
  · intro c hc d hd
    have := mem_cells hd
    simp only [List.mem_filter, decide_eq_true_eq] at hc
    omega
  · intro c hc d hd
    simp only [List.mem_filter, decide_eq_true_eq] at hd
    rcases List.mem_append.1 hc with hc | hc
    · simp only [List.mem_filter, decide_eq_true_eq] at hc
      omega
    · have := mem_cells hc
      omega

/-- A property of the listed addresses that the written ones have too. -/
theorem keys_write {m : List Host.Cell} {p : Nat → Prop} (h : ∀ c ∈ m, p c.1) (a : Nat) (bs : List Byte)
    (hw : ∀ k < bs.length, p (a + k)) : ∀ c ∈ Memory.write m a bs, p c.1 := by
  intro c hc
  simp only [Memory.write, List.mem_append, List.mem_filter] at hc
  rcases hc with (hc | hc) | hc
  · exact h c hc.1
  · obtain ⟨h1, h2⟩ := mem_cells hc
    have := hw (c.1 - a) (by omega)
    rwa [show a + (c.1 - a) = c.1 by omega] at this
  · exact h c hc.1

theorem leBytes_length (n v : Nat) : (leBytes n v).length = n := by
  induction n generalizing v with
  | zero => rfl
  | succ n ih => simp [leBytes, ih]

theorem leNat_lt (bs : List Byte) : leNat bs < 256 ^ bs.length := by
  induction bs with
  | nil => simp [leNat]
  | cons b bs ih =>
    have := b.isLt
    simp only [leNat, List.length_cons, pow_succ]
    omega

/-- Bytes laid down and read back give the number, cut to their width. -/
theorem leNat_leBytes (n v : Nat) : leNat (leBytes n v) = v % 256 ^ n := by
  induction n generalizing v with
  | zero => simp [leBytes, leNat, Nat.mod_one]
  | succ n ih =>
    have h8 : (BitVec.ofNat 8 v).toNat = v % 256 := by simp
    show (BitVec.ofNat 8 v).toNat + 256 * leNat (leBytes n (v / 256)) = _
    rw [h8, ih, Nat.pow_succ, Nat.mul_comm (256 ^ n), Nat.mod_mul]

end Sys2Proof.Laws
end

