-- ==== Sys2Proof/Laws/State.lean ====
section
/-! SUPPORT. What each named update of the state does to each field: one lemma per field per update, so that no later
proof unfolds a record update. -/

namespace Sys2Proof.Laws

open Sys2Proof.Machine

/-! ### `s.store a bs` -/

@[simp] theorem store_ctrl (s : State) (a : Nat) (bs : List Byte) : (s.store a bs).ctrl = s.ctrl := rfl
@[simp] theorem store_tctl (s : State) (a : Nat) (bs : List Byte) : (s.store a bs).tctl = s.tctl := rfl
@[simp] theorem store_rctl (s : State) (a : Nat) (bs : List Byte) : (s.store a bs).rctl = s.rctl := rfl
@[simp] theorem store_im (s : State) (a : Nat) (bs : List Byte) : (s.store a bs).im = s.im := rfl
@[simp] theorem store_rxdw (s : State) (a : Nat) (bs : List Byte) : (s.store a bs).rxdw = s.rxdw := rfl
@[simp] theorem store_tdbal (s : State) (a : Nat) (bs : List Byte) : (s.store a bs).tdbal = s.tdbal := rfl
@[simp] theorem store_tdbah (s : State) (a : Nat) (bs : List Byte) : (s.store a bs).tdbah = s.tdbah := rfl
@[simp] theorem store_tdlen (s : State) (a : Nat) (bs : List Byte) : (s.store a bs).tdlen = s.tdlen := rfl
@[simp] theorem store_tdh (s : State) (a : Nat) (bs : List Byte) : (s.store a bs).tdh = s.tdh := rfl
@[simp] theorem store_tdt (s : State) (a : Nat) (bs : List Byte) : (s.store a bs).tdt = s.tdt := rfl
@[simp] theorem store_rdbal (s : State) (a : Nat) (bs : List Byte) : (s.store a bs).rdbal = s.rdbal := rfl
@[simp] theorem store_rdbah (s : State) (a : Nat) (bs : List Byte) : (s.store a bs).rdbah = s.rdbah := rfl
@[simp] theorem store_rdlen (s : State) (a : Nat) (bs : List Byte) : (s.store a bs).rdlen = s.rdlen := rfl
@[simp] theorem store_rdh (s : State) (a : Nat) (bs : List Byte) : (s.store a bs).rdh = s.rdh := rfl
@[simp] theorem store_rdt (s : State) (a : Nat) (bs : List Byte) : (s.store a bs).rdt = s.rdt := rfl
@[simp] theorem store_ral0 (s : State) (a : Nat) (bs : List Byte) : (s.store a bs).ral0 = s.ral0 := rfl
@[simp] theorem store_rah0 (s : State) (a : Nat) (bs : List Byte) : (s.store a bs).rah0 = s.rah0 := rfl
@[simp] theorem store_mta (s : State) (a : Nat) (bs : List Byte) : (s.store a bs).mta = s.mta := rfl
@[simp] theorem store_mem (s : State) (a : Nat) (bs : List Byte) : (s.store a bs).mem = Memory.write s.mem a bs := rfl
@[simp] theorem store_txLog (s : State) (a : Nat) (bs : List Byte) : (s.store a bs).txLog = s.txLog := rfl
@[simp] theorem store_offer (s : State) (a : Nat) (bs : List Byte) : (s.store a bs).offer = s.offer := rfl
@[simp] theorem store_faulted (s : State) (a : Nat) (bs : List Byte) : (s.store a bs).faulted = s.faulted := rfl
@[simp] theorem store_refused (s : State) (a : Nat) (bs : List Byte) : (s.store a bs).refused = s.refused := rfl
@[simp] theorem store_launch (s : State) (a : Nat) (bs : List Byte) : (s.store a bs).launch = s.launch := rfl
@[simp] theorem store_hostRead (s : State) (a : Nat) (bs : List Byte) : (s.store a bs).hostRead = s.hostRead := rfl
@[simp] theorem store_driver (s : State) (a : Nat) (bs : List Byte) : (s.store a bs).driver = s.driver := rfl
@[simp] theorem store_turns (s : State) (a : Nat) (bs : List Byte) : (s.store a bs).turns = s.turns := rfl
@[simp] theorem store_draws (s : State) (a : Nat) (bs : List Byte) : (s.store a bs).draws = s.draws := rfl
@[simp] theorem store_rota (s : State) (a : Nat) (bs : List Byte) : (s.store a bs).rota = s.rota := rfl

/-! ### `s.drawn n` -/

@[simp] theorem drawn_ctrl (s : State) (n : Nat) : (s.drawn n).ctrl = s.ctrl := rfl
@[simp] theorem drawn_tctl (s : State) (n : Nat) : (s.drawn n).tctl = s.tctl := rfl
@[simp] theorem drawn_rctl (s : State) (n : Nat) : (s.drawn n).rctl = s.rctl := rfl
@[simp] theorem drawn_im (s : State) (n : Nat) : (s.drawn n).im = s.im := rfl
@[simp] theorem drawn_rxdw (s : State) (n : Nat) : (s.drawn n).rxdw = s.rxdw := rfl
@[simp] theorem drawn_tdbal (s : State) (n : Nat) : (s.drawn n).tdbal = s.tdbal := rfl
@[simp] theorem drawn_tdbah (s : State) (n : Nat) : (s.drawn n).tdbah = s.tdbah := rfl
@[simp] theorem drawn_tdlen (s : State) (n : Nat) : (s.drawn n).tdlen = s.tdlen := rfl
@[simp] theorem drawn_tdh (s : State) (n : Nat) : (s.drawn n).tdh = s.tdh := rfl
@[simp] theorem drawn_tdt (s : State) (n : Nat) : (s.drawn n).tdt = s.tdt := rfl
@[simp] theorem drawn_rdbal (s : State) (n : Nat) : (s.drawn n).rdbal = s.rdbal := rfl
@[simp] theorem drawn_rdbah (s : State) (n : Nat) : (s.drawn n).rdbah = s.rdbah := rfl
@[simp] theorem drawn_rdlen (s : State) (n : Nat) : (s.drawn n).rdlen = s.rdlen := rfl
@[simp] theorem drawn_rdh (s : State) (n : Nat) : (s.drawn n).rdh = s.rdh := rfl
@[simp] theorem drawn_rdt (s : State) (n : Nat) : (s.drawn n).rdt = s.rdt := rfl
@[simp] theorem drawn_ral0 (s : State) (n : Nat) : (s.drawn n).ral0 = s.ral0 := rfl
@[simp] theorem drawn_rah0 (s : State) (n : Nat) : (s.drawn n).rah0 = s.rah0 := rfl
@[simp] theorem drawn_mta (s : State) (n : Nat) : (s.drawn n).mta = s.mta := rfl
@[simp] theorem drawn_mem (s : State) (n : Nat) : (s.drawn n).mem = s.mem := rfl
@[simp] theorem drawn_txLog (s : State) (n : Nat) : (s.drawn n).txLog = s.txLog := rfl
@[simp] theorem drawn_offer (s : State) (n : Nat) : (s.drawn n).offer = s.offer := rfl
@[simp] theorem drawn_faulted (s : State) (n : Nat) : (s.drawn n).faulted = s.faulted := rfl
@[simp] theorem drawn_refused (s : State) (n : Nat) : (s.drawn n).refused = s.refused := rfl
@[simp] theorem drawn_launch (s : State) (n : Nat) : (s.drawn n).launch = s.launch := rfl
@[simp] theorem drawn_hostRead (s : State) (n : Nat) : (s.drawn n).hostRead = s.hostRead := rfl
@[simp] theorem drawn_driver (s : State) (n : Nat) : (s.drawn n).driver = s.driver := rfl
@[simp] theorem drawn_turns (s : State) (n : Nat) : (s.drawn n).turns = s.turns := rfl
@[simp] theorem drawn_draws (s : State) (n : Nat) : (s.drawn n).draws = s.draws + n := rfl
@[simp] theorem drawn_rota (s : State) (n : Nat) : (s.drawn n).rota = s.rota := rfl

/-! ### `s.emit bs` -/

@[simp] theorem emit_ctrl (s : State) (bs : List Byte) : (s.emit bs).ctrl = s.ctrl := rfl
@[simp] theorem emit_tctl (s : State) (bs : List Byte) : (s.emit bs).tctl = s.tctl := rfl
@[simp] theorem emit_rctl (s : State) (bs : List Byte) : (s.emit bs).rctl = s.rctl := rfl
@[simp] theorem emit_im (s : State) (bs : List Byte) : (s.emit bs).im = s.im := rfl
@[simp] theorem emit_rxdw (s : State) (bs : List Byte) : (s.emit bs).rxdw = s.rxdw := rfl
@[simp] theorem emit_tdbal (s : State) (bs : List Byte) : (s.emit bs).tdbal = s.tdbal := rfl
@[simp] theorem emit_tdbah (s : State) (bs : List Byte) : (s.emit bs).tdbah = s.tdbah := rfl
@[simp] theorem emit_tdlen (s : State) (bs : List Byte) : (s.emit bs).tdlen = s.tdlen := rfl
@[simp] theorem emit_tdh (s : State) (bs : List Byte) : (s.emit bs).tdh = s.tdh := rfl
@[simp] theorem emit_tdt (s : State) (bs : List Byte) : (s.emit bs).tdt = s.tdt := rfl
@[simp] theorem emit_rdbal (s : State) (bs : List Byte) : (s.emit bs).rdbal = s.rdbal := rfl
@[simp] theorem emit_rdbah (s : State) (bs : List Byte) : (s.emit bs).rdbah = s.rdbah := rfl
@[simp] theorem emit_rdlen (s : State) (bs : List Byte) : (s.emit bs).rdlen = s.rdlen := rfl
@[simp] theorem emit_rdh (s : State) (bs : List Byte) : (s.emit bs).rdh = s.rdh := rfl
@[simp] theorem emit_rdt (s : State) (bs : List Byte) : (s.emit bs).rdt = s.rdt := rfl
@[simp] theorem emit_ral0 (s : State) (bs : List Byte) : (s.emit bs).ral0 = s.ral0 := rfl
@[simp] theorem emit_rah0 (s : State) (bs : List Byte) : (s.emit bs).rah0 = s.rah0 := rfl
@[simp] theorem emit_mta (s : State) (bs : List Byte) : (s.emit bs).mta = s.mta := rfl
@[simp] theorem emit_mem (s : State) (bs : List Byte) : (s.emit bs).mem = s.mem := rfl
@[simp] theorem emit_txLog (s : State) (bs : List Byte) : (s.emit bs).txLog = s.txLog ++ [bs] := rfl
@[simp] theorem emit_offer (s : State) (bs : List Byte) : (s.emit bs).offer = s.offer := rfl
@[simp] theorem emit_faulted (s : State) (bs : List Byte) : (s.emit bs).faulted = s.faulted := rfl
@[simp] theorem emit_refused (s : State) (bs : List Byte) : (s.emit bs).refused = s.refused := rfl
@[simp] theorem emit_launch (s : State) (bs : List Byte) : (s.emit bs).launch = s.launch := rfl
@[simp] theorem emit_hostRead (s : State) (bs : List Byte) : (s.emit bs).hostRead = s.hostRead := rfl
@[simp] theorem emit_driver (s : State) (bs : List Byte) : (s.emit bs).driver = s.driver := rfl
@[simp] theorem emit_turns (s : State) (bs : List Byte) : (s.emit bs).turns = s.turns := rfl
@[simp] theorem emit_draws (s : State) (bs : List Byte) : (s.emit bs).draws = s.draws := rfl
@[simp] theorem emit_rota (s : State) (bs : List Byte) : (s.emit bs).rota = s.rota := rfl

/-! ### `s.gotWord v` -/

@[simp] theorem gotWord_ctrl (s : State) (v : Word) : (s.gotWord v).ctrl = s.ctrl := rfl
@[simp] theorem gotWord_tctl (s : State) (v : Word) : (s.gotWord v).tctl = s.tctl := rfl
@[simp] theorem gotWord_rctl (s : State) (v : Word) : (s.gotWord v).rctl = s.rctl := rfl
@[simp] theorem gotWord_im (s : State) (v : Word) : (s.gotWord v).im = s.im := rfl
@[simp] theorem gotWord_rxdw (s : State) (v : Word) : (s.gotWord v).rxdw = s.rxdw := rfl
@[simp] theorem gotWord_tdbal (s : State) (v : Word) : (s.gotWord v).tdbal = s.tdbal := rfl
@[simp] theorem gotWord_tdbah (s : State) (v : Word) : (s.gotWord v).tdbah = s.tdbah := rfl
@[simp] theorem gotWord_tdlen (s : State) (v : Word) : (s.gotWord v).tdlen = s.tdlen := rfl
@[simp] theorem gotWord_tdh (s : State) (v : Word) : (s.gotWord v).tdh = s.tdh := rfl
@[simp] theorem gotWord_tdt (s : State) (v : Word) : (s.gotWord v).tdt = s.tdt := rfl
@[simp] theorem gotWord_rdbal (s : State) (v : Word) : (s.gotWord v).rdbal = s.rdbal := rfl
@[simp] theorem gotWord_rdbah (s : State) (v : Word) : (s.gotWord v).rdbah = s.rdbah := rfl
@[simp] theorem gotWord_rdlen (s : State) (v : Word) : (s.gotWord v).rdlen = s.rdlen := rfl
@[simp] theorem gotWord_rdh (s : State) (v : Word) : (s.gotWord v).rdh = s.rdh := rfl
@[simp] theorem gotWord_rdt (s : State) (v : Word) : (s.gotWord v).rdt = s.rdt := rfl
@[simp] theorem gotWord_ral0 (s : State) (v : Word) : (s.gotWord v).ral0 = s.ral0 := rfl
@[simp] theorem gotWord_rah0 (s : State) (v : Word) : (s.gotWord v).rah0 = s.rah0 := rfl
@[simp] theorem gotWord_mta (s : State) (v : Word) : (s.gotWord v).mta = s.mta := rfl
@[simp] theorem gotWord_mem (s : State) (v : Word) : (s.gotWord v).mem = s.mem := rfl
@[simp] theorem gotWord_txLog (s : State) (v : Word) : (s.gotWord v).txLog = s.txLog := rfl
@[simp] theorem gotWord_offer (s : State) (v : Word) : (s.gotWord v).offer = s.offer := rfl
@[simp] theorem gotWord_faulted (s : State) (v : Word) : (s.gotWord v).faulted = s.faulted := rfl
@[simp] theorem gotWord_refused (s : State) (v : Word) : (s.gotWord v).refused = s.refused := rfl
@[simp] theorem gotWord_launch (s : State) (v : Word) : (s.gotWord v).launch = s.launch := rfl
@[simp] theorem gotWord_hostRead (s : State) (v : Word) : (s.gotWord v).hostRead = v.setWidth 64 := rfl
@[simp] theorem gotWord_driver (s : State) (v : Word) : (s.gotWord v).driver = s.driver := rfl
@[simp] theorem gotWord_turns (s : State) (v : Word) : (s.gotWord v).turns = s.turns := rfl
@[simp] theorem gotWord_draws (s : State) (v : Word) : (s.gotWord v).draws = s.draws := rfl
@[simp] theorem gotWord_rota (s : State) (v : Word) : (s.gotWord v).rota = s.rota := rfl

/-! ### `s.gotBytes bs` -/

@[simp] theorem gotBytes_ctrl (s : State) (bs : List Byte) : (s.gotBytes bs).ctrl = s.ctrl := rfl
@[simp] theorem gotBytes_tctl (s : State) (bs : List Byte) : (s.gotBytes bs).tctl = s.tctl := rfl
@[simp] theorem gotBytes_rctl (s : State) (bs : List Byte) : (s.gotBytes bs).rctl = s.rctl := rfl
@[simp] theorem gotBytes_im (s : State) (bs : List Byte) : (s.gotBytes bs).im = s.im := rfl
@[simp] theorem gotBytes_rxdw (s : State) (bs : List Byte) : (s.gotBytes bs).rxdw = s.rxdw := rfl
@[simp] theorem gotBytes_tdbal (s : State) (bs : List Byte) : (s.gotBytes bs).tdbal = s.tdbal := rfl
@[simp] theorem gotBytes_tdbah (s : State) (bs : List Byte) : (s.gotBytes bs).tdbah = s.tdbah := rfl
@[simp] theorem gotBytes_tdlen (s : State) (bs : List Byte) : (s.gotBytes bs).tdlen = s.tdlen := rfl
@[simp] theorem gotBytes_tdh (s : State) (bs : List Byte) : (s.gotBytes bs).tdh = s.tdh := rfl
@[simp] theorem gotBytes_tdt (s : State) (bs : List Byte) : (s.gotBytes bs).tdt = s.tdt := rfl
@[simp] theorem gotBytes_rdbal (s : State) (bs : List Byte) : (s.gotBytes bs).rdbal = s.rdbal := rfl
@[simp] theorem gotBytes_rdbah (s : State) (bs : List Byte) : (s.gotBytes bs).rdbah = s.rdbah := rfl
@[simp] theorem gotBytes_rdlen (s : State) (bs : List Byte) : (s.gotBytes bs).rdlen = s.rdlen := rfl
@[simp] theorem gotBytes_rdh (s : State) (bs : List Byte) : (s.gotBytes bs).rdh = s.rdh := rfl
@[simp] theorem gotBytes_rdt (s : State) (bs : List Byte) : (s.gotBytes bs).rdt = s.rdt := rfl
@[simp] theorem gotBytes_ral0 (s : State) (bs : List Byte) : (s.gotBytes bs).ral0 = s.ral0 := rfl
@[simp] theorem gotBytes_rah0 (s : State) (bs : List Byte) : (s.gotBytes bs).rah0 = s.rah0 := rfl
@[simp] theorem gotBytes_mta (s : State) (bs : List Byte) : (s.gotBytes bs).mta = s.mta := rfl
@[simp] theorem gotBytes_mem (s : State) (bs : List Byte) : (s.gotBytes bs).mem = s.mem := rfl
@[simp] theorem gotBytes_txLog (s : State) (bs : List Byte) : (s.gotBytes bs).txLog = s.txLog := rfl
@[simp] theorem gotBytes_offer (s : State) (bs : List Byte) : (s.gotBytes bs).offer = s.offer := rfl
@[simp] theorem gotBytes_faulted (s : State) (bs : List Byte) : (s.gotBytes bs).faulted = s.faulted := rfl
@[simp] theorem gotBytes_refused (s : State) (bs : List Byte) : (s.gotBytes bs).refused = s.refused := rfl
@[simp] theorem gotBytes_launch (s : State) (bs : List Byte) : (s.gotBytes bs).launch = s.launch := rfl
@[simp] theorem gotBytes_hostRead (s : State) (bs : List Byte) : (s.gotBytes bs).hostRead = BitVec.ofNat 64 (leNat bs) := rfl
@[simp] theorem gotBytes_driver (s : State) (bs : List Byte) : (s.gotBytes bs).driver = s.driver := rfl
@[simp] theorem gotBytes_turns (s : State) (bs : List Byte) : (s.gotBytes bs).turns = s.turns := rfl
@[simp] theorem gotBytes_draws (s : State) (bs : List Byte) : (s.gotBytes bs).draws = s.draws := rfl
@[simp] theorem gotBytes_rota (s : State) (bs : List Byte) : (s.gotBytes bs).rota = s.rota := rfl

/-! ### `s.gotBit b` -/

@[simp] theorem gotBit_ctrl (s : State) (b : Bool) : (s.gotBit b).ctrl = s.ctrl := rfl
@[simp] theorem gotBit_tctl (s : State) (b : Bool) : (s.gotBit b).tctl = s.tctl := rfl
@[simp] theorem gotBit_rctl (s : State) (b : Bool) : (s.gotBit b).rctl = s.rctl := rfl
@[simp] theorem gotBit_im (s : State) (b : Bool) : (s.gotBit b).im = s.im := rfl
@[simp] theorem gotBit_rxdw (s : State) (b : Bool) : (s.gotBit b).rxdw = s.rxdw := rfl
@[simp] theorem gotBit_tdbal (s : State) (b : Bool) : (s.gotBit b).tdbal = s.tdbal := rfl
@[simp] theorem gotBit_tdbah (s : State) (b : Bool) : (s.gotBit b).tdbah = s.tdbah := rfl
@[simp] theorem gotBit_tdlen (s : State) (b : Bool) : (s.gotBit b).tdlen = s.tdlen := rfl
@[simp] theorem gotBit_tdh (s : State) (b : Bool) : (s.gotBit b).tdh = s.tdh := rfl
@[simp] theorem gotBit_tdt (s : State) (b : Bool) : (s.gotBit b).tdt = s.tdt := rfl
@[simp] theorem gotBit_rdbal (s : State) (b : Bool) : (s.gotBit b).rdbal = s.rdbal := rfl
@[simp] theorem gotBit_rdbah (s : State) (b : Bool) : (s.gotBit b).rdbah = s.rdbah := rfl
@[simp] theorem gotBit_rdlen (s : State) (b : Bool) : (s.gotBit b).rdlen = s.rdlen := rfl
@[simp] theorem gotBit_rdh (s : State) (b : Bool) : (s.gotBit b).rdh = s.rdh := rfl
@[simp] theorem gotBit_rdt (s : State) (b : Bool) : (s.gotBit b).rdt = s.rdt := rfl
@[simp] theorem gotBit_ral0 (s : State) (b : Bool) : (s.gotBit b).ral0 = s.ral0 := rfl
@[simp] theorem gotBit_rah0 (s : State) (b : Bool) : (s.gotBit b).rah0 = s.rah0 := rfl
@[simp] theorem gotBit_mta (s : State) (b : Bool) : (s.gotBit b).mta = s.mta := rfl
@[simp] theorem gotBit_mem (s : State) (b : Bool) : (s.gotBit b).mem = s.mem := rfl
@[simp] theorem gotBit_txLog (s : State) (b : Bool) : (s.gotBit b).txLog = s.txLog := rfl
@[simp] theorem gotBit_offer (s : State) (b : Bool) : (s.gotBit b).offer = s.offer := rfl
@[simp] theorem gotBit_faulted (s : State) (b : Bool) : (s.gotBit b).faulted = s.faulted := rfl
@[simp] theorem gotBit_refused (s : State) (b : Bool) : (s.gotBit b).refused = s.refused := rfl
@[simp] theorem gotBit_launch (s : State) (b : Bool) : (s.gotBit b).launch = s.launch := rfl
@[simp] theorem gotBit_hostRead (s : State) (b : Bool) : (s.gotBit b).hostRead = if b then 1 else 0 := rfl
@[simp] theorem gotBit_driver (s : State) (b : Bool) : (s.gotBit b).driver = s.driver := rfl
@[simp] theorem gotBit_turns (s : State) (b : Bool) : (s.gotBit b).turns = s.turns := rfl
@[simp] theorem gotBit_draws (s : State) (b : Bool) : (s.gotBit b).draws = s.draws := rfl
@[simp] theorem gotBit_rota (s : State) (b : Bool) : (s.gotBit b).rota = s.rota := rfl

/-! ### `s.offering o` -/

@[simp] theorem offering_ctrl (s : State) (o : Offer) : (s.offering o).ctrl = s.ctrl := rfl
@[simp] theorem offering_tctl (s : State) (o : Offer) : (s.offering o).tctl = s.tctl := rfl
@[simp] theorem offering_rctl (s : State) (o : Offer) : (s.offering o).rctl = s.rctl := rfl
@[simp] theorem offering_im (s : State) (o : Offer) : (s.offering o).im = s.im := rfl
@[simp] theorem offering_rxdw (s : State) (o : Offer) : (s.offering o).rxdw = s.rxdw := rfl
@[simp] theorem offering_tdbal (s : State) (o : Offer) : (s.offering o).tdbal = s.tdbal := rfl
@[simp] theorem offering_tdbah (s : State) (o : Offer) : (s.offering o).tdbah = s.tdbah := rfl
@[simp] theorem offering_tdlen (s : State) (o : Offer) : (s.offering o).tdlen = s.tdlen := rfl
@[simp] theorem offering_tdh (s : State) (o : Offer) : (s.offering o).tdh = s.tdh := rfl
@[simp] theorem offering_tdt (s : State) (o : Offer) : (s.offering o).tdt = s.tdt := rfl
@[simp] theorem offering_rdbal (s : State) (o : Offer) : (s.offering o).rdbal = s.rdbal := rfl
@[simp] theorem offering_rdbah (s : State) (o : Offer) : (s.offering o).rdbah = s.rdbah := rfl
@[simp] theorem offering_rdlen (s : State) (o : Offer) : (s.offering o).rdlen = s.rdlen := rfl
@[simp] theorem offering_rdh (s : State) (o : Offer) : (s.offering o).rdh = s.rdh := rfl
@[simp] theorem offering_rdt (s : State) (o : Offer) : (s.offering o).rdt = s.rdt := rfl
@[simp] theorem offering_ral0 (s : State) (o : Offer) : (s.offering o).ral0 = s.ral0 := rfl
@[simp] theorem offering_rah0 (s : State) (o : Offer) : (s.offering o).rah0 = s.rah0 := rfl
@[simp] theorem offering_mta (s : State) (o : Offer) : (s.offering o).mta = s.mta := rfl
@[simp] theorem offering_mem (s : State) (o : Offer) : (s.offering o).mem = s.mem := rfl
@[simp] theorem offering_txLog (s : State) (o : Offer) : (s.offering o).txLog = s.txLog := rfl
@[simp] theorem offering_offer (s : State) (o : Offer) : (s.offering o).offer = some o := rfl
@[simp] theorem offering_faulted (s : State) (o : Offer) : (s.offering o).faulted = s.faulted := rfl
@[simp] theorem offering_refused (s : State) (o : Offer) : (s.offering o).refused = s.refused := rfl
@[simp] theorem offering_launch (s : State) (o : Offer) : (s.offering o).launch = s.launch := rfl
@[simp] theorem offering_hostRead (s : State) (o : Offer) : (s.offering o).hostRead = s.hostRead := rfl
@[simp] theorem offering_driver (s : State) (o : Offer) : (s.offering o).driver = s.driver := rfl
@[simp] theorem offering_turns (s : State) (o : Offer) : (s.offering o).turns = s.turns := rfl
@[simp] theorem offering_draws (s : State) (o : Offer) : (s.offering o).draws = s.draws := rfl
@[simp] theorem offering_rota (s : State) (o : Offer) : (s.offering o).rota = s.rota := rfl

/-! ### `s.endOffer` -/

@[simp] theorem endOffer_ctrl (s : State) : (s.endOffer).ctrl = s.ctrl := rfl
@[simp] theorem endOffer_tctl (s : State) : (s.endOffer).tctl = s.tctl := rfl
@[simp] theorem endOffer_rctl (s : State) : (s.endOffer).rctl = s.rctl := rfl
@[simp] theorem endOffer_im (s : State) : (s.endOffer).im = s.im := rfl
@[simp] theorem endOffer_rxdw (s : State) : (s.endOffer).rxdw = s.rxdw := rfl
@[simp] theorem endOffer_tdbal (s : State) : (s.endOffer).tdbal = s.tdbal := rfl
@[simp] theorem endOffer_tdbah (s : State) : (s.endOffer).tdbah = s.tdbah := rfl
@[simp] theorem endOffer_tdlen (s : State) : (s.endOffer).tdlen = s.tdlen := rfl
@[simp] theorem endOffer_tdh (s : State) : (s.endOffer).tdh = s.tdh := rfl
@[simp] theorem endOffer_tdt (s : State) : (s.endOffer).tdt = s.tdt := rfl
@[simp] theorem endOffer_rdbal (s : State) : (s.endOffer).rdbal = s.rdbal := rfl
@[simp] theorem endOffer_rdbah (s : State) : (s.endOffer).rdbah = s.rdbah := rfl
@[simp] theorem endOffer_rdlen (s : State) : (s.endOffer).rdlen = s.rdlen := rfl
@[simp] theorem endOffer_rdh (s : State) : (s.endOffer).rdh = s.rdh := rfl
@[simp] theorem endOffer_rdt (s : State) : (s.endOffer).rdt = s.rdt := rfl
@[simp] theorem endOffer_ral0 (s : State) : (s.endOffer).ral0 = s.ral0 := rfl
@[simp] theorem endOffer_rah0 (s : State) : (s.endOffer).rah0 = s.rah0 := rfl
@[simp] theorem endOffer_mta (s : State) : (s.endOffer).mta = s.mta := rfl
@[simp] theorem endOffer_mem (s : State) : (s.endOffer).mem = s.mem := rfl
@[simp] theorem endOffer_txLog (s : State) : (s.endOffer).txLog = s.txLog := rfl
@[simp] theorem endOffer_offer (s : State) : (s.endOffer).offer = none := rfl
@[simp] theorem endOffer_faulted (s : State) : (s.endOffer).faulted = s.faulted := rfl
@[simp] theorem endOffer_refused (s : State) : (s.endOffer).refused = s.refused := rfl
@[simp] theorem endOffer_launch (s : State) : (s.endOffer).launch = s.launch := rfl
@[simp] theorem endOffer_hostRead (s : State) : (s.endOffer).hostRead = s.hostRead := rfl
@[simp] theorem endOffer_driver (s : State) : (s.endOffer).driver = s.driver := rfl
@[simp] theorem endOffer_turns (s : State) : (s.endOffer).turns = s.turns := rfl
@[simp] theorem endOffer_draws (s : State) : (s.endOffer).draws = s.draws := rfl
@[simp] theorem endOffer_rota (s : State) : (s.endOffer).rota = s.rota := rfl

/-! ### `s.ghost f` -/

@[simp] theorem ghost_ctrl (s : State) (f : Driver → Driver) : (s.ghost f).ctrl = s.ctrl := rfl
@[simp] theorem ghost_tctl (s : State) (f : Driver → Driver) : (s.ghost f).tctl = s.tctl := rfl
@[simp] theorem ghost_rctl (s : State) (f : Driver → Driver) : (s.ghost f).rctl = s.rctl := rfl
@[simp] theorem ghost_im (s : State) (f : Driver → Driver) : (s.ghost f).im = s.im := rfl
@[simp] theorem ghost_rxdw (s : State) (f : Driver → Driver) : (s.ghost f).rxdw = s.rxdw := rfl
@[simp] theorem ghost_tdbal (s : State) (f : Driver → Driver) : (s.ghost f).tdbal = s.tdbal := rfl
@[simp] theorem ghost_tdbah (s : State) (f : Driver → Driver) : (s.ghost f).tdbah = s.tdbah := rfl
@[simp] theorem ghost_tdlen (s : State) (f : Driver → Driver) : (s.ghost f).tdlen = s.tdlen := rfl
@[simp] theorem ghost_tdh (s : State) (f : Driver → Driver) : (s.ghost f).tdh = s.tdh := rfl
@[simp] theorem ghost_tdt (s : State) (f : Driver → Driver) : (s.ghost f).tdt = s.tdt := rfl
@[simp] theorem ghost_rdbal (s : State) (f : Driver → Driver) : (s.ghost f).rdbal = s.rdbal := rfl
@[simp] theorem ghost_rdbah (s : State) (f : Driver → Driver) : (s.ghost f).rdbah = s.rdbah := rfl
@[simp] theorem ghost_rdlen (s : State) (f : Driver → Driver) : (s.ghost f).rdlen = s.rdlen := rfl
@[simp] theorem ghost_rdh (s : State) (f : Driver → Driver) : (s.ghost f).rdh = s.rdh := rfl
@[simp] theorem ghost_rdt (s : State) (f : Driver → Driver) : (s.ghost f).rdt = s.rdt := rfl
@[simp] theorem ghost_ral0 (s : State) (f : Driver → Driver) : (s.ghost f).ral0 = s.ral0 := rfl
@[simp] theorem ghost_rah0 (s : State) (f : Driver → Driver) : (s.ghost f).rah0 = s.rah0 := rfl
@[simp] theorem ghost_mta (s : State) (f : Driver → Driver) : (s.ghost f).mta = s.mta := rfl
@[simp] theorem ghost_mem (s : State) (f : Driver → Driver) : (s.ghost f).mem = s.mem := rfl
@[simp] theorem ghost_txLog (s : State) (f : Driver → Driver) : (s.ghost f).txLog = s.txLog := rfl
@[simp] theorem ghost_offer (s : State) (f : Driver → Driver) : (s.ghost f).offer = s.offer := rfl
@[simp] theorem ghost_faulted (s : State) (f : Driver → Driver) : (s.ghost f).faulted = s.faulted := rfl
@[simp] theorem ghost_refused (s : State) (f : Driver → Driver) : (s.ghost f).refused = s.refused := rfl
@[simp] theorem ghost_launch (s : State) (f : Driver → Driver) : (s.ghost f).launch = s.launch := rfl
@[simp] theorem ghost_hostRead (s : State) (f : Driver → Driver) : (s.ghost f).hostRead = s.hostRead := rfl
@[simp] theorem ghost_driver (s : State) (f : Driver → Driver) : (s.ghost f).driver = f s.driver := rfl
@[simp] theorem ghost_turns (s : State) (f : Driver → Driver) : (s.ghost f).turns = s.turns := rfl
@[simp] theorem ghost_draws (s : State) (f : Driver → Driver) : (s.ghost f).draws = s.draws := rfl
@[simp] theorem ghost_rota (s : State) (f : Driver → Driver) : (s.ghost f).rota = s.rota := rfl

/-! ### `s.nextTurn` -/

@[simp] theorem nextTurn_ctrl (s : State) : (s.nextTurn).ctrl = s.ctrl := rfl
@[simp] theorem nextTurn_tctl (s : State) : (s.nextTurn).tctl = s.tctl := rfl
@[simp] theorem nextTurn_rctl (s : State) : (s.nextTurn).rctl = s.rctl := rfl
@[simp] theorem nextTurn_im (s : State) : (s.nextTurn).im = s.im := rfl
@[simp] theorem nextTurn_rxdw (s : State) : (s.nextTurn).rxdw = s.rxdw := rfl
@[simp] theorem nextTurn_tdbal (s : State) : (s.nextTurn).tdbal = s.tdbal := rfl
@[simp] theorem nextTurn_tdbah (s : State) : (s.nextTurn).tdbah = s.tdbah := rfl
@[simp] theorem nextTurn_tdlen (s : State) : (s.nextTurn).tdlen = s.tdlen := rfl
@[simp] theorem nextTurn_tdh (s : State) : (s.nextTurn).tdh = s.tdh := rfl
@[simp] theorem nextTurn_tdt (s : State) : (s.nextTurn).tdt = s.tdt := rfl
@[simp] theorem nextTurn_rdbal (s : State) : (s.nextTurn).rdbal = s.rdbal := rfl
@[simp] theorem nextTurn_rdbah (s : State) : (s.nextTurn).rdbah = s.rdbah := rfl
@[simp] theorem nextTurn_rdlen (s : State) : (s.nextTurn).rdlen = s.rdlen := rfl
@[simp] theorem nextTurn_rdh (s : State) : (s.nextTurn).rdh = s.rdh := rfl
@[simp] theorem nextTurn_rdt (s : State) : (s.nextTurn).rdt = s.rdt := rfl
@[simp] theorem nextTurn_ral0 (s : State) : (s.nextTurn).ral0 = s.ral0 := rfl
@[simp] theorem nextTurn_rah0 (s : State) : (s.nextTurn).rah0 = s.rah0 := rfl
@[simp] theorem nextTurn_mta (s : State) : (s.nextTurn).mta = s.mta := rfl
@[simp] theorem nextTurn_mem (s : State) : (s.nextTurn).mem = s.mem := rfl
@[simp] theorem nextTurn_txLog (s : State) : (s.nextTurn).txLog = s.txLog := rfl
@[simp] theorem nextTurn_offer (s : State) : (s.nextTurn).offer = s.offer := rfl
@[simp] theorem nextTurn_faulted (s : State) : (s.nextTurn).faulted = s.faulted := rfl
@[simp] theorem nextTurn_refused (s : State) : (s.nextTurn).refused = s.refused := rfl
@[simp] theorem nextTurn_launch (s : State) : (s.nextTurn).launch = s.launch := rfl
@[simp] theorem nextTurn_hostRead (s : State) : (s.nextTurn).hostRead = s.hostRead := rfl
@[simp] theorem nextTurn_driver (s : State) : (s.nextTurn).driver = s.driver := rfl
@[simp] theorem nextTurn_turns (s : State) : (s.nextTurn).turns = s.turns.tail := rfl
@[simp] theorem nextTurn_draws (s : State) : (s.nextTurn).draws = s.draws + 1 := rfl
@[simp] theorem nextTurn_rota (s : State) : (s.nextTurn).rota = s.rota + 1 := rfl

/-! ### `s.recordFault f` -/

@[simp] theorem recordFault_ctrl (s : State) (f : Fault) : (s.recordFault f).ctrl = s.ctrl := rfl
@[simp] theorem recordFault_tctl (s : State) (f : Fault) : (s.recordFault f).tctl = s.tctl := rfl
@[simp] theorem recordFault_rctl (s : State) (f : Fault) : (s.recordFault f).rctl = s.rctl := rfl
@[simp] theorem recordFault_im (s : State) (f : Fault) : (s.recordFault f).im = s.im := rfl
@[simp] theorem recordFault_rxdw (s : State) (f : Fault) : (s.recordFault f).rxdw = s.rxdw := rfl
@[simp] theorem recordFault_tdbal (s : State) (f : Fault) : (s.recordFault f).tdbal = s.tdbal := rfl
@[simp] theorem recordFault_tdbah (s : State) (f : Fault) : (s.recordFault f).tdbah = s.tdbah := rfl
@[simp] theorem recordFault_tdlen (s : State) (f : Fault) : (s.recordFault f).tdlen = s.tdlen := rfl
@[simp] theorem recordFault_tdh (s : State) (f : Fault) : (s.recordFault f).tdh = s.tdh := rfl
@[simp] theorem recordFault_tdt (s : State) (f : Fault) : (s.recordFault f).tdt = s.tdt := rfl
@[simp] theorem recordFault_rdbal (s : State) (f : Fault) : (s.recordFault f).rdbal = s.rdbal := rfl
@[simp] theorem recordFault_rdbah (s : State) (f : Fault) : (s.recordFault f).rdbah = s.rdbah := rfl
@[simp] theorem recordFault_rdlen (s : State) (f : Fault) : (s.recordFault f).rdlen = s.rdlen := rfl
@[simp] theorem recordFault_rdh (s : State) (f : Fault) : (s.recordFault f).rdh = s.rdh := rfl
@[simp] theorem recordFault_rdt (s : State) (f : Fault) : (s.recordFault f).rdt = s.rdt := rfl
@[simp] theorem recordFault_ral0 (s : State) (f : Fault) : (s.recordFault f).ral0 = s.ral0 := rfl
@[simp] theorem recordFault_rah0 (s : State) (f : Fault) : (s.recordFault f).rah0 = s.rah0 := rfl
@[simp] theorem recordFault_mta (s : State) (f : Fault) : (s.recordFault f).mta = s.mta := rfl
@[simp] theorem recordFault_mem (s : State) (f : Fault) : (s.recordFault f).mem = s.mem := rfl
@[simp] theorem recordFault_txLog (s : State) (f : Fault) : (s.recordFault f).txLog = s.txLog := rfl
@[simp] theorem recordFault_offer (s : State) (f : Fault) : (s.recordFault f).offer = s.offer := rfl
@[simp] theorem recordFault_faulted (s : State) (f : Fault) : (s.recordFault f).faulted = addMark f s.faulted := rfl
@[simp] theorem recordFault_refused (s : State) (f : Fault) : (s.recordFault f).refused = s.refused := rfl
@[simp] theorem recordFault_launch (s : State) (f : Fault) : (s.recordFault f).launch = s.launch := rfl
@[simp] theorem recordFault_hostRead (s : State) (f : Fault) : (s.recordFault f).hostRead = s.hostRead := rfl
@[simp] theorem recordFault_driver (s : State) (f : Fault) : (s.recordFault f).driver = s.driver := rfl
@[simp] theorem recordFault_turns (s : State) (f : Fault) : (s.recordFault f).turns = s.turns := rfl
@[simp] theorem recordFault_draws (s : State) (f : Fault) : (s.recordFault f).draws = s.draws := rfl
@[simp] theorem recordFault_rota (s : State) (f : Fault) : (s.recordFault f).rota = s.rota := rfl

/-! ### `s.recordRefusal r` -/

@[simp] theorem recordRefusal_ctrl (s : State) (r : Refusal) : (s.recordRefusal r).ctrl = s.ctrl := rfl
@[simp] theorem recordRefusal_tctl (s : State) (r : Refusal) : (s.recordRefusal r).tctl = s.tctl := rfl
@[simp] theorem recordRefusal_rctl (s : State) (r : Refusal) : (s.recordRefusal r).rctl = s.rctl := rfl
@[simp] theorem recordRefusal_im (s : State) (r : Refusal) : (s.recordRefusal r).im = s.im := rfl
@[simp] theorem recordRefusal_rxdw (s : State) (r : Refusal) : (s.recordRefusal r).rxdw = s.rxdw := rfl
@[simp] theorem recordRefusal_tdbal (s : State) (r : Refusal) : (s.recordRefusal r).tdbal = s.tdbal := rfl
@[simp] theorem recordRefusal_tdbah (s : State) (r : Refusal) : (s.recordRefusal r).tdbah = s.tdbah := rfl
@[simp] theorem recordRefusal_tdlen (s : State) (r : Refusal) : (s.recordRefusal r).tdlen = s.tdlen := rfl
@[simp] theorem recordRefusal_tdh (s : State) (r : Refusal) : (s.recordRefusal r).tdh = s.tdh := rfl
@[simp] theorem recordRefusal_tdt (s : State) (r : Refusal) : (s.recordRefusal r).tdt = s.tdt := rfl
@[simp] theorem recordRefusal_rdbal (s : State) (r : Refusal) : (s.recordRefusal r).rdbal = s.rdbal := rfl
@[simp] theorem recordRefusal_rdbah (s : State) (r : Refusal) : (s.recordRefusal r).rdbah = s.rdbah := rfl
@[simp] theorem recordRefusal_rdlen (s : State) (r : Refusal) : (s.recordRefusal r).rdlen = s.rdlen := rfl
@[simp] theorem recordRefusal_rdh (s : State) (r : Refusal) : (s.recordRefusal r).rdh = s.rdh := rfl
@[simp] theorem recordRefusal_rdt (s : State) (r : Refusal) : (s.recordRefusal r).rdt = s.rdt := rfl
@[simp] theorem recordRefusal_ral0 (s : State) (r : Refusal) : (s.recordRefusal r).ral0 = s.ral0 := rfl
@[simp] theorem recordRefusal_rah0 (s : State) (r : Refusal) : (s.recordRefusal r).rah0 = s.rah0 := rfl
@[simp] theorem recordRefusal_mta (s : State) (r : Refusal) : (s.recordRefusal r).mta = s.mta := rfl
@[simp] theorem recordRefusal_mem (s : State) (r : Refusal) : (s.recordRefusal r).mem = s.mem := rfl
@[simp] theorem recordRefusal_txLog (s : State) (r : Refusal) : (s.recordRefusal r).txLog = s.txLog := rfl
@[simp] theorem recordRefusal_offer (s : State) (r : Refusal) : (s.recordRefusal r).offer = s.offer := rfl
@[simp] theorem recordRefusal_faulted (s : State) (r : Refusal) : (s.recordRefusal r).faulted = s.faulted := rfl
@[simp] theorem recordRefusal_refused (s : State) (r : Refusal) : (s.recordRefusal r).refused = addMark r s.refused := rfl
@[simp] theorem recordRefusal_launch (s : State) (r : Refusal) : (s.recordRefusal r).launch = s.launch := rfl
@[simp] theorem recordRefusal_hostRead (s : State) (r : Refusal) : (s.recordRefusal r).hostRead = s.hostRead := rfl
@[simp] theorem recordRefusal_driver (s : State) (r : Refusal) : (s.recordRefusal r).driver = s.driver := rfl
@[simp] theorem recordRefusal_turns (s : State) (r : Refusal) : (s.recordRefusal r).turns = s.turns := rfl
@[simp] theorem recordRefusal_draws (s : State) (r : Refusal) : (s.recordRefusal r).draws = s.draws := rfl
@[simp] theorem recordRefusal_rota (s : State) (r : Refusal) : (s.recordRefusal r).rota = s.rota := rfl

/-! ### `raiseRxdw s` -/

@[simp] theorem raiseRxdw_ctrl (s : State) : (raiseRxdw s).ctrl = s.ctrl := rfl
@[simp] theorem raiseRxdw_tctl (s : State) : (raiseRxdw s).tctl = s.tctl := rfl
@[simp] theorem raiseRxdw_rctl (s : State) : (raiseRxdw s).rctl = s.rctl := rfl
@[simp] theorem raiseRxdw_im (s : State) : (raiseRxdw s).im = s.im := rfl
@[simp] theorem raiseRxdw_rxdw (s : State) : (raiseRxdw s).rxdw = true := rfl
@[simp] theorem raiseRxdw_tdbal (s : State) : (raiseRxdw s).tdbal = s.tdbal := rfl
@[simp] theorem raiseRxdw_tdbah (s : State) : (raiseRxdw s).tdbah = s.tdbah := rfl
@[simp] theorem raiseRxdw_tdlen (s : State) : (raiseRxdw s).tdlen = s.tdlen := rfl
@[simp] theorem raiseRxdw_tdh (s : State) : (raiseRxdw s).tdh = s.tdh := rfl
@[simp] theorem raiseRxdw_tdt (s : State) : (raiseRxdw s).tdt = s.tdt := rfl
@[simp] theorem raiseRxdw_rdbal (s : State) : (raiseRxdw s).rdbal = s.rdbal := rfl
@[simp] theorem raiseRxdw_rdbah (s : State) : (raiseRxdw s).rdbah = s.rdbah := rfl
@[simp] theorem raiseRxdw_rdlen (s : State) : (raiseRxdw s).rdlen = s.rdlen := rfl
@[simp] theorem raiseRxdw_rdh (s : State) : (raiseRxdw s).rdh = s.rdh := rfl
@[simp] theorem raiseRxdw_rdt (s : State) : (raiseRxdw s).rdt = s.rdt := rfl
@[simp] theorem raiseRxdw_ral0 (s : State) : (raiseRxdw s).ral0 = s.ral0 := rfl
@[simp] theorem raiseRxdw_rah0 (s : State) : (raiseRxdw s).rah0 = s.rah0 := rfl
@[simp] theorem raiseRxdw_mta (s : State) : (raiseRxdw s).mta = s.mta := rfl
@[simp] theorem raiseRxdw_mem (s : State) : (raiseRxdw s).mem = s.mem := rfl
@[simp] theorem raiseRxdw_txLog (s : State) : (raiseRxdw s).txLog = s.txLog := rfl
@[simp] theorem raiseRxdw_offer (s : State) : (raiseRxdw s).offer = s.offer := rfl
@[simp] theorem raiseRxdw_faulted (s : State) : (raiseRxdw s).faulted = s.faulted := rfl
@[simp] theorem raiseRxdw_refused (s : State) : (raiseRxdw s).refused = s.refused := rfl
@[simp] theorem raiseRxdw_launch (s : State) : (raiseRxdw s).launch = s.launch := rfl
@[simp] theorem raiseRxdw_hostRead (s : State) : (raiseRxdw s).hostRead = s.hostRead := rfl
@[simp] theorem raiseRxdw_driver (s : State) : (raiseRxdw s).driver = s.driver := rfl
@[simp] theorem raiseRxdw_turns (s : State) : (raiseRxdw s).turns = s.turns := rfl
@[simp] theorem raiseRxdw_draws (s : State) : (raiseRxdw s).draws = s.draws := rfl
@[simp] theorem raiseRxdw_rota (s : State) : (raiseRxdw s).rota = s.rota := rfl

/-! ### `clearRxdw s` -/

@[simp] theorem clearRxdw_ctrl (s : State) : (clearRxdw s).ctrl = s.ctrl := rfl
@[simp] theorem clearRxdw_tctl (s : State) : (clearRxdw s).tctl = s.tctl := rfl
@[simp] theorem clearRxdw_rctl (s : State) : (clearRxdw s).rctl = s.rctl := rfl
@[simp] theorem clearRxdw_im (s : State) : (clearRxdw s).im = s.im := rfl
@[simp] theorem clearRxdw_rxdw (s : State) : (clearRxdw s).rxdw = false := rfl
@[simp] theorem clearRxdw_tdbal (s : State) : (clearRxdw s).tdbal = s.tdbal := rfl
@[simp] theorem clearRxdw_tdbah (s : State) : (clearRxdw s).tdbah = s.tdbah := rfl
@[simp] theorem clearRxdw_tdlen (s : State) : (clearRxdw s).tdlen = s.tdlen := rfl
@[simp] theorem clearRxdw_tdh (s : State) : (clearRxdw s).tdh = s.tdh := rfl
@[simp] theorem clearRxdw_tdt (s : State) : (clearRxdw s).tdt = s.tdt := rfl
@[simp] theorem clearRxdw_rdbal (s : State) : (clearRxdw s).rdbal = s.rdbal := rfl
@[simp] theorem clearRxdw_rdbah (s : State) : (clearRxdw s).rdbah = s.rdbah := rfl
@[simp] theorem clearRxdw_rdlen (s : State) : (clearRxdw s).rdlen = s.rdlen := rfl
@[simp] theorem clearRxdw_rdh (s : State) : (clearRxdw s).rdh = s.rdh := rfl
@[simp] theorem clearRxdw_rdt (s : State) : (clearRxdw s).rdt = s.rdt := rfl
@[simp] theorem clearRxdw_ral0 (s : State) : (clearRxdw s).ral0 = s.ral0 := rfl
@[simp] theorem clearRxdw_rah0 (s : State) : (clearRxdw s).rah0 = s.rah0 := rfl
@[simp] theorem clearRxdw_mta (s : State) : (clearRxdw s).mta = s.mta := rfl
@[simp] theorem clearRxdw_mem (s : State) : (clearRxdw s).mem = s.mem := rfl
@[simp] theorem clearRxdw_txLog (s : State) : (clearRxdw s).txLog = s.txLog := rfl
@[simp] theorem clearRxdw_offer (s : State) : (clearRxdw s).offer = s.offer := rfl
@[simp] theorem clearRxdw_faulted (s : State) : (clearRxdw s).faulted = s.faulted := rfl
@[simp] theorem clearRxdw_refused (s : State) : (clearRxdw s).refused = s.refused := rfl
@[simp] theorem clearRxdw_launch (s : State) : (clearRxdw s).launch = s.launch := rfl
@[simp] theorem clearRxdw_hostRead (s : State) : (clearRxdw s).hostRead = s.hostRead := rfl
@[simp] theorem clearRxdw_driver (s : State) : (clearRxdw s).driver = s.driver := rfl
@[simp] theorem clearRxdw_turns (s : State) : (clearRxdw s).turns = s.turns := rfl
@[simp] theorem clearRxdw_draws (s : State) : (clearRxdw s).draws = s.draws := rfl
@[simp] theorem clearRxdw_rota (s : State) : (clearRxdw s).rota = s.rota := rfl

/-! ### `s.setHead .tx v` -/

@[simp] theorem setHead_tx_ctrl (s : State) (v : Word) : (s.setHead .tx v).ctrl = s.ctrl := rfl
@[simp] theorem setHead_tx_tctl (s : State) (v : Word) : (s.setHead .tx v).tctl = s.tctl := rfl
@[simp] theorem setHead_tx_rctl (s : State) (v : Word) : (s.setHead .tx v).rctl = s.rctl := rfl
@[simp] theorem setHead_tx_im (s : State) (v : Word) : (s.setHead .tx v).im = s.im := rfl
@[simp] theorem setHead_tx_rxdw (s : State) (v : Word) : (s.setHead .tx v).rxdw = s.rxdw := rfl
@[simp] theorem setHead_tx_tdbal (s : State) (v : Word) : (s.setHead .tx v).tdbal = s.tdbal := rfl
@[simp] theorem setHead_tx_tdbah (s : State) (v : Word) : (s.setHead .tx v).tdbah = s.tdbah := rfl
@[simp] theorem setHead_tx_tdlen (s : State) (v : Word) : (s.setHead .tx v).tdlen = s.tdlen := rfl
@[simp] theorem setHead_tx_tdh (s : State) (v : Word) : (s.setHead .tx v).tdh = v := rfl
@[simp] theorem setHead_tx_tdt (s : State) (v : Word) : (s.setHead .tx v).tdt = s.tdt := rfl
@[simp] theorem setHead_tx_rdbal (s : State) (v : Word) : (s.setHead .tx v).rdbal = s.rdbal := rfl
@[simp] theorem setHead_tx_rdbah (s : State) (v : Word) : (s.setHead .tx v).rdbah = s.rdbah := rfl
@[simp] theorem setHead_tx_rdlen (s : State) (v : Word) : (s.setHead .tx v).rdlen = s.rdlen := rfl
@[simp] theorem setHead_tx_rdh (s : State) (v : Word) : (s.setHead .tx v).rdh = s.rdh := rfl
@[simp] theorem setHead_tx_rdt (s : State) (v : Word) : (s.setHead .tx v).rdt = s.rdt := rfl
@[simp] theorem setHead_tx_ral0 (s : State) (v : Word) : (s.setHead .tx v).ral0 = s.ral0 := rfl
@[simp] theorem setHead_tx_rah0 (s : State) (v : Word) : (s.setHead .tx v).rah0 = s.rah0 := rfl
@[simp] theorem setHead_tx_mta (s : State) (v : Word) : (s.setHead .tx v).mta = s.mta := rfl
@[simp] theorem setHead_tx_mem (s : State) (v : Word) : (s.setHead .tx v).mem = s.mem := rfl
@[simp] theorem setHead_tx_txLog (s : State) (v : Word) : (s.setHead .tx v).txLog = s.txLog := rfl
@[simp] theorem setHead_tx_offer (s : State) (v : Word) : (s.setHead .tx v).offer = s.offer := rfl
@[simp] theorem setHead_tx_faulted (s : State) (v : Word) : (s.setHead .tx v).faulted = s.faulted := rfl
@[simp] theorem setHead_tx_refused (s : State) (v : Word) : (s.setHead .tx v).refused = s.refused := rfl
@[simp] theorem setHead_tx_launch (s : State) (v : Word) : (s.setHead .tx v).launch = s.launch := rfl
@[simp] theorem setHead_tx_hostRead (s : State) (v : Word) : (s.setHead .tx v).hostRead = s.hostRead := rfl
@[simp] theorem setHead_tx_driver (s : State) (v : Word) : (s.setHead .tx v).driver = s.driver := rfl
@[simp] theorem setHead_tx_turns (s : State) (v : Word) : (s.setHead .tx v).turns = s.turns := rfl
@[simp] theorem setHead_tx_draws (s : State) (v : Word) : (s.setHead .tx v).draws = s.draws := rfl
@[simp] theorem setHead_tx_rota (s : State) (v : Word) : (s.setHead .tx v).rota = s.rota := rfl

/-! ### `s.setHead .rx v` -/

@[simp] theorem setHead_rx_ctrl (s : State) (v : Word) : (s.setHead .rx v).ctrl = s.ctrl := rfl
@[simp] theorem setHead_rx_tctl (s : State) (v : Word) : (s.setHead .rx v).tctl = s.tctl := rfl
@[simp] theorem setHead_rx_rctl (s : State) (v : Word) : (s.setHead .rx v).rctl = s.rctl := rfl
@[simp] theorem setHead_rx_im (s : State) (v : Word) : (s.setHead .rx v).im = s.im := rfl
@[simp] theorem setHead_rx_rxdw (s : State) (v : Word) : (s.setHead .rx v).rxdw = s.rxdw := rfl
@[simp] theorem setHead_rx_tdbal (s : State) (v : Word) : (s.setHead .rx v).tdbal = s.tdbal := rfl
@[simp] theorem setHead_rx_tdbah (s : State) (v : Word) : (s.setHead .rx v).tdbah = s.tdbah := rfl
@[simp] theorem setHead_rx_tdlen (s : State) (v : Word) : (s.setHead .rx v).tdlen = s.tdlen := rfl
@[simp] theorem setHead_rx_tdh (s : State) (v : Word) : (s.setHead .rx v).tdh = s.tdh := rfl
@[simp] theorem setHead_rx_tdt (s : State) (v : Word) : (s.setHead .rx v).tdt = s.tdt := rfl
@[simp] theorem setHead_rx_rdbal (s : State) (v : Word) : (s.setHead .rx v).rdbal = s.rdbal := rfl
@[simp] theorem setHead_rx_rdbah (s : State) (v : Word) : (s.setHead .rx v).rdbah = s.rdbah := rfl
@[simp] theorem setHead_rx_rdlen (s : State) (v : Word) : (s.setHead .rx v).rdlen = s.rdlen := rfl
@[simp] theorem setHead_rx_rdh (s : State) (v : Word) : (s.setHead .rx v).rdh = v := rfl
@[simp] theorem setHead_rx_rdt (s : State) (v : Word) : (s.setHead .rx v).rdt = s.rdt := rfl
@[simp] theorem setHead_rx_ral0 (s : State) (v : Word) : (s.setHead .rx v).ral0 = s.ral0 := rfl
@[simp] theorem setHead_rx_rah0 (s : State) (v : Word) : (s.setHead .rx v).rah0 = s.rah0 := rfl
@[simp] theorem setHead_rx_mta (s : State) (v : Word) : (s.setHead .rx v).mta = s.mta := rfl
@[simp] theorem setHead_rx_mem (s : State) (v : Word) : (s.setHead .rx v).mem = s.mem := rfl
@[simp] theorem setHead_rx_txLog (s : State) (v : Word) : (s.setHead .rx v).txLog = s.txLog := rfl
@[simp] theorem setHead_rx_offer (s : State) (v : Word) : (s.setHead .rx v).offer = s.offer := rfl
@[simp] theorem setHead_rx_faulted (s : State) (v : Word) : (s.setHead .rx v).faulted = s.faulted := rfl
@[simp] theorem setHead_rx_refused (s : State) (v : Word) : (s.setHead .rx v).refused = s.refused := rfl
@[simp] theorem setHead_rx_launch (s : State) (v : Word) : (s.setHead .rx v).launch = s.launch := rfl
@[simp] theorem setHead_rx_hostRead (s : State) (v : Word) : (s.setHead .rx v).hostRead = s.hostRead := rfl
@[simp] theorem setHead_rx_driver (s : State) (v : Word) : (s.setHead .rx v).driver = s.driver := rfl
@[simp] theorem setHead_rx_turns (s : State) (v : Word) : (s.setHead .rx v).turns = s.turns := rfl
@[simp] theorem setHead_rx_draws (s : State) (v : Word) : (s.setHead .rx v).draws = s.draws := rfl
@[simp] theorem setHead_rx_rota (s : State) (v : Word) : (s.setHead .rx v).rota = s.rota := rfl

/-! ### `s.setTail .tx v` -/

@[simp] theorem setTail_tx_ctrl (s : State) (v : Word) : (s.setTail .tx v).ctrl = s.ctrl := rfl
@[simp] theorem setTail_tx_tctl (s : State) (v : Word) : (s.setTail .tx v).tctl = s.tctl := rfl
@[simp] theorem setTail_tx_rctl (s : State) (v : Word) : (s.setTail .tx v).rctl = s.rctl := rfl
@[simp] theorem setTail_tx_im (s : State) (v : Word) : (s.setTail .tx v).im = s.im := rfl
@[simp] theorem setTail_tx_rxdw (s : State) (v : Word) : (s.setTail .tx v).rxdw = s.rxdw := rfl
@[simp] theorem setTail_tx_tdbal (s : State) (v : Word) : (s.setTail .tx v).tdbal = s.tdbal := rfl
@[simp] theorem setTail_tx_tdbah (s : State) (v : Word) : (s.setTail .tx v).tdbah = s.tdbah := rfl
@[simp] theorem setTail_tx_tdlen (s : State) (v : Word) : (s.setTail .tx v).tdlen = s.tdlen := rfl
@[simp] theorem setTail_tx_tdh (s : State) (v : Word) : (s.setTail .tx v).tdh = s.tdh := rfl
@[simp] theorem setTail_tx_tdt (s : State) (v : Word) : (s.setTail .tx v).tdt = v := rfl
@[simp] theorem setTail_tx_rdbal (s : State) (v : Word) : (s.setTail .tx v).rdbal = s.rdbal := rfl
@[simp] theorem setTail_tx_rdbah (s : State) (v : Word) : (s.setTail .tx v).rdbah = s.rdbah := rfl
@[simp] theorem setTail_tx_rdlen (s : State) (v : Word) : (s.setTail .tx v).rdlen = s.rdlen := rfl
@[simp] theorem setTail_tx_rdh (s : State) (v : Word) : (s.setTail .tx v).rdh = s.rdh := rfl
@[simp] theorem setTail_tx_rdt (s : State) (v : Word) : (s.setTail .tx v).rdt = s.rdt := rfl
@[simp] theorem setTail_tx_ral0 (s : State) (v : Word) : (s.setTail .tx v).ral0 = s.ral0 := rfl
@[simp] theorem setTail_tx_rah0 (s : State) (v : Word) : (s.setTail .tx v).rah0 = s.rah0 := rfl
@[simp] theorem setTail_tx_mta (s : State) (v : Word) : (s.setTail .tx v).mta = s.mta := rfl
@[simp] theorem setTail_tx_mem (s : State) (v : Word) : (s.setTail .tx v).mem = s.mem := rfl
@[simp] theorem setTail_tx_txLog (s : State) (v : Word) : (s.setTail .tx v).txLog = s.txLog := rfl
@[simp] theorem setTail_tx_offer (s : State) (v : Word) : (s.setTail .tx v).offer = s.offer := rfl
@[simp] theorem setTail_tx_faulted (s : State) (v : Word) : (s.setTail .tx v).faulted = s.faulted := rfl
@[simp] theorem setTail_tx_refused (s : State) (v : Word) : (s.setTail .tx v).refused = s.refused := rfl
@[simp] theorem setTail_tx_launch (s : State) (v : Word) : (s.setTail .tx v).launch = s.launch := rfl
@[simp] theorem setTail_tx_hostRead (s : State) (v : Word) : (s.setTail .tx v).hostRead = s.hostRead := rfl
@[simp] theorem setTail_tx_driver (s : State) (v : Word) : (s.setTail .tx v).driver = s.driver := rfl
@[simp] theorem setTail_tx_turns (s : State) (v : Word) : (s.setTail .tx v).turns = s.turns := rfl
@[simp] theorem setTail_tx_draws (s : State) (v : Word) : (s.setTail .tx v).draws = s.draws := rfl
@[simp] theorem setTail_tx_rota (s : State) (v : Word) : (s.setTail .tx v).rota = s.rota := rfl

/-! ### `s.setTail .rx v` -/

@[simp] theorem setTail_rx_ctrl (s : State) (v : Word) : (s.setTail .rx v).ctrl = s.ctrl := rfl
@[simp] theorem setTail_rx_tctl (s : State) (v : Word) : (s.setTail .rx v).tctl = s.tctl := rfl
@[simp] theorem setTail_rx_rctl (s : State) (v : Word) : (s.setTail .rx v).rctl = s.rctl := rfl
@[simp] theorem setTail_rx_im (s : State) (v : Word) : (s.setTail .rx v).im = s.im := rfl
@[simp] theorem setTail_rx_rxdw (s : State) (v : Word) : (s.setTail .rx v).rxdw = s.rxdw := rfl
@[simp] theorem setTail_rx_tdbal (s : State) (v : Word) : (s.setTail .rx v).tdbal = s.tdbal := rfl
@[simp] theorem setTail_rx_tdbah (s : State) (v : Word) : (s.setTail .rx v).tdbah = s.tdbah := rfl
@[simp] theorem setTail_rx_tdlen (s : State) (v : Word) : (s.setTail .rx v).tdlen = s.tdlen := rfl
@[simp] theorem setTail_rx_tdh (s : State) (v : Word) : (s.setTail .rx v).tdh = s.tdh := rfl
@[simp] theorem setTail_rx_tdt (s : State) (v : Word) : (s.setTail .rx v).tdt = s.tdt := rfl
@[simp] theorem setTail_rx_rdbal (s : State) (v : Word) : (s.setTail .rx v).rdbal = s.rdbal := rfl
@[simp] theorem setTail_rx_rdbah (s : State) (v : Word) : (s.setTail .rx v).rdbah = s.rdbah := rfl
@[simp] theorem setTail_rx_rdlen (s : State) (v : Word) : (s.setTail .rx v).rdlen = s.rdlen := rfl
@[simp] theorem setTail_rx_rdh (s : State) (v : Word) : (s.setTail .rx v).rdh = s.rdh := rfl
@[simp] theorem setTail_rx_rdt (s : State) (v : Word) : (s.setTail .rx v).rdt = v := rfl
@[simp] theorem setTail_rx_ral0 (s : State) (v : Word) : (s.setTail .rx v).ral0 = s.ral0 := rfl
@[simp] theorem setTail_rx_rah0 (s : State) (v : Word) : (s.setTail .rx v).rah0 = s.rah0 := rfl
@[simp] theorem setTail_rx_mta (s : State) (v : Word) : (s.setTail .rx v).mta = s.mta := rfl
@[simp] theorem setTail_rx_mem (s : State) (v : Word) : (s.setTail .rx v).mem = s.mem := rfl
@[simp] theorem setTail_rx_txLog (s : State) (v : Word) : (s.setTail .rx v).txLog = s.txLog := rfl
@[simp] theorem setTail_rx_offer (s : State) (v : Word) : (s.setTail .rx v).offer = s.offer := rfl
@[simp] theorem setTail_rx_faulted (s : State) (v : Word) : (s.setTail .rx v).faulted = s.faulted := rfl
@[simp] theorem setTail_rx_refused (s : State) (v : Word) : (s.setTail .rx v).refused = s.refused := rfl
@[simp] theorem setTail_rx_launch (s : State) (v : Word) : (s.setTail .rx v).launch = s.launch := rfl
@[simp] theorem setTail_rx_hostRead (s : State) (v : Word) : (s.setTail .rx v).hostRead = s.hostRead := rfl
@[simp] theorem setTail_rx_driver (s : State) (v : Word) : (s.setTail .rx v).driver = s.driver := rfl
@[simp] theorem setTail_rx_turns (s : State) (v : Word) : (s.setTail .rx v).turns = s.turns := rfl
@[simp] theorem setTail_rx_draws (s : State) (v : Word) : (s.setTail .rx v).draws = s.draws := rfl
@[simp] theorem setTail_rx_rota (s : State) (v : Word) : (s.setTail .rx v).rota = s.rota := rfl

/-! ### `advanceHead .tx s` -/

@[simp] theorem advanceHead_tx_ctrl (s : State) : (advanceHead .tx s).ctrl = s.ctrl := rfl
@[simp] theorem advanceHead_tx_tctl (s : State) : (advanceHead .tx s).tctl = s.tctl := rfl
@[simp] theorem advanceHead_tx_rctl (s : State) : (advanceHead .tx s).rctl = s.rctl := rfl
@[simp] theorem advanceHead_tx_im (s : State) : (advanceHead .tx s).im = s.im := rfl
@[simp] theorem advanceHead_tx_rxdw (s : State) : (advanceHead .tx s).rxdw = s.rxdw := rfl
@[simp] theorem advanceHead_tx_tdbal (s : State) : (advanceHead .tx s).tdbal = s.tdbal := rfl
@[simp] theorem advanceHead_tx_tdbah (s : State) : (advanceHead .tx s).tdbah = s.tdbah := rfl
@[simp] theorem advanceHead_tx_tdlen (s : State) : (advanceHead .tx s).tdlen = s.tdlen := rfl
@[simp] theorem advanceHead_tx_tdh (s : State) : (advanceHead .tx s).tdh = idxWord (ringNext (ringCap .tx s) (ringHead .tx s)) := rfl
@[simp] theorem advanceHead_tx_tdt (s : State) : (advanceHead .tx s).tdt = s.tdt := rfl
@[simp] theorem advanceHead_tx_rdbal (s : State) : (advanceHead .tx s).rdbal = s.rdbal := rfl
@[simp] theorem advanceHead_tx_rdbah (s : State) : (advanceHead .tx s).rdbah = s.rdbah := rfl
@[simp] theorem advanceHead_tx_rdlen (s : State) : (advanceHead .tx s).rdlen = s.rdlen := rfl
@[simp] theorem advanceHead_tx_rdh (s : State) : (advanceHead .tx s).rdh = s.rdh := rfl
@[simp] theorem advanceHead_tx_rdt (s : State) : (advanceHead .tx s).rdt = s.rdt := rfl
@[simp] theorem advanceHead_tx_ral0 (s : State) : (advanceHead .tx s).ral0 = s.ral0 := rfl
@[simp] theorem advanceHead_tx_rah0 (s : State) : (advanceHead .tx s).rah0 = s.rah0 := rfl
@[simp] theorem advanceHead_tx_mta (s : State) : (advanceHead .tx s).mta = s.mta := rfl
@[simp] theorem advanceHead_tx_mem (s : State) : (advanceHead .tx s).mem = s.mem := rfl
@[simp] theorem advanceHead_tx_txLog (s : State) : (advanceHead .tx s).txLog = s.txLog := rfl
@[simp] theorem advanceHead_tx_offer (s : State) : (advanceHead .tx s).offer = s.offer := rfl
@[simp] theorem advanceHead_tx_faulted (s : State) : (advanceHead .tx s).faulted = s.faulted := rfl
@[simp] theorem advanceHead_tx_refused (s : State) : (advanceHead .tx s).refused = s.refused := rfl
@[simp] theorem advanceHead_tx_launch (s : State) : (advanceHead .tx s).launch = s.launch := rfl
@[simp] theorem advanceHead_tx_hostRead (s : State) : (advanceHead .tx s).hostRead = s.hostRead := rfl
@[simp] theorem advanceHead_tx_driver (s : State) : (advanceHead .tx s).driver = s.driver := rfl
@[simp] theorem advanceHead_tx_turns (s : State) : (advanceHead .tx s).turns = s.turns := rfl
@[simp] theorem advanceHead_tx_draws (s : State) : (advanceHead .tx s).draws = s.draws := rfl
@[simp] theorem advanceHead_tx_rota (s : State) : (advanceHead .tx s).rota = s.rota := rfl

/-! ### `advanceHead .rx s` -/

@[simp] theorem advanceHead_rx_ctrl (s : State) : (advanceHead .rx s).ctrl = s.ctrl := rfl
@[simp] theorem advanceHead_rx_tctl (s : State) : (advanceHead .rx s).tctl = s.tctl := rfl
@[simp] theorem advanceHead_rx_rctl (s : State) : (advanceHead .rx s).rctl = s.rctl := rfl
@[simp] theorem advanceHead_rx_im (s : State) : (advanceHead .rx s).im = s.im := rfl
@[simp] theorem advanceHead_rx_rxdw (s : State) : (advanceHead .rx s).rxdw = s.rxdw := rfl
@[simp] theorem advanceHead_rx_tdbal (s : State) : (advanceHead .rx s).tdbal = s.tdbal := rfl
@[simp] theorem advanceHead_rx_tdbah (s : State) : (advanceHead .rx s).tdbah = s.tdbah := rfl
@[simp] theorem advanceHead_rx_tdlen (s : State) : (advanceHead .rx s).tdlen = s.tdlen := rfl
@[simp] theorem advanceHead_rx_tdh (s : State) : (advanceHead .rx s).tdh = s.tdh := rfl
@[simp] theorem advanceHead_rx_tdt (s : State) : (advanceHead .rx s).tdt = s.tdt := rfl
@[simp] theorem advanceHead_rx_rdbal (s : State) : (advanceHead .rx s).rdbal = s.rdbal := rfl
@[simp] theorem advanceHead_rx_rdbah (s : State) : (advanceHead .rx s).rdbah = s.rdbah := rfl
@[simp] theorem advanceHead_rx_rdlen (s : State) : (advanceHead .rx s).rdlen = s.rdlen := rfl
@[simp] theorem advanceHead_rx_rdh (s : State) : (advanceHead .rx s).rdh = idxWord (ringNext (ringCap .rx s) (ringHead .rx s)) := rfl
@[simp] theorem advanceHead_rx_rdt (s : State) : (advanceHead .rx s).rdt = s.rdt := rfl
@[simp] theorem advanceHead_rx_ral0 (s : State) : (advanceHead .rx s).ral0 = s.ral0 := rfl
@[simp] theorem advanceHead_rx_rah0 (s : State) : (advanceHead .rx s).rah0 = s.rah0 := rfl
@[simp] theorem advanceHead_rx_mta (s : State) : (advanceHead .rx s).mta = s.mta := rfl
@[simp] theorem advanceHead_rx_mem (s : State) : (advanceHead .rx s).mem = s.mem := rfl
@[simp] theorem advanceHead_rx_txLog (s : State) : (advanceHead .rx s).txLog = s.txLog := rfl
@[simp] theorem advanceHead_rx_offer (s : State) : (advanceHead .rx s).offer = s.offer := rfl
@[simp] theorem advanceHead_rx_faulted (s : State) : (advanceHead .rx s).faulted = s.faulted := rfl
@[simp] theorem advanceHead_rx_refused (s : State) : (advanceHead .rx s).refused = s.refused := rfl
@[simp] theorem advanceHead_rx_launch (s : State) : (advanceHead .rx s).launch = s.launch := rfl
@[simp] theorem advanceHead_rx_hostRead (s : State) : (advanceHead .rx s).hostRead = s.hostRead := rfl
@[simp] theorem advanceHead_rx_driver (s : State) : (advanceHead .rx s).driver = s.driver := rfl
@[simp] theorem advanceHead_rx_turns (s : State) : (advanceHead .rx s).turns = s.turns := rfl
@[simp] theorem advanceHead_rx_draws (s : State) : (advanceHead .rx s).draws = s.draws := rfl
@[simp] theorem advanceHead_rx_rota (s : State) : (advanceHead .rx s).rota = s.rota := rfl

/-! ### `resetBlock s` -/

@[simp] theorem resetBlock_ctrl (s : State) : (resetBlock s).ctrl = Config.freeWord s.draws &&& ~~~maskRst := rfl
@[simp] theorem resetBlock_tctl (s : State) : (resetBlock s).tctl = Config.freeWord (s.draws + 1) &&& ~~~maskTxEn := rfl
@[simp] theorem resetBlock_rctl (s : State) : (resetBlock s).rctl = Config.freeWord (s.draws + 2) &&& ~~~(maskRxEn ||| maskBsize ||| maskSecrc) := rfl
@[simp] theorem resetBlock_im (s : State) : (resetBlock s).im = Config.freeWord (s.draws + 3) := rfl
@[simp] theorem resetBlock_rxdw (s : State) : (resetBlock s).rxdw = false := rfl
@[simp] theorem resetBlock_tdbal (s : State) : (resetBlock s).tdbal = Config.freeWord (s.draws + 4) &&& maskBaseLo := rfl
@[simp] theorem resetBlock_tdbah (s : State) : (resetBlock s).tdbah = Config.freeWord (s.draws + 5) := rfl
@[simp] theorem resetBlock_tdlen (s : State) : (resetBlock s).tdlen = 0 := rfl
@[simp] theorem resetBlock_tdh (s : State) : (resetBlock s).tdh = 0 := rfl
@[simp] theorem resetBlock_tdt (s : State) : (resetBlock s).tdt = 0 := rfl
@[simp] theorem resetBlock_rdbal (s : State) : (resetBlock s).rdbal = Config.freeWord (s.draws + 6) &&& maskBaseLo := rfl
@[simp] theorem resetBlock_rdbah (s : State) : (resetBlock s).rdbah = Config.freeWord (s.draws + 7) := rfl
@[simp] theorem resetBlock_rdlen (s : State) : (resetBlock s).rdlen = 0 := rfl
@[simp] theorem resetBlock_rdh (s : State) : (resetBlock s).rdh = 0 := rfl
@[simp] theorem resetBlock_rdt (s : State) : (resetBlock s).rdt = 0 := rfl
@[simp] theorem resetBlock_ral0 (s : State) : (resetBlock s).ral0 = Config.freeWord (s.draws + 8) := rfl
@[simp] theorem resetBlock_rah0 (s : State) : (resetBlock s).rah0 = Config.freeWord (s.draws + 9) := rfl
@[simp] theorem resetBlock_mta (s : State) : (resetBlock s).mta = Vector.ofFn fun k : MtaIdx => Config.freeWord (s.draws + 10 + k.val) := rfl
@[simp] theorem resetBlock_mem (s : State) : (resetBlock s).mem = s.mem := rfl
@[simp] theorem resetBlock_txLog (s : State) : (resetBlock s).txLog = s.txLog := rfl
@[simp] theorem resetBlock_offer (s : State) : (resetBlock s).offer = s.offer := rfl
@[simp] theorem resetBlock_faulted (s : State) : (resetBlock s).faulted = s.faulted := rfl
@[simp] theorem resetBlock_refused (s : State) : (resetBlock s).refused = s.refused := rfl
@[simp] theorem resetBlock_launch (s : State) : (resetBlock s).launch = s.launch := rfl
@[simp] theorem resetBlock_hostRead (s : State) : (resetBlock s).hostRead = s.hostRead := rfl
@[simp] theorem resetBlock_driver (s : State) : (resetBlock s).driver = s.driver := rfl
@[simp] theorem resetBlock_turns (s : State) : (resetBlock s).turns = s.turns := rfl
@[simp] theorem resetBlock_draws (s : State) : (resetBlock s).draws = s.draws + (10 + config.mtaEntries) := rfl
@[simp] theorem resetBlock_rota (s : State) : (resetBlock s).rota = s.rota := rfl

end Sys2Proof.Laws
end

