-- ==== Sys2Proof/Laws/Ops.lean ====
section
/-! SUPPORT. What the shared operations can do: one lemma each, which later proofs cite instead of unfolding. -/

namespace Sys2Proof.Laws

open Sys2Proof.Machine

/-! ### Guarded writes and reads -/

@[simp] theorem writeUnless_next {l : Bool} {w : Refusal} {t u : State} :
    writeUnless l w t = .next u ↔ l = false ∧ u = t := by
  unfold writeUnless; cases l <;> simp [eq_comm]

@[simp] theorem writeUnless_false (w : Refusal) (t : State) : writeUnless false w t = .next t := rfl

@[simp] theorem writeUnless_true (w : Refusal) (t : State) : writeUnless true w t = .refused w := rfl

@[simp] theorem readReg_next {v : Word} {s u : State} : readReg v s = .next u ↔ u = s.gotWord v := by
  simp [readReg, eq_comm]

@[simp] theorem stop_outcome_ne_next (x : Stop) (t : State) : x.outcome ≠ .next t := by
  cases x <;> simp [Stop.outcome]

theorem writeEnable_next {e : Engine} {v : Word} {s t u : State} (h : writeEnable e v s t = .next u) :
    u = t ∧ (engineOn e s = false → enBit e v = true → ringHead e s < ringCap e s ∧ ringTail e s < ringCap e s) := by
  unfold writeEnable at h
  split at h
  · simp at h
  · next hc =>
    refine ⟨by simpa using h.symm, fun h1 h2 => ?_⟩
    simp only [h1, h2, enableCheck, Bool.not_false, Bool.and_self, if_true] at hc
    split at hc <;> [simp at hc; split at hc <;> [simp at hc; omega]]

theorem writeTail_next {e : Engine} {v : Word} {s u : State} (h : writeTail e v s = .next u) :
    u = s.setTail e (v &&& maskIdx) ∧ (engineOn e s = true → idxOf v < ringCap e s) := by
  simp only [writeTail, writeUnless_next, Bool.or_eq_false_iff, Bool.and_eq_false_iff] at h
  refine ⟨h.2, fun h1 => ?_⟩
  rcases h.1.1 with h2 | h2 <;> simp_all

/-! ### DMA -/

theorem dmaOutside_none {s : State} {a n : Nat} : dmaOutside s a n = none ↔ dmaAll s a n := by
  simp [dmaOutside, dmaAll]

theorem dmaCheck_ok {e : Engine} {a n : Nat} {s : State} : dmaCheck e a n s = .ok () ↔ dmaAll s a n := by
  rw [← dmaOutside_none]
  unfold dmaCheck
  split <;> simp_all

theorem unwritten_none {s : State} {a n : Nat} :
    unwritten s a n = none ↔ ∀ k < n, Memory.find s.mem (a + k) ≠ none := by
  simp [unwritten]

theorem peekBytes_length (s : State) (a n : Nat) : (peekBytes s a n).length = n := by simp [peekBytes]

theorem peek_of_find {s : State} {a : Nat} {b : Byte} (h : Memory.find s.mem a = some b) : peek s a = b := by
  simp [peek, h]

/-- Bytes that memory holds are the bytes read. -/
theorem peekBytes_of_holds {s : State} {a : Nat} {bs : List Byte} (h : holds s a bs) :
    peekBytes s a bs.length = bs := by
  apply List.ext_getElem (by simp [peekBytes])
  intro k h1 h2
  simp only [peekBytes, List.getElem_map, List.getElem_range]
  exact peek_of_find (h k h2)

/-- An engine's read: every byte admitted and written, and the bytes memory holds. -/
theorem dmaRead_ok {e : Engine} {a n : Nat} {s : State} {bs : List Byte} :
    dmaRead e a n s = .ok bs ↔ dmaAll s a n ∧ bs.length = n ∧ holds s a bs := by
  unfold dmaRead
  constructor
  · intro h
    split at h
    · simp at h
    · next hc =>
      split at h
      · simp at h
      · next hu =>
        simp only [Except.ok.injEq] at h
        subst h
        refine ⟨dmaCheck_ok.1 hc, peekBytes_length .., fun k hk => ?_⟩
        rw [peekBytes_length] at hk
        have := unwritten_none.1 hu k hk
        obtain ⟨b, hb⟩ := Option.ne_none_iff_exists'.1 this
        simp [peekBytes, hb, peek]
  · rintro ⟨h1, rfl, h3⟩
    rw [dmaCheck_ok.2 h1]
    have hu : unwritten s a bs.length = none := by
      rw [unwritten_none]
      intro k hk
      simp [h3 k hk]
    simp only [hu, peekBytes_of_holds h3]

theorem dmaWrite_ok {e : Engine} {a : Nat} {bs : List Byte} {s t : State} :
    dmaWrite e a bs s = .ok t ↔ dmaAll s a bs.length ∧ t = s.store a bs := by
  unfold dmaWrite
  constructor
  · intro h
    split at h
    · simp at h
    · next hc => exact ⟨dmaCheck_ok.1 hc, by simpa using h.symm⟩
  · rintro ⟨h1, rfl⟩
    rw [dmaCheck_ok.2 h1]

theorem dmaAdmits_lt {s : State} {a : Nat} (h : dmaAdmits s a = true) : a < spaceSize := by
  simp only [dmaAdmits, Bool.and_eq_true, decide_eq_true_eq] at h
  exact h.1

/-- The state after an engine's writes: they all land, in order. -/
def storeAll : List (Nat × List Byte) → State → State
  | [], s => s
  | w :: ws, s => storeAll ws (s.store w.1 w.2)

theorem dmaAll_of_launch {s t : State} (h : t.launch = s.launch) {a n : Nat} (ha : dmaAll s a n) : dmaAll t a n := by
  intro k hk
  have := ha k hk
  simpa [dmaAdmits, h] using this

theorem dmaWrites_ok {e : Engine} {ws : List (Nat × List Byte)} {s t : State} :
    dmaWrites e ws s = .ok t ↔ (∀ w ∈ ws, dmaAll s w.1 w.2.length) ∧ t = storeAll ws s := by
  induction ws generalizing s with
  | nil => simp [dmaWrites, storeAll, eq_comm]
  | cons w ws ih =>
    unfold dmaWrites
    constructor
    · intro h
      split at h
      · simp at h
      · next u hu =>
        obtain ⟨h1, rfl⟩ := dmaWrite_ok.1 hu
        obtain ⟨h2, rfl⟩ := ih.1 h
        refine ⟨?_, rfl⟩
        intro w' hw'
        rcases List.mem_cons.1 hw' with rfl | hw'
        · exact h1
        · exact dmaAll_of_launch (s := s.store w.1 w.2) rfl (h2 w' hw')
    · rintro ⟨h1, rfl⟩
      rw [dmaWrite_ok.2 ⟨h1 w (by simp), rfl⟩]
      exact ih.2 ⟨fun w' hw' => dmaAll_of_launch (s := s) rfl (h1 w' (by simp [hw'])), rfl⟩

/-- Memory after writes, and nothing else, has changed. -/
theorem storeAll_eq (ws : List (Nat × List Byte)) (s : State) :
    storeAll ws s = { s with mem := (storeAll ws s).mem } := by
  induction ws generalizing s with
  | nil => rfl
  | cons w ws ih => simp only [storeAll]; rw [ih]; rfl

/-- A byte that none of the writes touches reads as before. -/
theorem storeAll_outside {ws : List (Nat × List Byte)} {s : State} {x : Nat}
    (h : ∀ w ∈ ws, x < w.1 ∨ w.1 + w.2.length ≤ x) :
    Memory.find (storeAll ws s).mem x = Memory.find s.mem x := by
  induction ws generalizing s with
  | nil => rfl
  | cons w ws ih =>
    simp only [storeAll]
    rw [ih fun w' hw' => h w' (by simp [hw'])]
    exact find_write_outside _ _ _ _ (h w (by simp))

/-- A property that every store keeps is kept by a list of them. -/
theorem storeAll_keeps {P : State → Prop} {ws : List (Nat × List Byte)} {s : State} (hs : P s)
    (h : ∀ w ∈ ws, ∀ u, P u → P (u.store w.1 w.2)) : P (storeAll ws s) := by
  induction ws generalizing s with
  | nil => exact hs
  | cons w ws ih =>
    exact ih (h w (by simp) s hs) fun w' hw' => h w' (by simp [hw'])

/-! ### Descriptors -/

/-- The bytes of a descriptor at which its fields stand (30_encoding.md rules R91, R94). -/
theorem offAddr_eq (e : Engine) : offAddr e = 0 := by cases e <;> rfl
theorem offLength_eq (e : Engine) : offLength e = 8 := by cases e <;> rfl
theorem offStatus_eq (e : Engine) : offStatus e = 12 := by cases e <;> rfl
theorem lenFieldBytes_eq : lenFieldBytes = 2 := rfl

/-- A descriptor's `addr` stands in its first eight bytes. -/
theorem bufAddr_eq (e : Engine) (i : Nat) (s : State) : bufAddr e i s = leNat (peekBytes s (descAddr e i s) 8) := by
  cases e <;> rfl

/-- What the TX engine fetches: the sixteen bytes of the descriptor at its head. -/
theorem fetchTxd_eq (s : State) : fetchTxd s =
    match descriptorAt .tx (ringHead .tx s) s with
    | .error x => .error x
    | .ok d =>
      match dmaRead .tx d 16 s with
      | .error x => .error x
      | .ok bytes => .ok (BitVec.ofNat 128 (leNat bytes)) := rfl

/-- What the RX engine fetches: the first eight bytes of the descriptor at its head. -/
theorem fetchRxd_eq (s : State) : fetchRxd s =
    match descriptorAt .rx (ringHead .rx s) s with
    | .error x => .error x
    | .ok d =>
      match dmaRead .rx d 8 s with
      | .error x => .error x
      | .ok bytes => .ok (inField (BitVec.ofNat 64 (leNat bytes)) 0) := rfl

/-- The writes of one stored frame, at the bytes of 30_encoding.md rule R94. -/
theorem rxWrites_eq (addr d : Nat) (bs : List Byte) (s : State) : rxWrites addr d bs s =
    [ (addr, bs), (addr + bs.length, drawBytes s (rxBufSize s - bs.length)), (d + 8, leBytes 2 bs.length)
    , (d + 10, leBytes 2 (Config.freeHalf (s.draws + (rxBufSize s - bs.length))).toNat), (d + 13, [0])
    , (d + 14, leBytes 2 (Config.freeHalf (s.draws + (rxBufSize s - bs.length) + 1)).toNat)
    , (d + 12, [rxDoneStatus (Config.freeByte (s.draws + (rxBufSize s - bs.length) + 2))]) ] := rfl

theorem formDescAddr_ok {e : Engine} {i : Nat} {s : State} {d : Nat} :
    formDescAddr e i s = .ok d ↔ d = descAddr e i s ∧ descAddr e i s < spaceSize := by
  unfold formDescAddr
  split
  · next h => simp only [reduceCtorEq, false_iff]; omega
  · next h =>
    simp only [Except.ok.injEq]
    constructor
    · rintro rfl; exact ⟨rfl, by omega⟩
    · rintro ⟨rfl, -⟩; rfl

theorem descriptorAt_ok {e : Engine} {i : Nat} {s : State} {d : Nat} :
    descriptorAt e i s = .ok d ↔
      d = descAddr e i s ∧ descAddr e i s < spaceSize ∧ dmaAll s (descAddr e i s) config.descSize := by
  unfold descriptorAt
  split
  · next x h =>
    simp only [reduceCtorEq, false_iff, not_and]
    rintro - h2
    rw [(formDescAddr_ok (d := descAddr e i s)).2 ⟨rfl, h2⟩] at h
    simp at h
  · next d' h =>
    obtain ⟨rfl, h1⟩ := formDescAddr_ok.1 h
    split
    · next x hx =>
      simp only [reduceCtorEq, false_iff, not_and]
      rintro - - h3
      rw [dmaCheck_ok.2 h3] at hx
      simp at hx
    · next hx =>
      simp only [Except.ok.injEq]
      have := dmaCheck_ok.1 hx
      constructor
      · rintro rfl; exact ⟨rfl, h1, this⟩
      · rintro ⟨rfl, -⟩; rfl

/-! ### Engines -/

theorem sendFrame_ok {addr : Addr} {len : LenField} {s t : State} :
    sendFrame addr len s = .ok t ↔ txLenOk len = true ∧
      ∃ bs, bs.length = len.toNat ∧ dmaAll s addr.toNat len.toNat ∧ holds s addr.toNat bs ∧ t = s.emit bs := by
  unfold sendFrame
  split
  · next h => simp [h]
  · next h =>
    have h' : txLenOk len = true := by simpa using h
    constructor
    · intro ht
      split at ht
      · simp at ht
      · next bs hb =>
        obtain ⟨h1, h2, h3⟩ := dmaRead_ok.1 hb
        exact ⟨h', bs, h2, h1, h3, by simpa using ht.symm⟩
    · rintro ⟨-, bs, h2, h1, h3, rfl⟩
      rw [dmaRead_ok.2 ⟨h1, h2, h3⟩]

/-- The address of the status byte that a TX write-back writes. -/
def txStatusAddr (s : State) : Nat := descAddr .tx (ringHead .tx s) s + offStatus .tx

theorem reportDone_ok {s t : State} :
    reportDone s = .ok t ↔ headAdmitted .tx s ∧
      t = (s.store (txStatusAddr s) [txDoneStatus (Config.freeByte s.draws)]).drawn 1 := by
  unfold reportDone
  constructor
  · intro h
    split at h
    · simp at h
    · next d hd =>
      obtain ⟨rfl, h1, h2⟩ := descriptorAt_ok.1 hd
      split at h
      · simp at h
      · next u hu =>
        obtain ⟨-, rfl⟩ := dmaWrite_ok.1 hu
        exact ⟨⟨h1, h2⟩, by simpa [txStatusAddr] using h.symm⟩
  · rintro ⟨⟨h1, h2⟩, rfl⟩
    rw [descriptorAt_ok.2 ⟨rfl, h1, h2⟩]
    simp only
    rw [dmaWrite_ok.2 ⟨?_, rfl⟩]
    · rfl
    · intro k hk
      have := h2 (offStatus .tx + k) (by simp only [offStatus_eq, config_descSize, List.length_singleton] at hk ⊢; omega)
      rwa [← Nat.add_assoc] at this

theorem storeFrame_ok {addr : Nat} {bs : List Byte} {s t : State} :
    storeFrame addr bs s = .ok t ↔ headAdmitted .rx s ∧
      (∀ w ∈ rxWrites addr (descAddr .rx (ringHead .rx s) s) bs s, dmaAll s w.1 w.2.length) ∧
      t = raiseRxdw (advanceHead .rx
        ((storeAll (rxWrites addr (descAddr .rx (ringHead .rx s) s) bs s) s).drawn (rxDraws bs.length s))) := by
  unfold storeFrame
  constructor
  · intro h
    split at h
    · simp at h
    · next d hd =>
      obtain ⟨rfl, h1, h2⟩ := descriptorAt_ok.1 hd
      split at h
      · simp at h
      · next u hu =>
        obtain ⟨h3, rfl⟩ := dmaWrites_ok.1 hu
        exact ⟨⟨h1, h2⟩, h3, by simpa using h.symm⟩
  · rintro ⟨⟨h1, h2⟩, h3, rfl⟩
    rw [descriptorAt_ok.2 ⟨rfl, h1, h2⟩]
    simp only
    rw [dmaWrites_ok.2 ⟨h3, rfl⟩]

end Sys2Proof.Laws
end

