-- ==== Sys2Proof/Laws/Bits.lean ====
section
/-! SUPPORT. Bits: masks by their bits, the fields of masked registers, circular index arithmetic, and ownership as a
condition on indices. -/

namespace Sys2Proof.Laws

open Sys2Proof.Machine

/-! ### Masks -/

/-- A word under a one-bit mask is 0 exactly when that bit is. -/
theorem and_rst_eq_zero (v : Word) : v &&& maskRst = 0 ↔ v.getLsbD 26 = false := by
  constructor
  · intro h
    have := congrArg (·.getLsbD 26) h
    simpa [maskRst_eq] using this
  · intro h
    apply BitVec.eq_of_getLsbD_eq
    intro i hi
    rw [BitVec.getLsbD_and, show BitVec.getLsbD (0 : Word) i = false from BitVec.getLsbD_zero]
    by_cases hne : i = 26
    · rw [hne, h, Bool.false_and]
    · have : ∀ i < 32, i ≠ 26 → maskRst.getLsbD i = false := by decide
      rw [this i hi hne, Bool.and_false]

/-- The bits a mask clears are 0 afterwards, whatever field they are looked at in. -/
theorem extract_and_of_clear {w : Nat} (v m : BitVec w) (a n : Nat) (h : ∀ i < n, m.getLsbD (a + i) = false) :
    (v &&& m).extractLsb' a n = 0 := by
  apply BitVec.eq_of_getLsbD_eq
  intro i hi
  simp only [BitVec.getLsbD_extractLsb', BitVec.getLsbD_and, h i hi, Bool.and_false]
  exact BitVec.getLsbD_zero.symm

/-- A field that a mask keeps whole is the field. -/
theorem extract_and_of_set {w : Nat} (v m : BitVec w) (a n : Nat) (h : ∀ i < n, m.getLsbD (a + i) = true) :
    (v &&& m).extractLsb' a n = v.extractLsb' a n := by
  apply BitVec.eq_of_getLsbD_eq
  intro i hi
  simp only [BitVec.getLsbD_extractLsb', BitVec.getLsbD_and, h i hi, Bool.and_true]

/-- Nothing is left of a masked word under the other bits. -/
theorem and_and_not (v m : Word) : (v &&& m) &&& ~~~m = 0 := by
  rw [BitVec.and_assoc, BitVec.and_not_self]
  exact BitVec.and_zero

/-- Nothing is left of a cleared word under the cleared bits. -/
theorem and_not_and (v m : Word) : (v &&& ~~~m) &&& m = 0 := by
  rw [BitVec.and_assoc, BitVec.and_comm (~~~m), BitVec.and_not_self]
  exact BitVec.and_zero

/-- The index that a masked index register holds. -/
theorem idxOf_mask (v : Word) : idxOf (v &&& maskIdx) = idxOf v :=
  congrArg BitVec.toNat (extract_and_of_set v maskIdx 0 16 (by decide))

/-- The capacity that a masked length register gives. -/
theorem slotsOf_mask (v : Word) : slotsOf (v &&& maskLen128) = slotsOf v :=
  congrArg (fun x : BitVec 13 => x.toNat * 8) (extract_and_of_set v maskLen128 7 13 (by decide))

theorem slotsOf_lt (v : Word) : slotsOf v < 65536 := by
  have := (v.extractLsb' 7 13).isLt
  simp only [slotsOf_eq]
  omega

theorem idxOf_lt (v : Word) : idxOf v < 65536 := (v.extractLsb' 0 16).isLt

theorem ringCap_lt (e : Engine) (s : State) : ringCap e s < 65536 := by
  cases e <;> exact slotsOf_lt _

/-- The register that holds a slot number, with `IDX` at bit 0. -/
theorem idxWord_eq (i : Nat) : idxWord i = (BitVec.ofNat config.idxWidth i).setWidth 32 := by
  unfold idxWord
  rw [config_idxBit]
  exact BitVec.shiftLeft_zero _

/-- The index that a 16-bit number put into a register is. -/
theorem idxOf_setWidth (x : SlotIdx) : idxOf (x.setWidth 32) = x.toNat := by
  unfold idxOf
  congr 1
  apply BitVec.eq_of_getLsbD_eq
  intro i (hi : i < 16)
  simp only [BitVec.getLsbD_extractLsb', BitVec.getLsbD_setWidth, config_idxBit, Nat.zero_add]
  rw [decide_eq_true (show i < config.idxWidth from hi), decide_eq_true (show i < 32 by omega)]
  rfl

/-- A 16-bit number put into a register has no reserved bit set. -/
theorem setWidth_and_not_maskIdx (x : SlotIdx) : (x.setWidth 32 : Word) &&& ~~~maskIdx = 0 := by
  have : (x.setWidth 32 : Word) = x.setWidth 32 &&& maskIdx := by
    apply BitVec.eq_of_getLsbD_eq
    intro i hi
    have hm : ∀ i < 32, maskIdx.getLsbD i = decide (i < 16) := by decide
    rw [BitVec.getLsbD_and, hm i hi, BitVec.getLsbD_setWidth]
    by_cases h : i < 16
    · simp [h]
    · rw [BitVec.getLsbD_of_ge _ _ (by rw [config_idxWidth]; omega)]; simp
  rw [this]
  exact and_and_not _ _

/-! ### Index arithmetic -/

theorem ringNext_lt {n : Nat} (h : 0 < n) (i : Nat) : ringNext n i < n := Nat.mod_lt _ h

theorem ringDist_lt {n : Nat} (h : 0 < n) (a b : Nat) : ringDist n a b < n := Nat.mod_lt _ h

/-- The distance between two slots of the ring, without a modulus. -/
theorem ringDist_eq {n a b : Nat} (ha : a < n) (hb : b < n) :
    ringDist n a b = if a ≤ b then b - a else n - a + b := by
  unfold ringDist
  rw [Nat.mod_eq_of_lt ha, Nat.mod_eq_of_lt hb]
  split
  · rw [show b + n - a = b - a + n by omega, Nat.add_mod_right]
    exact Nat.mod_eq_of_lt (by omega)
  · rw [show b + n - a = n - a + b by omega]
    exact Nat.mod_eq_of_lt (by omega)

/-- The next slot, without a modulus. -/
theorem ringNext_eq {n i : Nat} (h : i < n) : ringNext n i = if i + 1 = n then 0 else i + 1 := by
  unfold ringNext
  split
  · next h1 => rw [h1, Nat.mod_self]
  · exact Nat.mod_eq_of_lt (by omega)

/-! ### Heads -/

/-- The head after an advance, as the number it is. -/
theorem advanced_head (e : Engine) (s : State) (h : 0 < ringCap e s) :
    idxWord (ringNext (ringCap e s) (ringHead e s)) =
      BitVec.ofNat 32 ((ringHead e s + 1) % ringCap e s) := by
  have h1 := ringNext_lt h (ringHead e s)
  have h2 := ringCap_lt e s
  apply BitVec.eq_of_toNat_eq
  simp only [idxWord_eq, BitVec.toNat_setWidth, BitVec.toNat_ofNat, ringNext, config_idxWidth] at *
  omega

/-- The whole of what an advance of the head does. -/
theorem advanceHead_eq (e : Engine) (s : State) (h : 0 < ringCap e s) :
    advanceHead e s = s.setHead e (BitVec.ofNat 32 ((ringHead e s + 1) % ringCap e s)) := by
  unfold advanceHead
  rw [advanced_head e s h]

/-! ### Ownership -/

theorem deviceOwns_iff (e : Engine) (i : Nat) (s : State) : deviceOwns e i s = true ↔
    i < ringCap e s ∧
      ringDist (ringCap e s) (ringHead e s) i < ringDist (ringCap e s) (ringHead e s) (ringTail e s) := by
  simp only [deviceOwns, inInterval, Bool.and_eq_true, decide_eq_true_eq]

theorem txEnabled_iff (s : State) : txEnabled s = true ↔
    engineOn .tx s = true ∧ ringHead .tx s ≠ ringTail .tx s ∧ ringCap .tx s ≠ 0 := by
  simp only [txEnabled, Bool.and_eq_true, decide_eq_true_eq, and_assoc]

end Sys2Proof.Laws
end

