-- ==== Sys2Proof/Laws/Decode.lean ====
section
/-! SUPPORT. The decoder: the offset table read both ways, and the fields of a register access's word. -/

namespace Sys2Proof.Laws

theorem off_mta (n : MtaIdx) : (Reg.mta n).off = 0x5200 + 4 * n.val := rfl

/-- An entry of the multicast table stands at its own offset only. -/
theorem off_of_mtaAt {off : Nat} {r : Reg} (h : mtaAt off = some r) : r.off = off := by
  unfold mtaAt at h
  split at h
  · split at h
    · next hm =>
      cases h
      simp only [Reg.off, config_offMta] at *
      omega
    · cases h
  · cases h

/-- The multicast table's entry `n` stands at its own offset. -/
theorem mtaAt_mta (n : MtaIdx) : mtaAt (Reg.mta n).off = some (.mta n) := by
  have h : ((Reg.mta n).off - config.offMta) / 4 = n.val := by simp only [Reg.off]; omega
  have h4 : config.offMta ≤ (Reg.mta n).off ∧ (Reg.mta n).off % 4 = 0 := by
    simp only [Reg.off, config_offMta]; omega
  unfold mtaAt
  rw [dif_pos (by rw [h]; exact n.isLt), if_pos h4]
  congr 2
  exact Fin.ext h

/-- The offset table lists the multicast table's entries. -/
theorem ofOff_of_mtaAt {off : Nat} {r : Reg} (h : mtaAt off = some r) : Reg.ofOff off = some r := by
  rw [Reg.ofOff, h, Option.some_or]

/-- Every register stands in the offset table at its own offset. -/
theorem ofOff_off (r : Reg) : Reg.ofOff r.off = some r := by
  cases r with
  | mta n => exact ofOff_of_mtaAt (mtaAt_mta n)
  | _ => rfl

/-- The offset table lists a register at its own offset only. -/
theorem off_of_ofOff {off : Nat} {r : Reg} (h : Reg.ofOff off = some r) : r.off = off := by
  rw [Reg.ofOff] at h
  rcases Option.or_eq_some_iff.1 h with hm | ⟨-, hm⟩
  · exact off_of_mtaAt hm
  · simpa using List.find?_some hm

/-- Every register's offset is a multiple of 4 inside the window. -/
theorem off_aligned (r : Reg) : r.off % 4 = 0 ∧ r.off < 0x20000 := by
  cases r with
  | mta n => have h : n.val < 128 := n.isLt; rw [off_mta]; omega
  | _ => decide +kernel

theorem off_ofNat (r : Reg) : (BitVec.ofNat 20 r.off).toNat = r.off := by
  have := (off_aligned r).2
  rw [BitVec.toNat_ofNat]
  omega

/-- A word put together from its four fields gives each of them back. -/
theorem mmio_fields (w : BitVec 1) (z : BitVec 11) (off : BitVec 20) (v : Word) :
    (w ++ z ++ off ++ v).getLsbD 63 = w.getLsbD 0 ∧ (w ++ z ++ off ++ v).extractLsb' 52 11 = z ∧
      (w ++ z ++ off ++ v).extractLsb' 32 20 = off ∧ (w ++ z ++ off ++ v).extractLsb' 0 32 = v := by
  refine ⟨by simp only [BitVec.getLsbD_append]; rfl, ?_, ?_, ?_⟩ <;>
  · ext i hi
    simp only [BitVec.getElem_extractLsb', BitVec.getLsbD_append]
    repeat' split
    all_goals first | omega | skip
    all_goals rw [← BitVec.getLsbD_eq_getElem]; congr 1; omega

/-- A word is its four fields. -/
theorem mmio_of_fields (t : BitVec 64) :
    t = t.extractLsb' 63 1 ++ t.extractLsb' 52 11 ++ t.extractLsb' 32 20 ++ t.extractLsb' 0 32 := by
  apply BitVec.eq_of_getLsbD_eq
  intro i hi
  simp only [BitVec.getLsbD_append, BitVec.getLsbD_extractLsb']
  split
  · simp [*]
  split
  · rw [decide_eq_true (by omega), Bool.true_and]; congr 1; omega
  split
  · rw [decide_eq_true (by omega), Bool.true_and]; congr 1; omega
  · rw [decide_eq_true (by omega), Bool.true_and]; congr 1; omega

/-- The word of a write decodes to the write. -/
theorem decodeMmio_mmioWrite (r : Reg) (v : Word) : decodeMmio (mmioWrite r v) = .ok (writeOp r v) := by
  obtain ⟨h1, h2, h3, h4⟩ := mmio_fields 1#1 0#11 (BitVec.ofNat 20 r.off) v
  have ha := (off_aligned r).1
  simp only [decodeMmio, mmioWrite, h1, h2, h3, h4, decodeAccess, off_ofNat, ofOff_off]
  simp [ha]

/-- The word of a read decodes to the read. -/
theorem decodeMmio_mmioRead (r : Reg) : decodeMmio (mmioRead r) = .ok (readOp r) := by
  obtain ⟨h1, h2, h3, h4⟩ := mmio_fields 0#1 0#11 (BitVec.ofNat 20 r.off) 0#32
  have ha := (off_aligned r).1
  simp only [decodeMmio, mmioRead, h1, h2, h3, h4, decodeAccess, off_ofNat, ofOff_off]
  simp [ha]

/-- A register access decodes to the read or the write of the register at its offset, and to nothing else. -/
theorem decodeAccess_ok {write : Bool} {width off : Nat} {v : Word} {i : Instr}
    (h : decodeAccess write width off v = .ok i) :
    width = 32 ∧ ∃ r : Reg, r.off = off ∧ i = if write then writeOp r v else readOp r := by
  unfold decodeAccess at h
  split at h
  · simp at h
  · next hw =>
    split at h
    · simp at h
    · next r hr =>
      simp only [not_or, not_not] at hw
      exact ⟨hw.1, r, off_of_ofOff hr, (Except.ok.inj h).symm⟩

/-! ### Descriptors -/

/-- How a TX descriptor decodes, in the bits of 30_encoding.md rules R91 and R92. -/
theorem decodeTxd_eq (d : BitVec 128) : decodeTxd d =
    if d.extractLsb' 88 8 = cmdEopRs then .ok (.txdEopRs (d.extractLsb' 0 64) (d.extractLsb' 64 16))
    else if d.extractLsb' 88 8 = cmdEop then .ok (.txdEop (d.extractLsb' 0 64) (d.extractLsb' 64 16))
    else if txLenOk (d.extractLsb' 64 16) = false then .error (.txLen (d.extractLsb' 64 16))
    else if (d.extractLsb' 88 8).getLsbD 0 = false then .error .txNoEop
    else .error (.txCmd (d.extractLsb' 88 8)) := rfl

/-- How an RX descriptor decodes, in the bits of 30_encoding.md rule R94. -/
theorem decodeRxd_eq (d : DescWord) : decodeRxd d = .ok (.rxd (d.extractLsb' 0 64)) := rfl

/-- The bits of a descriptor with one field. -/
theorem getLsbD_inField {w : Nat} (v : BitVec w) (lo i : Nat) (hi : i < 128) :
    (inField v lo).getLsbD i = (decide (lo ≤ i) && v.getLsbD (i - lo)) := by
  unfold inField
  have h1 : i < 8 * config.descSize := hi
  have h2 : i - lo < 8 * config.descSize := by omega
  rw [BitVec.getLsbD_shiftLeft, BitVec.getLsbD_setWidth, decide_eq_true h1, decide_eq_true h2]
  by_cases h : i < lo
  · simp [h]
  · simp [h, Nat.le_of_not_lt h]

/-- A field looked at where it stands. -/
theorem extract_inField {w lo : Nat} (v : BitVec w) (h : lo + w ≤ 128) : (inField v lo).extractLsb' lo w = v := by
  apply BitVec.eq_of_getLsbD_eq
  intro i hi
  rw [BitVec.getLsbD_extractLsb', getLsbD_inField _ _ _ (by omega), Nat.add_sub_cancel_left]
  simp [hi]

/-- A field looked at where it does not stand. -/
theorem extract_inField_beside {w lo a n : Nat} (v : BitVec w) (hn : a + n ≤ 128) (h : a + n ≤ lo ∨ lo + w ≤ a) :
    (inField v lo).extractLsb' a n = 0 := by
  apply BitVec.eq_of_getLsbD_eq
  intro i hi
  rw [BitVec.getLsbD_extractLsb', getLsbD_inField _ _ _ (by omega)]
  refine Eq.trans ?_ BitVec.getLsbD_zero.symm
  by_cases hl : lo ≤ a + i
  · rw [BitVec.getLsbD_of_ge v _ (by omega)]; simp
  · simp [hl]

/-- A field under a mask that clears it vanishes. -/
theorem inField_and_of_clear {w : Nat} (v : BitVec w) (lo : Nat) (m : DescWord)
    (h : ∀ k < w, m.getLsbD (lo + k) = false) : inField v lo &&& m = 0 := by
  apply BitVec.eq_of_getLsbD_eq
  intro i (hi : i < 128)
  rw [BitVec.getLsbD_and, getLsbD_inField _ _ _ hi]
  by_cases hk : lo ≤ i ∧ i - lo < w
  · have := h (i - lo) hk.2
    rw [Nat.add_sub_cancel' hk.1] at this
    rw [this, Bool.and_false]; exact BitVec.getLsbD_zero.symm
  · by_cases h1 : lo ≤ i
    · rw [BitVec.getLsbD_of_ge v _ (by omega)]; simp
    · simp [h1]

/-- A field under a mask that keeps it is the field. -/
theorem inField_and_of_set {w : Nat} (v : BitVec w) (lo : Nat) (m : DescWord)
    (h : ∀ k < w, m.getLsbD (lo + k) = true) : inField v lo &&& m = inField v lo := by
  apply BitVec.eq_of_getLsbD_eq
  intro i (hi : i < 128)
  rw [BitVec.getLsbD_and, getLsbD_inField _ _ _ hi]
  by_cases hk : lo ≤ i ∧ i - lo < w
  · have := h (i - lo) hk.2
    rw [Nat.add_sub_cancel' hk.1] at this
    rw [this, Bool.and_true]
  · by_cases h1 : lo ≤ i
    · rw [BitVec.getLsbD_of_ge v _ (by omega)]; simp
    · simp [h1]

end Sys2Proof.Laws
end

