-- ==== Sys2Proof/Laws/Step.lean ====
section
/-! SUPPORT. What the meanings of the descriptors and of the host's operations can do, and, packaged once, that a
property kept by the few ways the host and its driver change the state is kept by their every step. -/

namespace Sys2Proof.Laws

open Sys2Proof.Machine

/-! ### The descriptors' meanings -/

theorem execTxdEopRs_next {addr : Addr} {len : LenField} {s t : State} :
    execTxdEopRs addr len s = .next t ↔ txLenOk len = true ∧ headAdmitted .tx s ∧
      ∃ bs, bs.length = len.toNat ∧ dmaAll s addr.toNat len.toNat ∧ holds s addr.toNat bs ∧
        t = advanceHead .tx
          (((s.emit bs).store (txStatusAddr s) [txDoneStatus (Config.freeByte s.draws)]).drawn 1) := by
  unfold execTxdEopRs
  constructor
  · intro h
    split at h
    · simp at h
    · next u hu =>
      obtain ⟨h1, bs, h2, h3, h4, rfl⟩ := sendFrame_ok.1 hu
      split at h
      · simp at h
      · next w hw =>
        obtain ⟨h5, rfl⟩ := reportDone_ok.1 hw
        exact ⟨h1, h5, bs, h2, h3, h4, (Host.Outcome.next.inj h).symm⟩
  · rintro ⟨h1, h5, bs, h2, h3, h4, rfl⟩
    rw [sendFrame_ok.2 ⟨h1, bs, h2, h3, h4, rfl⟩]
    have hr : reportDone (s.emit bs) = .ok
        (((s.emit bs).store (txStatusAddr s) [txDoneStatus (Config.freeByte s.draws)]).drawn 1) :=
      reportDone_ok.2 ⟨h5, rfl⟩
    simp only [hr]

theorem execTxdEop_next {addr : Addr} {len : LenField} {s t : State} :
    execTxdEop addr len s = .next t ↔ txLenOk len = true ∧
      ∃ bs, bs.length = len.toNat ∧ dmaAll s addr.toNat len.toNat ∧ holds s addr.toNat bs ∧
        t = advanceHead .tx (s.emit bs) := by
  unfold execTxdEop
  constructor
  · intro h
    split at h
    · simp at h
    · next u hu =>
      obtain ⟨h1, bs, h2, h3, h4, rfl⟩ := sendFrame_ok.1 hu
      exact ⟨h1, bs, h2, h3, h4, by simpa using h.symm⟩
  · rintro ⟨h1, bs, h2, h3, h4, rfl⟩
    rw [sendFrame_ok.2 ⟨h1, bs, h2, h3, h4, rfl⟩]

/-- A stored frame's final state, given the bytes stored. -/
def rxDone (addr : Nat) (bs : List Byte) (s : State) : State :=
  (raiseRxdw (advanceHead .rx
    ((storeAll (rxWrites addr (descAddr .rx (ringHead .rx s) s) bs s) s).drawn (rxDraws bs.length s)))).endOffer

theorem execRxd_next {addr : Addr} {s t : State} {o : Offer} (ho : s.offer = some o) :
    execRxd addr s = .next t ↔ rxTooLong o s = false ∧ headAdmitted .rx s ∧
      (∀ w ∈ rxWrites addr.toNat (descAddr .rx (ringHead .rx s) s) (storedBytes o s) s,
        dmaAll s w.1 w.2.length) ∧
      t = rxDone addr.toNat (storedBytes o s) s := by
  unfold execRxd
  rw [ho]
  simp only
  constructor
  · intro h
    split at h
    · simp at h
    · next h0 =>
      split at h
      · simp at h
      · next u hu =>
        obtain ⟨h1, h2, rfl⟩ := storeFrame_ok.1 hu
        exact ⟨by simpa using h0, h1, h2, by simpa [rxDone] using h.symm⟩
  · rintro ⟨h0, h1, h2, rfl⟩
    rw [if_neg (by simp [h0]), storeFrame_ok.2 ⟨h1, h2, rfl⟩]
    rfl

theorem execRxd_idle {addr : Addr} {s : State} (ho : s.offer = none) : execRxd addr s = .next s := by
  simp [execRxd, ho]

/-! ### Host operations -/

theorem runDecoded_next {slot : Nat} {d : Except DecodeStop Instr} {s t : State}
    (h : runDecoded slot d s = .next t) : ∃ i, d = .ok i ∧ exec i s = .next t := by
  unfold runDecoded at h
  split at h
  · next i => exact ⟨i, rfl, h⟩
  · simp at h

/-- A register was read or written. -/
def Accessed (s t : State) : Prop :=
  ∃ r : Reg, exec (readOp r) s = .next t ∨ ∃ v, exec (writeOp r v) s = .next t

theorem accessed_of_decodeAccess {write : Bool} {width off : Nat} {v : Word} {i : Instr} {s t : State}
    (hd : decodeAccess write width off v = .ok i) (h : exec i s = .next t) : Accessed s t := by
  obtain ⟨-, r, -, rfl⟩ := decodeAccess_ok hd
  refine ⟨r, ?_⟩
  cases write
  · exact .inl h
  · exact .inr ⟨v, h⟩

theorem hostMmio_next {x : BitVec 64} {s t : State} (h : hostMmio x s = .next t) : Accessed s t := by
  obtain ⟨i, hd, hi⟩ := runDecoded_next h
  unfold decodeMmio at hd
  simp only at hd
  split at hd
  · simp at hd
  · exact accessed_of_decodeAccess hd hi

theorem windowAccess_next {write : Bool} {w : Width} {a : Nat} {v : BitVec 64} {s t : State}
    (h : windowAccess write w a v s = .next t) : Accessed s t := by
  unfold windowAccess at h
  split at h
  · simp at h
  · obtain ⟨i, hd, hi⟩ := runDecoded_next h
    exact accessed_of_decodeAccess hd hi

theorem loadAt_next {w : Width} {a : Nat} {s t : State} (h : loadAt w a s = .next t) :
    Accessed s t ∨ t = (s.gotBytes (loadBytes s a w.bytes)).drawn w.bytes := by
  unfold loadAt at h
  split at h
  · exact .inl (windowAccess_next h)
  · split at h
    · simp at h
    · exact .inr (by simpa using h.symm)

theorem ownedByte_none {s : State} {a n : Nat} :
    ownedByte s a n = none ↔ ∀ k < n, ownerOf s (a + k) = none := by
  simp [ownedByte, List.findSome?_eq_none_iff]

theorem storeAt_next {w : Width} {a : Nat} {v : BitVec 64} {s t : State} (h : storeAt w a v s = .next t) :
    Accessed s t ∨
      (a + w.bytes ≤ spaceSize ∧ (∀ k < w.bytes, ownerOf s (a + k) = none) ∧
        t = s.store a (leBytes w.bytes v.toNat)) := by
  unfold storeAt at h
  split at h
  · exact .inl (windowAccess_next h)
  · split at h
    · simp at h
    · next h1 =>
      split at h
      · simp at h
      · next h2 => exact .inr ⟨by omega, ownedByte_none.1 h2, by simpa using h.symm⟩

/-! ### Every step -/

/-- A property kept by the ways in which the host and its driver change the state. -/
structure Kept (P : State → Prop) : Prop where
  access : ∀ s t, P s → Accessed s t → P t
  read : ∀ (s : State) (v : BitVec 64), P s → P { s with hostRead := v }
  drawn : ∀ (s : State) n, P s → P (s.drawn n)
  store : ∀ (s : State) a bs, P s →
    (∀ k < bs.length, a + k < spaceSize ∧ ownerOf s (a + k) = none) → P (s.store a bs)
  ghost : ∀ (s : State) f, P s → P (s.ghost f)

variable {P : State → Prop}

theorem Kept.loadAt (k : Kept P) {w : Width} {a : Nat} {s t : State} (hs : P s)
    (h : loadAt w a s = .next t) : P t := by
  rcases loadAt_next h with hi | rfl
  · exact k.access s t hs hi
  · exact k.drawn _ _ (k.read s _ hs)

theorem Kept.storeAt (k : Kept P) {w : Width} {a : Nat} {v : BitVec 64} {s t : State} (hs : P s)
    (h : storeAt w a v s = .next t) : P t := by
  rcases storeAt_next h with hi | ⟨h1, h2, rfl⟩
  · exact k.access s t hs hi
  · refine k.store s _ _ hs fun j hj => ?_
    rw [leBytes_length] at hj
    exact ⟨by omega, h2 j hj⟩

theorem Kept.hostMmio (k : Kept P) {x : BitVec 64} {s t : State} (hs : P s)
    (h : hostMmio x s = .next t) : P t :=
  k.access s t hs (hostMmio_next h)

theorem Kept.hostPoll (k : Kept P) {e : Engine} {i : Nat} {s t : State} (hs : P s)
    (h : hostPoll e i s = .next t) : P t := by
  unfold Machine.hostPoll at h
  split at h
  · simp at h
  · split at h
    · simp only [Host.Outcome.next.injEq] at h
      subst h
      exact k.read s _ hs
    · split at h
      · next u hu =>
        simp only [Host.Outcome.next.injEq] at h
        subst h
        exact k.read u _ (k.loadAt hs hu)
      · simp at h
      · simp at h

theorem Kept.hostOp (k : Kept P) {op : HostOp} {s t : State} (hs : P s) (h : hostOp op s = .next t) : P t := by
  cases op with
  | mmio x => exact k.hostMmio hs h
  | load w a => exact k.loadAt hs h
  | store w a v => exact k.storeAt hs h
  | pollTx i => exact k.hostPoll hs h
  | pollRx i => exact k.hostPoll hs h

theorem andThen_next {r : Result} {f : State → State} {t : State} (h : andThen r f = .next t) :
    ∃ u, r = .next u ∧ t = f u := by
  unfold andThen at h
  split at h
  · next u => exact ⟨u, rfl, by simpa using h.symm⟩
  · simp at h
  · simp at h

theorem Kept.storeField (k : Kept P) {e : Engine} {i off : Nat} {w : Width} {v : BitVec 64} {s t : State} (hs : P s)
    (h : storeField e i off w v s = .next t) : P t := by
  unfold Machine.storeField at h
  split at h
  · simp at h
  · exact k.storeAt hs h

theorem Kept.loadField (k : Kept P) {e : Engine} {i off : Nat} {w : Width} {s t : State} (hs : P s)
    (h : loadField e i off w s = .next t) : P t := by
  unfold Machine.loadField at h
  split at h
  · simp at h
  · exact k.loadAt hs h

theorem Kept.storeRing (k : Kept P) {e : Engine} {j : Nat} {w : Width} {v : BitVec 64} {s t : State} (hs : P s)
    (h : storeRing e j w v s = .next t) : P t := by
  unfold Machine.storeRing at h
  split at h
  · simp at h
  · exact k.storeAt hs h

theorem Kept.driverOp (k : Kept P) {op : DriverOp} {s t : State} (hs : P s) (h : driverOp op s = .next t) : P t := by
  cases op <;> simp only [Machine.driverOp] at h
  case host op => exact k.hostOp hs h
  case initStore | initRxAddr => exact k.storeRing hs h
  case txReadTail | rxReadTail | txWriteTail | rxWriteTail =>
    obtain ⟨u, hu, rfl⟩ := andThen_next h
    exact k.ghost _ _ (k.hostMmio hs hu)
  case txPoll | rxPoll =>
    obtain ⟨u, hu, rfl⟩ := andThen_next h
    have hP := k.hostPoll hs hu
    split <;> first | exact hP | exact k.ghost _ _ hP
  case rxLoadAddr | rxLoadLen =>
    obtain ⟨u, hu, rfl⟩ := andThen_next h
    exact k.ghost _ _ (k.loadField hs hu)
  case txStoreAddr | txStoreLen | txStoreCmd | txStoreStatus | rxStoreAddr | rxStoreStatus =>
    exact k.storeField hs h
  case initAlloc | txFree | rxAlloc =>
    split at h <;> simp only [Host.Outcome.next.injEq, reduceCtorEq] at h <;> subst h <;>
      first | exact hs | exact k.ghost _ _ hs
  all_goals
    simp only [Host.Outcome.next.injEq] at h
    subst h
    exact k.ghost _ _ hs

theorem Kept.driverStep (k : Kept P) {th : Thread} {s t : State} (hs : P s) (h : driverStep th s = .next t) :
    P t := by
  unfold Machine.driverStep at h
  split at h
  · simp only [Host.Outcome.next.injEq] at h; subst h; exact hs
  · obtain ⟨u, hu, rfl⟩ := andThen_next h
    have hP := k.driverOp (k.ghost _ _ hs) hu
    unfold initFinished
    split <;> first | exact hP | exact k.ghost _ _ hP

theorem Kept.driverCall (k : Kept P) {c : Call} {s t : State} (hs : P s) (h : driverCall c s = .next t) : P t := by
  unfold Machine.driverCall at h
  split at h <;>
    simp only [Host.Outcome.next.injEq] at h <;> subst h <;> first | exact hs | exact k.ghost _ _ hs

theorem Kept.dispatcherStep (k : Kept P) {j : Nat} {s t : State} (hs : P s) (h : dispatcherStep j s = .next t) :
    P t := by
  unfold Machine.dispatcherStep at h
  split at h <;>
    simp only [Host.Outcome.next.injEq] at h <;> subst h <;> first | exact hs | exact k.ghost _ _ hs

/-! ### Which agent steps -/

/-- A turn is one of the TX engine, one of the RX engine on an offered frame, or one of the host or its driver, which
keeps whatever their operations keep. -/
theorem takeTurn_agents {tn : Turn} {s t : State} (h : takeTurn tn s = .next t) :
    txStep s = .next t ∨ (∃ o, rxStep o s = .next t) ∨ ∀ P, Kept P → P s → P t := by
  cases tn with
  | host op => exact .inr (.inr fun P k hs => k.hostOp hs h)
  | txEngine => exact .inl h
  | offer o => exact .inr (.inl ⟨o, h⟩)
  | call c => exact .inr (.inr fun P k hs => k.driverCall hs h)
  | driver th => exact .inr (.inr fun P k hs => k.driverStep hs h)
  | dispatcher j => exact .inr (.inr fun P k hs => k.dispatcherStep hs h)

/-- A step is some turn taken in the state that has moved past it, or nothing. -/
theorem step_turn (s : State) : (∃ tn, step s = takeTurn tn s.nextTurn) ∨ step s = .next s.nextTurn := by
  unfold step runTurn
  split
  · exact .inl ⟨_, rfl⟩
  · unfold unscheduled
    split
    · exact .inl ⟨_, rfl⟩
    · exact .inr rfl

/-- What a step of any agent can do, as `takeTurn_agents` says of a turn. -/
theorem step_agents {s t : State} (h : step s = .next t) :
    txStep s.nextTurn = .next t ∨ (∃ o, rxStep o s.nextTurn = .next t) ∨
      ∀ P, Kept P → P s.nextTurn → P t := by
  rcases step_turn s with ⟨tn, h'⟩ | h'
  · exact takeTurn_agents (h' ▸ h)
  · rw [h'] at h
    exact .inr (.inr fun P _ hs => Host.Outcome.next.inj h ▸ hs)

/-- With nothing scheduled, the agent whose number the turn counter gives takes the step, if it has one enabled. -/
theorem unscheduled_of_head {s : State} {tn : Turn} {ts : List Turn} (ho : idleOrder s.rota = tn :: ts)
    (he : turnEnabled tn s = true) : unscheduled s = takeTurn tn s := by
  unfold unscheduled
  rw [ho, List.find?_cons_of_pos (p := (turnEnabled · s)) he]

/-- In a quiescent state the next step is nobody's: it only moves the model's own counters and its schedule. -/
theorem quiescent_step {s : State} (h : quiescent s = true) : step s = .next s.nextTurn := by
  simp only [quiescent, hostEnded, Bool.and_eq_true, Bool.not_eq_true', List.all_eq_true, List.any_eq_false] at h
  obtain ⟨⟨⟨hh, hi⟩, ht⟩, ho⟩ := h
  unfold step runTurn
  cases hs : s.turns with
  | nil =>
    have hn : ∀ t ∈ idleOrder s.nextTurn.rota, turnEnabled t s.nextTurn = false := by
      intro t hm
      have hm' : t ∈ idleAgents := by
        rcases List.mem_append.1 hm with hm | hm
        · exact List.mem_of_mem_drop hm
        · exact List.mem_of_mem_take hm
      by_cases hk : isHostTurn t = true
      · exact hi t (List.mem_filter.2 ⟨hm', hk⟩)
      · have : t = .txEngine := by
          simp only [idleAgents, List.mem_cons, List.not_mem_nil, or_false] at hm'
          rcases hm' with rfl | rfl | rfl | rfl | rfl | rfl <;> simp [isHostTurn] at hk ⊢
        subst this
        exact ht
    simp only [List.head?_nil, unscheduled]
    rw [List.find?_eq_none.2 fun t hm => by simp [hn t hm]]
  | cons tn ts =>
    have h1 := hh tn (by rw [hs]; exact List.mem_cons_self)
    have h2 := ho tn (by rw [hs]; exact List.mem_cons_self)
    cases tn with
    | txEngine =>
      have : txEnabled s.nextTurn = false := ht
      simp only [List.head?_cons, takeTurn, txStep, this]
      rfl
    | offer o => simp [isOffer] at h2
    | host op => simp [isHostTurn] at h1
    | call c => simp [isHostTurn] at h1
    | driver th => simp [isHostTurn] at h1
    | dispatcher k => simp [isHostTurn] at h1

/-- What a TX step is: nothing, where it is not enabled; else a frame is sent and the head advances, with or without a
report. -/
theorem txStep_next {s t : State} (h : txStep s = .next t) :
    (txEnabled s = false ∧ t = s) ∨
      (txEnabled s = true ∧ ∃ addr len, exec (.txdEopRs addr len) s = .next t ∨ exec (.txdEop addr len) s = .next t) := by
  unfold txStep at h
  split at h
  · next he =>
    split at h
    · simp at h
    · obtain ⟨i, hi, hx⟩ := runDecoded_next h
      refine .inr ⟨he, ?_⟩
      unfold decodeTxd at hi
      simp only at hi
      split at hi
      · cases hi; exact ⟨_, _, .inl hx⟩
      · split at hi
        · cases hi; exact ⟨_, _, .inr hx⟩
        · split at hi
          · simp at hi
          · split at hi <;> simp at hi
  · next he => exact .inl ⟨by simpa using he, (Host.Outcome.next.inj h).symm⟩

/-- What an RX step is: nothing, where the frame is dropped; else `RXD` with the frame on offer. -/
theorem rxStep_next {o : Offer} {s t : State} (h : rxStep o s = .next t) :
    t = s ∨ ∃ d, fetchRxd s = .ok d ∧ exec (.rxd (d.extractLsb' 0 64)) (s.offering o) = .next t := by
  unfold rxStep at h
  split at h
  · exact .inl (Host.Outcome.next.inj h).symm
  split at h
  · simp at h
  split at h
  · exact .inl (Host.Outcome.next.inj h).symm
  split at h
  · simp at h
  · next d hd => exact .inr ⟨d, hd, h⟩

end Sys2Proof.Laws
end

