-- ==== Sys2Proof/Laws/Exec.lean ====
section
/-! SUPPORT. What any operation leaves alone, and what the register operations answer, one lemma for each guarded form. -/

namespace Sys2Proof.Laws

open Sys2Proof.Machine

theorem execWrCtrl_next {v : Word} {s t : State} (h : execWrCtrl v s = .next t) :
    (v &&& maskRst = 0 ∧ t = { s with ctrl := v }) ∨ (v &&& maskRst ≠ 0 ∧ t = resetBlock s) := by
  unfold execWrCtrl at h
  split at h
  · next h0 => exact .inl ⟨h0, (Host.Outcome.next.inj h).symm⟩
  · next h0 => exact .inr ⟨h0, (Host.Outcome.next.inj h).symm⟩

theorem execWrRctl_next {v : Word} {s t : State} (h : execWrRctl v s = .next t) :
    t = { s with rctl := v } ∧
      (enBit .rx s.rctl = false → enBit .rx v = true → ringHead .rx s < ringCap .rx s ∧ ringTail .rx s < ringCap .rx s) := by
  unfold execWrRctl at h
  split at h
  · simp at h
  · exact writeEnable_next h

theorem execWrTctl_next {v : Word} {s t : State} (h : execWrTctl v s = .next t) :
    t = { s with tctl := v } ∧
      (enBit .tx s.tctl = false → enBit .tx v = true → ringHead .tx s < ringCap .tx s ∧ ringTail .tx s < ringCap .tx s) :=
  writeEnable_next h

theorem execRdIcr_next {s t : State} (h : execRdIcr s = .next t) :
    t = clearRxdw ((s.gotWord (icrValue s.rxdw (Config.freeWord s.draws))).drawn 1) :=
  (Host.Outcome.next.inj h).symm

theorem execWrIcr_next {v : Word} {s t : State} (h : execWrIcr v s = .next t) :
    t = if rxdwOf v then clearRxdw s else s :=
  (Host.Outcome.next.inj h).symm

/-- The three descriptors' meanings in one: nothing happens, a frame is sent, or a frame is stored. -/
theorem execRxd_cases {addr : Addr} {s t : State} (h : execRxd addr s = .next t) :
    (s.offer = none ∧ t = s) ∨
      ∃ o, s.offer = some o ∧ rxTooLong o s = false ∧ headAdmitted .rx s ∧
        (∀ w ∈ rxWrites addr.toNat (descAddr .rx (ringHead .rx s) s) (storedBytes o s) s,
          dmaAll s w.1 w.2.length) ∧
        t = rxDone addr.toNat (storedBytes o s) s := by
  cases ho : s.offer with
  | none => rw [execRxd_idle ho] at h; exact .inl ⟨rfl, (Host.Outcome.next.inj h).symm⟩
  | some o => exact .inr ⟨o, rfl, (execRxd_next ho).1 h⟩

/-! ### One lemma per field of the final state of a stored frame -/

section RxDone

variable (addr : Nat) (bs : List Byte) (s : State)

@[simp] theorem storeAll_mem_only (ws : List (Nat × List Byte)) :
    (storeAll ws s).launch = s.launch ∧ (storeAll ws s).rdh = s.rdh ∧ (storeAll ws s).rdlen = s.rdlen := by
  rw [storeAll_eq]; exact ⟨rfl, rfl, rfl⟩

theorem rxDone_eq : rxDone addr bs s =
    { s with
      mem := (storeAll (rxWrites addr (descAddr .rx (ringHead .rx s) s) bs s) s).mem
      rdh := idxWord (ringNext (ringCap .rx s) (ringHead .rx s))
      rxdw := true
      offer := none
      draws := s.draws + rxDraws bs.length s } := by
  have h := storeAll_eq (rxWrites addr (descAddr .rx (ringHead .rx s) s) bs s) s
  unfold rxDone
  generalize storeAll (rxWrites addr (descAddr .rx (ringHead .rx s) s) bs s) s = u at h ⊢
  generalize u.mem = m at h ⊢
  subst h
  rfl

end RxDone

/-! ### What every operation leaves alone -/

/-- No operation touches the marks, the launch's parameters, the driver, the schedule or the turn counter. -/
theorem exec_untouched {i : Instr} {s t : State} (h : exec i s = .next t) :
    t.faulted = s.faulted ∧ t.refused = s.refused ∧ t.launch = s.launch ∧ t.driver = s.driver ∧
      t.turns = s.turns ∧ t.rota = s.rota := by
  cases i <;> simp only [exec] at h
  case wrCtrl v => rcases execWrCtrl_next h with ⟨-, rfl⟩ | ⟨-, rfl⟩ <;> simp
  case wrRctl v => obtain ⟨rfl, -⟩ := execWrRctl_next h; simp
  case wrTctl v => obtain ⟨rfl, -⟩ := execWrTctl_next h; simp
  case rdIcr => rw [execRdIcr_next h]; simp
  case wrIcr v => rw [execWrIcr_next h]; split <;> simp
  case wrRdt v => obtain ⟨rfl, -⟩ := writeTail_next h; simp
  case wrTdt v => obtain ⟨rfl, -⟩ := writeTail_next h; simp
  case txdEopRs a l => obtain ⟨-, -, bs, -, -, -, rfl⟩ := execTxdEopRs_next.1 h; simp
  case txdEop a l => obtain ⟨-, bs, -, -, -, rfl⟩ := execTxdEop_next.1 h; simp
  case rxd a =>
    rcases execRxd_cases h with ⟨-, rfl⟩ | ⟨o, -, -, -, -, rfl⟩
    · simp
    · rw [rxDone_eq]; simp
  case wrIms | wrImc | wrMta | wrRal0 | wrRah0 | rdImc =>
    rw [← Host.Outcome.next.inj h]; simp
  case wrRdbal | wrRdbah | wrRdlen | wrRdh | wrTdbal | wrTdbah | wrTdlen | wrTdh =>
    obtain ⟨-, rfl⟩ := writeUnless_next.1 h; simp
  all_goals (rw [readReg_next.1 h]; simp)

/-- A register access changes no memory, sends nothing and takes no frame. -/
theorem accessed_frame {s t : State} (h : Accessed s t) :
    t.mem = s.mem ∧ t.txLog = s.txLog ∧ t.offer = s.offer := by
  obtain ⟨r, h | ⟨v, h⟩⟩ := h
  · cases r <;> simp only [readOp, exec] at h
    case icr => rw [execRdIcr_next h]; simp
    case imc => rw [← Host.Outcome.next.inj h]; simp
    all_goals (rw [readReg_next.1 h]; simp)
  · cases r <;> simp only [writeOp, exec] at h
    case ctrl => rcases execWrCtrl_next h with ⟨-, rfl⟩ | ⟨-, rfl⟩ <;> simp
    case rctl => obtain ⟨rfl, -⟩ := execWrRctl_next h; simp
    case tctl => obtain ⟨rfl, -⟩ := execWrTctl_next h; simp
    case icr => rw [execWrIcr_next h]; split <;> simp
    case rdt | tdt => obtain ⟨rfl, -⟩ := writeTail_next h; simp
    case ims | imc | mta | ral0 | rah0 => rw [← Host.Outcome.next.inj h]; simp
    all_goals (obtain ⟨-, rfl⟩ := writeUnless_next.1 h; simp)

/-- A load changes no memory, sends nothing and takes no frame. -/
theorem loadAt_frame {w : Width} {a : Nat} {s t : State} (h : loadAt w a s = .next t) :
    t.mem = s.mem ∧ t.txLog = s.txLog ∧ t.offer = s.offer := by
  rcases loadAt_next h with h | rfl
  · exact accessed_frame h
  · exact ⟨rfl, rfl, rfl⟩

/-- A poll changes no memory, sends nothing and takes no frame. -/
theorem hostPoll_frame {e : Engine} {i : Nat} {s t : State} (h : hostPoll e i s = .next t) :
    t.mem = s.mem ∧ t.txLog = s.txLog ∧ t.offer = s.offer := by
  unfold hostPoll at h
  split at h
  · simp at h
  · split at h
    · rw [← Host.Outcome.next.inj h]; exact ⟨rfl, rfl, rfl⟩
    · split at h
      · next u hu =>
        have hf := loadAt_frame hu
        rw [← Host.Outcome.next.inj h]
        exact hf
      · simp at h
      · simp at h

/-- A sent frame leaves the offer alone; after `RXD` nothing is on offer. -/
theorem exec_offer_descriptor {s t : State} {addr : Addr} {len : LenField} :
    (exec (.txdEopRs addr len) s = .next t → t.offer = s.offer) ∧
      (exec (.txdEop addr len) s = .next t → t.offer = s.offer) ∧
      (exec (.rxd addr) s = .next t → t.offer = none) := by
  refine ⟨fun h => ?_, fun h => ?_, fun h => ?_⟩
  · obtain ⟨-, -, bs, -, -, -, rfl⟩ := execTxdEopRs_next.1 h; simp
  · obtain ⟨-, bs, -, -, -, rfl⟩ := execTxdEop_next.1 h; simp
  · rcases execRxd_cases h with ⟨ho, rfl⟩ | ⟨o, -, -, -, -, rfl⟩
    · exact ho
    · rw [rxDone_eq]

end Sys2Proof.Laws
end

