-- ==== Sys2Proof/Laws/PerInstr.lean ====
section
/-! SUPPORT. Per instruction: the word the encoder gives lies in the instruction's row of spec/opcode_table.json. -/

namespace Sys2Proof.Laws.TableRow

/-- The match and the mask of the instruction's row in spec/opcode_table.json. -/
def row : Instr → Nat × Nat
  | .wrCtrl _ => (0x8000000000000000, 0xFFFFFFFF00000000)
  | .wrIcr _ => (0x800000C000000000, 0xFFFFFFFF00000000)
  | .wrIms _ => (0x800000D000000000, 0xFFFFFFFF00000000)
  | .wrImc _ => (0x800000D800000000, 0xFFFFFFFF00000000)
  | .wrRctl _ => (0x8000010000000000, 0xFFFFFFFF00000000)
  | .wrTctl _ => (0x8000040000000000, 0xFFFFFFFF00000000)
  | .wrRdbal _ => (0x8000280000000000, 0xFFFFFFFF00000000)
  | .wrRdbah _ => (0x8000280400000000, 0xFFFFFFFF00000000)
  | .wrRdlen _ => (0x8000280800000000, 0xFFFFFFFF00000000)
  | .wrRdh _ => (0x8000281000000000, 0xFFFFFFFF00000000)
  | .wrRdt _ => (0x8000281800000000, 0xFFFFFFFF00000000)
  | .wrTdbal _ => (0x8000380000000000, 0xFFFFFFFF00000000)
  | .wrTdbah _ => (0x8000380400000000, 0xFFFFFFFF00000000)
  | .wrTdlen _ => (0x8000380800000000, 0xFFFFFFFF00000000)
  | .wrTdh _ => (0x8000381000000000, 0xFFFFFFFF00000000)
  | .wrTdt _ => (0x8000381800000000, 0xFFFFFFFF00000000)
  | .wrMta _ _ => (0x8000520000000000, 0xFFFFFE0300000000)
  | .wrRal0 _ => (0x8000540000000000, 0xFFFFFFFF00000000)
  | .wrRah0 _ => (0x8000540400000000, 0xFFFFFFFF00000000)
  | .rdCtrl => (0x0000000000000000, 0xFFFFFFFFFFFFFFFF)
  | .rdIcr => (0x000000C000000000, 0xFFFFFFFFFFFFFFFF)
  | .rdIms => (0x000000D000000000, 0xFFFFFFFFFFFFFFFF)
  | .rdImc => (0x000000D800000000, 0xFFFFFFFFFFFFFFFF)
  | .rdRctl => (0x0000010000000000, 0xFFFFFFFFFFFFFFFF)
  | .rdTctl => (0x0000040000000000, 0xFFFFFFFFFFFFFFFF)
  | .rdRdbal => (0x0000280000000000, 0xFFFFFFFFFFFFFFFF)
  | .rdRdbah => (0x0000280400000000, 0xFFFFFFFFFFFFFFFF)
  | .rdRdlen => (0x0000280800000000, 0xFFFFFFFFFFFFFFFF)
  | .rdRdh => (0x0000281000000000, 0xFFFFFFFFFFFFFFFF)
  | .rdRdt => (0x0000281800000000, 0xFFFFFFFFFFFFFFFF)
  | .rdTdbal => (0x0000380000000000, 0xFFFFFFFFFFFFFFFF)
  | .rdTdbah => (0x0000380400000000, 0xFFFFFFFFFFFFFFFF)
  | .rdTdlen => (0x0000380800000000, 0xFFFFFFFFFFFFFFFF)
  | .rdTdh => (0x0000381000000000, 0xFFFFFFFFFFFFFFFF)
  | .rdTdt => (0x0000381800000000, 0xFFFFFFFFFFFFFFFF)
  | .rdMta _ => (0x0000520000000000, 0xFFFFFE03FFFFFFFF)
  | .rdRal0 => (0x0000540000000000, 0xFFFFFFFFFFFFFFFF)
  | .rdRah0 => (0x0000540400000000, 0xFFFFFFFFFFFFFFFF)
  | .txdEopRs _ _ => (0x00000000090000000000000000000000, 0x00000000FF0000000000000000000000)
  | .txdEop _ _ => (0x00000000010000000000000000000000, 0x00000000FF0000000000000000000000)
  | .rxd _ => (0x00000000000000000000000000000000, 0x00000000000000000000000000000000)

/-- A word under the mask is the match. -/
def inRow : Code → Nat × Nat → Prop
  | .mmio t, r => t &&& BitVec.ofNat 64 r.2 = BitVec.ofNat 64 r.1
  | .txd d, r => d &&& BitVec.ofNat _ r.2 = BitVec.ofNat _ r.1
  | .rxd d, r => d &&& BitVec.ofNat _ r.2 = BitVec.ofNat _ r.1

/-- The instruction's encoding lies in its row of the opcode table (30_encoding.md rule R102). -/
def Statement (i : Instr) : Prop := inRow (encode i) (row i)

/-- A register write's word under a mask that covers none of its data. -/
theorem write_in_row (r : Reg) (v : Word) (m : BitVec 32) {mask mtch : Nat}
    (hmask : BitVec.ofNat 64 mask = m ++ 0#32)
    (hmatch : ((1#1 ++ 0#11 ++ BitVec.ofNat 20 r.off : BitVec 32) &&& m) ++ 0#32 = BitVec.ofNat 64 mtch) :
    mmioWrite r v &&& BitVec.ofNat 64 mask = BitVec.ofNat 64 mtch := by
  rw [hmask, ← hmatch]
  refine (BitVec.and_append (x₁ := (1#1 ++ 0#11 ++ BitVec.ofNat 20 r.off : BitVec 32))).trans ?_
  simp

/-- A register read's word under its row's mask. -/
theorem read_in_row (r : Reg) {mask mtch : Nat}
    (h : mmioRead r &&& BitVec.ofNat 64 mask = BitVec.ofNat 64 mtch) :
    mmioRead r &&& BitVec.ofNat 64 mask = BitVec.ofNat 64 mtch := h

/-- A TX descriptor's word under the mask of its command byte. -/
theorem txd_in_row (cmd : Byte) (len : LenField) (addr : Addr) {mask mtch : Nat}
    (hmask : mask = 0x00000000FF0000000000000000000000)
    (hmatch : inField cmd config.tx.cmd = BitVec.ofNat _ mtch) :
    encodeTxd addr len cmd &&& BitVec.ofNat _ mask = BitVec.ofNat _ mtch := by
  subst hmask
  have h1 := inField_and_of_clear addr config.tx.addr _ (by decide +kernel : ∀ k < 64,
    (BitVec.ofNat (8 * config.descSize) 0x00000000FF0000000000000000000000).getLsbD (config.tx.addr + k) = false)
  have h2 := inField_and_of_clear len config.tx.length _ (by decide +kernel : ∀ k < 16,
    (BitVec.ofNat (8 * config.descSize) 0x00000000FF0000000000000000000000).getLsbD (config.tx.length + k) = false)
  have h3 := inField_and_of_set cmd config.tx.cmd _ (by decide +kernel : ∀ k < 8,
    (BitVec.ofNat (8 * config.descSize) 0x00000000FF0000000000000000000000).getLsbD (config.tx.cmd + k) = true)
  unfold encodeTxd
  rw [BitVec.and_or_distrib_right, BitVec.and_or_distrib_right, h1, h2, h3, hmatch]
  rw [BitVec.or_self]
  exact BitVec.zero_or

theorem wrCtrl (v : Word) : Statement (.wrCtrl v) :=
  write_in_row (mask := 0xFFFFFFFF00000000) (mtch := 0x8000000000000000)
    .ctrl v 0xFFFFFFFF (by decide) (by decide)
theorem wrIcr (v : Word) : Statement (.wrIcr v) :=
  write_in_row (mask := 0xFFFFFFFF00000000) (mtch := 0x800000C000000000)
    .icr v 0xFFFFFFFF (by decide) (by decide)
theorem wrIms (v : Word) : Statement (.wrIms v) :=
  write_in_row (mask := 0xFFFFFFFF00000000) (mtch := 0x800000D000000000)
    .ims v 0xFFFFFFFF (by decide) (by decide)
theorem wrImc (v : Word) : Statement (.wrImc v) :=
  write_in_row (mask := 0xFFFFFFFF00000000) (mtch := 0x800000D800000000)
    .imc v 0xFFFFFFFF (by decide) (by decide)
theorem wrRctl (v : Word) : Statement (.wrRctl v) :=
  write_in_row (mask := 0xFFFFFFFF00000000) (mtch := 0x8000010000000000)
    .rctl v 0xFFFFFFFF (by decide) (by decide)
theorem wrTctl (v : Word) : Statement (.wrTctl v) :=
  write_in_row (mask := 0xFFFFFFFF00000000) (mtch := 0x8000040000000000)
    .tctl v 0xFFFFFFFF (by decide) (by decide)
theorem wrRdbal (v : Word) : Statement (.wrRdbal v) :=
  write_in_row (mask := 0xFFFFFFFF00000000) (mtch := 0x8000280000000000)
    .rdbal v 0xFFFFFFFF (by decide) (by decide)
theorem wrRdbah (v : Word) : Statement (.wrRdbah v) :=
  write_in_row (mask := 0xFFFFFFFF00000000) (mtch := 0x8000280400000000)
    .rdbah v 0xFFFFFFFF (by decide) (by decide)
theorem wrRdlen (v : Word) : Statement (.wrRdlen v) :=
  write_in_row (mask := 0xFFFFFFFF00000000) (mtch := 0x8000280800000000)
    .rdlen v 0xFFFFFFFF (by decide) (by decide)
theorem wrRdh (v : Word) : Statement (.wrRdh v) :=
  write_in_row (mask := 0xFFFFFFFF00000000) (mtch := 0x8000281000000000)
    .rdh v 0xFFFFFFFF (by decide) (by decide)
theorem wrRdt (v : Word) : Statement (.wrRdt v) :=
  write_in_row (mask := 0xFFFFFFFF00000000) (mtch := 0x8000281800000000)
    .rdt v 0xFFFFFFFF (by decide) (by decide)
theorem wrTdbal (v : Word) : Statement (.wrTdbal v) :=
  write_in_row (mask := 0xFFFFFFFF00000000) (mtch := 0x8000380000000000)
    .tdbal v 0xFFFFFFFF (by decide) (by decide)
theorem wrTdbah (v : Word) : Statement (.wrTdbah v) :=
  write_in_row (mask := 0xFFFFFFFF00000000) (mtch := 0x8000380400000000)
    .tdbah v 0xFFFFFFFF (by decide) (by decide)
theorem wrTdlen (v : Word) : Statement (.wrTdlen v) :=
  write_in_row (mask := 0xFFFFFFFF00000000) (mtch := 0x8000380800000000)
    .tdlen v 0xFFFFFFFF (by decide) (by decide)
theorem wrTdh (v : Word) : Statement (.wrTdh v) :=
  write_in_row (mask := 0xFFFFFFFF00000000) (mtch := 0x8000381000000000)
    .tdh v 0xFFFFFFFF (by decide) (by decide)
theorem wrTdt (v : Word) : Statement (.wrTdt v) :=
  write_in_row (mask := 0xFFFFFFFF00000000) (mtch := 0x8000381800000000)
    .tdt v 0xFFFFFFFF (by decide) (by decide)
theorem wrMta (n : MtaIdx) (v : Word) : Statement (.wrMta n v) :=
  write_in_row (mask := 0xFFFFFE0300000000) (mtch := 0x8000520000000000)
    (.mta n) v 0xFFFFFE03 (by decide) (by revert n; decide)
theorem wrRal0 (v : Word) : Statement (.wrRal0 v) :=
  write_in_row (mask := 0xFFFFFFFF00000000) (mtch := 0x8000540000000000)
    .ral0 v 0xFFFFFFFF (by decide) (by decide)
theorem wrRah0 (v : Word) : Statement (.wrRah0 v) :=
  write_in_row (mask := 0xFFFFFFFF00000000) (mtch := 0x8000540400000000)
    .rah0 v 0xFFFFFFFF (by decide) (by decide)
theorem rdCtrl : Statement (.rdCtrl) :=
  read_in_row (mask := 0xFFFFFFFFFFFFFFFF) (mtch := 0x0000000000000000) .ctrl (by decide)
theorem rdIcr : Statement (.rdIcr) :=
  read_in_row (mask := 0xFFFFFFFFFFFFFFFF) (mtch := 0x000000C000000000) .icr (by decide)
theorem rdIms : Statement (.rdIms) :=
  read_in_row (mask := 0xFFFFFFFFFFFFFFFF) (mtch := 0x000000D000000000) .ims (by decide)
theorem rdImc : Statement (.rdImc) :=
  read_in_row (mask := 0xFFFFFFFFFFFFFFFF) (mtch := 0x000000D800000000) .imc (by decide)
theorem rdRctl : Statement (.rdRctl) :=
  read_in_row (mask := 0xFFFFFFFFFFFFFFFF) (mtch := 0x0000010000000000) .rctl (by decide)
theorem rdTctl : Statement (.rdTctl) :=
  read_in_row (mask := 0xFFFFFFFFFFFFFFFF) (mtch := 0x0000040000000000) .tctl (by decide)
theorem rdRdbal : Statement (.rdRdbal) :=
  read_in_row (mask := 0xFFFFFFFFFFFFFFFF) (mtch := 0x0000280000000000) .rdbal (by decide)
theorem rdRdbah : Statement (.rdRdbah) :=
  read_in_row (mask := 0xFFFFFFFFFFFFFFFF) (mtch := 0x0000280400000000) .rdbah (by decide)
theorem rdRdlen : Statement (.rdRdlen) :=
  read_in_row (mask := 0xFFFFFFFFFFFFFFFF) (mtch := 0x0000280800000000) .rdlen (by decide)
theorem rdRdh : Statement (.rdRdh) :=
  read_in_row (mask := 0xFFFFFFFFFFFFFFFF) (mtch := 0x0000281000000000) .rdh (by decide)
theorem rdRdt : Statement (.rdRdt) :=
  read_in_row (mask := 0xFFFFFFFFFFFFFFFF) (mtch := 0x0000281800000000) .rdt (by decide)
theorem rdTdbal : Statement (.rdTdbal) :=
  read_in_row (mask := 0xFFFFFFFFFFFFFFFF) (mtch := 0x0000380000000000) .tdbal (by decide)
theorem rdTdbah : Statement (.rdTdbah) :=
  read_in_row (mask := 0xFFFFFFFFFFFFFFFF) (mtch := 0x0000380400000000) .tdbah (by decide)
theorem rdTdlen : Statement (.rdTdlen) :=
  read_in_row (mask := 0xFFFFFFFFFFFFFFFF) (mtch := 0x0000380800000000) .tdlen (by decide)
theorem rdTdh : Statement (.rdTdh) :=
  read_in_row (mask := 0xFFFFFFFFFFFFFFFF) (mtch := 0x0000381000000000) .tdh (by decide)
theorem rdTdt : Statement (.rdTdt) :=
  read_in_row (mask := 0xFFFFFFFFFFFFFFFF) (mtch := 0x0000381800000000) .tdt (by decide)
theorem rdMta (n : MtaIdx) : Statement (.rdMta n) :=
  read_in_row (mask := 0xFFFFFE03FFFFFFFF) (mtch := 0x0000520000000000) (.mta n) (by revert n; decide)
theorem rdRal0 : Statement (.rdRal0) :=
  read_in_row (mask := 0xFFFFFFFFFFFFFFFF) (mtch := 0x0000540000000000) .ral0 (by decide)
theorem rdRah0 : Statement (.rdRah0) :=
  read_in_row (mask := 0xFFFFFFFFFFFFFFFF) (mtch := 0x0000540400000000) .rah0 (by decide)
theorem txdEopRs (addr : Addr) (len : LenField) : Statement (.txdEopRs addr len) :=
  txd_in_row (mask := 0x00000000FF0000000000000000000000) (mtch := 0x00000000090000000000000000000000)
    cmdEopRs len addr rfl (by decide)
theorem txdEop (addr : Addr) (len : LenField) : Statement (.txdEop addr len) :=
  txd_in_row (mask := 0x00000000FF0000000000000000000000) (mtch := 0x00000000010000000000000000000000)
    cmdEop len addr rfl (by decide)
theorem rxd (addr : Addr) : Statement (.rxd addr) :=
  BitVec.and_zero

end Sys2Proof.Laws.TableRow
end

