-- ==== Sys2Proof/Tests/Slice0.lean ====
section
/-! SUPPORT. The model's own tests, on the vectors of spec/95_test_vectors.md (sections are cited as 95 §n), and one
witness for every statement that has hypotheses: a concrete state and operands that meet them. -/

namespace Sys2Proof.Tests

open Sys2Proof.Machine

-- One test after the other: each `decide +kernel` waits for the kernel, and side by side they would hold a thread each.
set_option Elab.async false

/-! ### Small states -/

/-- Whether an outcome is a next state of which `p` holds. -/
def nextIs (r : Result) (p : State → Bool) : Bool :=
  match r with
  | .next t => p t
  | .fault _ => false
  | .refused _ => false

/-- Whether an outcome is this fault. -/
def faultIs (r : Result) (f : Fault) : Bool :=
  match r with
  | .next _ => false
  | .fault g => decide (f = g)
  | .refused _ => false

/-- Whether an outcome is this refusal. -/
def refusedIs (r : Result) (x : Refusal) : Bool :=
  match r with
  | .next _ => false
  | .fault _ => false
  | .refused y => decide (x = y)

/-- An outcome that `nextIs` accepts is a next state. -/
theorem exists_next {r : Result} {p : State → Bool} (h : nextIs r p = true) : ∃ t, r = .next t ∧ p t = true := by
  cases r with
  | next t => exact ⟨t, rfl, h⟩
  | fault f => cases h
  | refused x => cases h

/-- The TX ring of 95 (16 slots at 0x10000), head 0, tail 1, enabled; slot 0 names `len` bytes at 0x40000 under the
command byte `cmd`; the buffer holds `buf`; the engine's step is next. -/
def txState (len cmd : Nat) (buf : List Byte) : State :=
  { State.reset with
    tdbal := 0x10000, tdlen := 256, tdt := 1, tctl := 2, turns := [.txEngine],
    mem := Memory.write (Memory.cells 0x10000 (leBytes 16 (0x40000 + len * 2 ^ 64 + cmd * 2 ^ 88))) 0x40000 buf }

/-- The eight bytes of 95 §2.5. -/
def eightBytes : List Byte := [1, 2, 3, 4, 5, 6, 7, 8]

/-- A frame of the bytes 01 02 03 with the check sequence AA BB CC DD (95 §2.6). -/
def threeBytes : Offer where
  first := 1
  rest := [2, 3]
  fcs := #v[0xAA, 0xBB, 0xCC, 0xDD]

/-- A frame of `n + 1` zero bytes. -/
def longFrame (n : Nat) : Offer := { threeBytes with rest := List.replicate n 0 }

/-- The RX ring of 95 (16 slots at 0x11000), head 0, tail 15; slot 0 names the buffer at 0x20000; `rctl` as given;
the offer of `threeBytes` is next. With `BSIZE` = 11 the buffer has 256 bytes. -/
def rxState (rctl : Word) : State :=
  { State.reset with
    rdbal := 0x11000, rdlen := 256, rdt := 15, rctl := rctl, turns := [.offer threeBytes],
    mem := Memory.cells 0x11000 (leBytes 16 0x20000) }

/-- `RCTL` with the receiver enabled, 256-byte buffers and stripping. -/
def rctl256 : Word := 0x04030002

/-! ### Which operations are well formed -/

theorem test_wellFormed_refuses :
    WellFormed (.txdEopRs 0x40000 0) = false ∧ WellFormed (.txdEopRs 0x40000 4097) = false ∧
    WellFormed (.txdEop 0x40000 0) = false ∧ WellFormed (.txdEop 0x40000 4097) = false := by decide

theorem test_wellFormed_admits :
    WellFormed (.txdEopRs 0x40000 1) = true ∧ WellFormed (.txdEop 0x40000 4096) = true ∧
    WellFormed (.wrTdlen 127) = true ∧ WellFormed (.rdMta ⟨127, by decide⟩) = true ∧ WellFormed (.rxd 0) = true := by decide

/-! ### Decoding: words written out from the spec (95 §2.1, §2.5; 30_encoding.md rules R91, R94, R100) -/

theorem test_decode_control :
    decode (.mmio 0x800000005A5A5A5A) = .ok (.wrCtrl 0x5A5A5A5A) ∧ decode (.mmio 0x0000000000000000) = .ok .rdCtrl ∧
    decode (.mmio 0x800001005A5A5A5A) = .ok (.wrRctl 0x5A5A5A5A) ∧ decode (.mmio 0x0000010000000000) = .ok .rdRctl ∧
    decode (.mmio 0x800004005A5A5A5A) = .ok (.wrTctl 0x5A5A5A5A) ∧ decode (.mmio 0x0000040000000000) = .ok .rdTctl := by
  decide

theorem test_decode_interrupt :
    decode (.mmio 0x800000C05A5A5A5A) = .ok (.wrIcr 0x5A5A5A5A) ∧ decode (.mmio 0x000000C000000000) = .ok .rdIcr ∧
    decode (.mmio 0x800000D05A5A5A5A) = .ok (.wrIms 0x5A5A5A5A) ∧ decode (.mmio 0x000000D000000000) = .ok .rdIms ∧
    decode (.mmio 0x800000D85A5A5A5A) = .ok (.wrImc 0x5A5A5A5A) ∧ decode (.mmio 0x000000D800000000) = .ok .rdImc := by
  decide

theorem test_decode_rxRing :
    decode (.mmio 0x800028005A5A5A5A) = .ok (.wrRdbal 0x5A5A5A5A) ∧ decode (.mmio 0x0000280000000000) = .ok .rdRdbal ∧
    decode (.mmio 0x800028045A5A5A5A) = .ok (.wrRdbah 0x5A5A5A5A) ∧ decode (.mmio 0x0000280400000000) = .ok .rdRdbah ∧
    decode (.mmio 0x800028085A5A5A5A) = .ok (.wrRdlen 0x5A5A5A5A) ∧ decode (.mmio 0x0000280800000000) = .ok .rdRdlen ∧
    decode (.mmio 0x800028105A5A5A5A) = .ok (.wrRdh 0x5A5A5A5A) ∧ decode (.mmio 0x0000281000000000) = .ok .rdRdh ∧
    decode (.mmio 0x800028185A5A5A5A) = .ok (.wrRdt 0x5A5A5A5A) ∧ decode (.mmio 0x0000281800000000) = .ok .rdRdt := by
  decide

theorem test_decode_txRing :
    decode (.mmio 0x800038005A5A5A5A) = .ok (.wrTdbal 0x5A5A5A5A) ∧ decode (.mmio 0x0000380000000000) = .ok .rdTdbal ∧
    decode (.mmio 0x800038045A5A5A5A) = .ok (.wrTdbah 0x5A5A5A5A) ∧ decode (.mmio 0x0000380400000000) = .ok .rdTdbah ∧
    decode (.mmio 0x800038085A5A5A5A) = .ok (.wrTdlen 0x5A5A5A5A) ∧ decode (.mmio 0x0000380800000000) = .ok .rdTdlen ∧
    decode (.mmio 0x800038105A5A5A5A) = .ok (.wrTdh 0x5A5A5A5A) ∧ decode (.mmio 0x0000381000000000) = .ok .rdTdh ∧
    decode (.mmio 0x800038185A5A5A5A) = .ok (.wrTdt 0x5A5A5A5A) ∧ decode (.mmio 0x0000381800000000) = .ok .rdTdt := by
  decide

theorem test_decode_filter :
    decode (.mmio 0x800052005A5A5A5A) = .ok (.wrMta ⟨0, by decide⟩ 0x5A5A5A5A) ∧ decode (.mmio 0x0000520000000000) = .ok (.rdMta ⟨0, by decide⟩) ∧
    decode (.mmio 0x800053FC5A5A5A5A) = .ok (.wrMta ⟨127, by decide⟩ 0x5A5A5A5A) ∧
    decode (.mmio 0x000053FC00000000) = .ok (.rdMta ⟨127, by decide⟩) ∧
    decode (.mmio 0x800054005A5A5A5A) = .ok (.wrRal0 0x5A5A5A5A) ∧ decode (.mmio 0x0000540000000000) = .ok .rdRal0 ∧
    decode (.mmio 0x800054045A5A5A5A) = .ok (.wrRah0 0x5A5A5A5A) ∧ decode (.mmio 0x0000540400000000) = .ok .rdRah0 := by
  decide

theorem test_decode_descriptors :
    decode (.txd 0x00000001090000080000000000040000) = .ok (.txdEopRs 0x40000 8) ∧
    decode (.txd 0x00000000010000080000000000040000) = .ok (.txdEop 0x40000 8) ∧
    decode (.rxd 0x0000000300000003000000000002F000) = .ok (.rxd 0x2F000) := by decide

/-- Bits the operations do not look at change nothing: `cso`, `status`, `css` and `special` of a TX descriptor. -/
theorem test_decode_ignores :
    decode (.txd 0xFFFFFFFF09FF00080000000000040000) = .ok (.txdEopRs 0x40000 8) := by decide

theorem test_decode_rejects :
    decode (.mmio 0x8010381800000001) = .error (.notAWord 0x8010381800000001) ∧
    decode (.mmio 0x0000381800000001) = .error (.notAWord 0x0000381800000001) ∧
    decode (.mmio 0x0000000800000000) = .error (.unknownReg 0x00008) ∧
    decode (.mmio 0x8000282000000000) = .error (.unknownReg 0x02820) ∧
    decode (.mmio 0x0000540800000000) = .error (.unknownReg 0x05408) ∧
    decode (.mmio 0x8000381A00000000) = .error (.regWidth 0x0381A 32) ∧
    decodeAccess true 16 0x03818 0 = .error (.regWidth 0x03818 16) ∧
    decodeAccess false 16 0x00008 0 = .error (.regWidth 0x00008 16) := by decide

/-- The commands of 95 §2.5 that are no form: `EOP` is tested before the reserved bits, the length before both. -/
theorem test_decode_commands :
    decode (.txd 0x00000000080000080000000000040000) = .error .txNoEop ∧
    decode (.txd 0x00000000000000080000000000040000) = .error .txNoEop ∧
    decode (.txd 0x000000000A0000080000000000040000) = .error .txNoEop ∧
    decode (.txd 0x000000000B0000080000000000040000) = .error (.txCmd 0x0B) ∧
    decode (.txd 0x00000000290000080000000000040000) = .error (.txCmd 0x29) ∧
    decode (.txd 0x000000000A0000000000000000040000) = .error (.txLen 0) := by decide

/-- The encoder writes the words that 95 §2.1 and §2.5 give. -/
theorem test_encode :
    encode (.wrTdt 1) = .mmio 0x8000381800000001 ∧ encode .rdRdt = .mmio 0x0000281800000000 ∧
    encode (.wrMta ⟨127, by decide⟩ 0x5A5A5A5A) = .mmio 0x800053FC5A5A5A5A ∧
    encode (.txdEopRs 0x40000 8) = .txd 0x00000000090000080000000000040000 ∧
    encode (.rxd 0x20000) = .rxd 0x20000 := by decide

/-- The opcode table's words reach their rows: a register access, the two TX forms, the RX descriptor. -/
theorem test_tableWord :
    decodeTableWord 64 0x8000000000000000 = some (.wrCtrl 0) ∧ decodeTableWord 64 0x0000381800000000 = some .rdTdt ∧
    decodeTableWord 128 0x00000000090000000000000000000000 = some (.txdEopRs 0 0) ∧
    decodeTableWord 128 0x00000000010000080000000000040000 = some (.txdEop 0x40000 8) ∧
    decodeTableWord 128 0 = some (.rxd 0) := by decide

/-! ### Stored values and masks (95 §2.2) -/

theorem test_wrTdlen_rounds_down :
    nextIs (exec (.wrTdlen 256) State.reset) (fun t => t.tdlen == 0x100 && ringCap .tx t == 16) = true ∧
    nextIs (exec (.wrTdlen 200) State.reset) (fun t => t.tdlen == 128 && ringCap .tx t == 8) = true ∧
    nextIs (exec (.wrTdlen 127) State.reset) (fun t => t.tdlen == 0 && ringCap .tx t == 0) = true := by decide

theorem test_wrTdlen_all_ones :
    nextIs (exec (.wrTdlen 0xFFFFFFFF) State.reset) (fun t => t.tdlen == 0x000FFF80 && ringCap .tx t == 65528) = true :=
  by decide

theorem test_wrRdlen :
    nextIs (exec (.wrRdlen 200) State.reset) (fun t => t.rdlen == 128 && ringCap .rx t == 8) = true := by decide

theorem test_wrTdbal : nextIs (exec (.wrTdbal 0x0001000F) State.reset) (fun t => t.tdbal == 0x00010000) = true := by
  decide

theorem test_wrRdbal : nextIs (exec (.wrRdbal 0xFFFFFFFF) State.reset) (fun t => t.rdbal == 0xFFFFFFF0) = true := by
  decide

theorem test_wrTdh : nextIs (exec (.wrTdh 0x00012345) State.reset) (fun t => t.tdh == 0x00002345) = true := by decide

theorem test_wrTdt :
    nextIs (exec (.wrTdt 0x0001000F) (txState 8 9 [])) (fun t => t.tdt == 15) = true ∧
    refusedIs (exec (.wrTdt 16) (txState 8 9 [])) (.idxRange .tdt 16) = true := by decide

theorem test_wrRdt :
    refusedIs (exec (.wrRdt 16) (rxState 0x04000002)) (.idxRange .rdt 16) = true ∧
    nextIs (exec (.wrRdt 16) (rxState 0)) (fun t => t.rdt == 16 && refusedIs (exec (.wrRctl 0x04000002) t)
      (.idxRange .rdt 16)) = true := by decide

theorem test_wrCtrl :
    nextIs (exec (.wrCtrl 0x00000040) State.reset)
      (fun t => nextIs (exec .rdCtrl t) fun u => u.hostRead == 0x40) = true := by decide

theorem test_wrCtrl_resets :
    nextIs (exec (.wrCtrl 0x04000040) (txState 8 9 eightBytes)) (fun t =>
      t.tdt == 0 && t.tdlen == 0 && (ownedSlots .tx t).isEmpty && t.mem.length == 24) = true := by decide

theorem test_wrMta :
    nextIs (exec (.wrMta ⟨5, by decide⟩ 0xDEADBEEF) State.reset) (fun t =>
      nextIs (exec (.rdMta ⟨5, by decide⟩) t) (fun u => u.hostRead == 0xDEADBEEF) &&
      nextIs (exec (.rdMta ⟨4, by decide⟩) t) (fun u => u.hostRead == 0)) = true := by decide

theorem test_wrRal0 :
    nextIs (exec (.wrRal0 0x12005452) State.reset)
      (fun t => nextIs (exec .rdRal0 t) fun u => u.hostRead == 0x12005452) = true := by decide

/-! ### Refusals (95 §2.3) -/

theorem test_wrTctl :
    refusedIs (exec (.wrTctl 2) State.reset) (.idxRange .tdh 0) = true ∧
    refusedIs (exec (.wrTctl 2) { State.reset with tdlen := 256, tdh := 0x2345 }) (.idxRange .tdh 0x2345) = true ∧
    refusedIs (exec (.wrTctl 2) { State.reset with tdlen := 256, tdt := 16 }) (.idxRange .tdt 16) = true := by decide

theorem test_wrTctl_enables :
    nextIs (exec (.wrTctl 2) { State.reset with tdlen := 256, tdt := 15 })
      (fun t => engineOn .tx t && decide (ownedSlots .tx t = List.range 15)) = true := by decide

theorem test_tx_reprogram :
    refusedIs (exec (.wrTdh 0) (txState 8 9 [])) (.headWriteEn .tdh) = true ∧
    refusedIs (exec (.wrTdbal 0) (txState 8 9 [])) (.reprogram .tdbal) = true ∧
    refusedIs (exec (.wrTdbah 0) (txState 8 9 [])) (.reprogram .tdbah) = true ∧
    refusedIs (exec (.wrTdlen 256) (txState 8 9 [])) (.reprogram .tdlen) = true := by decide

theorem test_wrRctl :
    refusedIs (exec (.wrRctl 0x04010002) (rxState 0x04000002)) (.reprogram .rctl) = true ∧
    refusedIs (exec (.wrRctl 0x00000002) (rxState 0x04000002)) (.reprogram .rctl) = true ∧
    refusedIs (exec (.wrRdh 0) (rxState 0x04000002)) (.headWriteEn .rdh) = true := by decide

theorem test_wrRctl_accepted :
    nextIs (exec (.wrRctl 0x04008002) (rxState 0x04000002)) (fun t => t.rctl == 0x04008002) = true ∧
    nextIs (exec (.wrRctl 0x00010000) (rxState 0x04000002)) (fun t => !engineOn .rx t && rxBufSize t == 1024) = true := by
  decide

/-! ### Interrupts (95 §2.4) -/

theorem test_rdIcr :
    nextIs (exec .rdIcr { State.reset with rxdw := true, im := 0x80 }) (fun t => !t.rxdw && t.im == 0x80) = true := by
  decide

theorem test_wrIcr :
    nextIs (exec (.wrIcr 0x0000007F) { State.reset with rxdw := true }) (fun t => t.rxdw) = true ∧
    nextIs (exec (.wrIcr 0x00000080) { State.reset with rxdw := true }) (fun t => !t.rxdw) = true := by decide

theorem test_masks :
    nextIs (exec (.wrIms 0x80) { State.reset with rxdw := true }) (fun t => t.rxdw && intLine t) = true ∧
    nextIs (exec (.wrImc 0x80) { State.reset with rxdw := true, im := 0x80 })
      (fun t => t.rxdw && t.im == 0 && !intLine t) = true := by decide

/-! ### Transmit (95 §2.5) -/

theorem test_txdEopRs :
    nextIs (step (txState 8 0x09 eightBytes)) (fun t =>
      decide (t.txLog = [eightBytes]) && t.tdh == 1 && t.rxdw == false && (ownedSlots .tx t).isEmpty) = true := by
  decide +kernel

theorem test_txdEop :
    nextIs (step (txState 8 0x01 eightBytes)) (fun t =>
      decide (t.txLog = [eightBytes]) && t.tdh == 1 && Memory.find t.mem 0x1000C == some 0) = true := by
  decide +kernel

theorem test_tx_refusals :
    refusedIs (step (txState 8 0x0A eightBytes)) (.txNoEop 0) = true ∧
    refusedIs (step (txState 8 0x0B eightBytes)) (.txCmd 0 0x0B) = true ∧
    refusedIs (step (txState 0 0x09 eightBytes)) (.txLen 0 0) = true ∧
    refusedIs (step (txState 4097 0x09 eightBytes)) (.txLen 0 4097) = true ∧
    refusedIs (step (txState 0 0x0A eightBytes)) (.txLen 0 0) = true := by decide +kernel

theorem test_tx_faults :
    faultIs (step (txState 8 0x09 [])) (.uninit 0x40000 .tx) = true ∧
    faultIs (step { txState 8 0x09 eightBytes with
      launch := { State.reset.launch with dmaOk := [{ base := 0x10000, size := 0x100 }] } }) (.dma 0x40000 .tx) = true := by
  decide +kernel

/-! ### Receive (95 §2.6) -/

theorem test_rxd :
    nextIs (step (rxState rctl256)) (fun t =>
      t.rxdw && t.rdh == 1 && decide (peekBytes t 0x20000 3 = [1, 2, 3]) &&
      decide (peekBytes t 0x11008 2 = [3, 0]) && decide ((Memory.find t.mem 0x200FF).isSome) &&
      decide ((Memory.find t.mem 0x20100).isNone)) = true := by decide +kernel

theorem test_rxd_fcs :
    nextIs (step (rxState 0x00030002)) (fun t =>
      decide (peekBytes t 0x20000 7 = [1, 2, 3, 0xAA, 0xBB, 0xCC, 0xDD]) && decide (peekBytes t 0x11008 2 = [7, 0]) &&
      Memory.find t.mem 0x1100D == some 0) = true := by decide +kernel

theorem test_rx_order :
    refusedIs (rxStep (longFrame 256) (rxState rctl256)) (.rxLong 257) = true ∧
    refusedIs (rxStep (longFrame 256) { rxState rctl256 with rdt := 0 }) (.rxLong 257) = true ∧
    nextIs (rxStep threeBytes { rxState rctl256 with rdt := 0 }) (fun t => !t.rxdw && t.rdh == 0) = true ∧
    nextIs (rxStep (longFrame 256) (rxState 0x04030000)) (fun t => !t.rxdw && t.rdh == 0) = true := by decide +kernel

/-! ### Ownership (95 §2.7) -/

theorem test_host_store_owned :
    faultIs (hostStore .w8 0x1100C 0 (rxState rctl256)) (.ownWrite 0x1100C { ring := .rx, slot := 0 }) = true ∧
    faultIs (hostStore .w8 0x200FF 0 { rxState rctl256 with rdt := 1 })
      (.ownWrite 0x200FF { ring := .rx, slot := 0 }) = true ∧
    nextIs (hostStore .w8 0x20100 7 { rxState rctl256 with rdt := 1 })
      (fun t => Memory.find t.mem 0x20100 == some 7) = true := by decide +kernel

theorem test_host_store_tx :
    faultIs (hostStore .w8 0x40001 0 (txState 4 9 eightBytes)) (.ownWrite 0x40001 { ring := .tx, slot := 0 }) = true ∧
    nextIs (hostStore .w8 0x40004 0 (txState 4 9 eightBytes)) (fun t => Memory.find t.mem 0x40004 == some 0) = true := by
  decide +kernel

theorem test_poll :
    nextIs (hostPoll .tx 0 (txState 8 9 [])) (fun t => t.hostRead == 0) = true ∧
    nextIs (hostPoll .tx 0 { txState 8 9 [] with mem := Memory.write (txState 8 9 []).mem 0x1000C [1] })
      (fun t => t.hostRead == 1) = true := by decide +kernel

/-- A 16-bit access at 0x03818 of the window, and a 32-bit one 2 bytes further, are refused. -/
theorem test_window_width :
    refusedIs (hostLoad .w16 0xFFFFFFFFFFFE3818 State.reset) (.regWidth 0x03818 16) = true ∧
    refusedIs (hostStore .w32 0xFFFFFFFFFFFE381A 0 State.reset) (.regWidth 0x0381A 32) = true ∧
    nextIs (hostStore .w32 0xFFFFFFFFFFFE3808 256 State.reset) (fun t => t.tdlen == 256) = true := by decide +kernel

/-! ### Index arithmetic (95 §2.8) -/

theorem test_index_arithmetic :
    ringNext 16 0 = 1 ∧ ringNext 16 14 = 15 ∧ ringNext 16 15 = 0 ∧ ringDist 16 0 0 = 0 ∧ ringDist 16 0 15 = 15 ∧
    ringDist 16 15 0 = 1 ∧ ringDist 16 5 4 = 15 ∧ ringNext 8 7 = 0 ∧
    (List.range 16).filter (inInterval 16 14 2) = [0, 1, 14, 15] ∧
    (List.range 16).filter (inInterval 16 3 3) = [] := by decide

/-! ### The first instruction after reset -/

theorem test_withFetchWord_mmio :
    nextIs (step (State.reset.withFetchWord 64 0x8000001000000000)) (fun _ => true) = false ∧
    nextIs (step (State.reset.withFetchWord 64 0x8000380800000100)) (fun t => t.tdlen == 256) = true := by
  decide +kernel

theorem test_withFetchWord_descriptor :
    nextIs (step (State.reset.withFetchWord 128 0)) (fun t => t.rxdw && t.rdh == 1) = true ∧
    refusedIs (step (State.reset.withFetchWord 128 0x00000000090000000000000000000000)) (.txLen 0 0) = true := by
  decide +kernel

/-! ### Witnesses: each statement's hypotheses, met by one state; one theorem per statement, a conjunct per clause -/

theorem witness_IcrWriteClearsOnOne :
    (0x00000080#32).getLsbD 7 = true ∧ (0xFFFFFF7F#32).getLsbD 7 = false := by decide

theorem witness_FilterRegistersAreStorage : (⟨127, by decide⟩ : MtaIdx) ≠ ⟨126, by decide⟩ := by decide

theorem witness_MaskPortsSetAndClearBits :
    nextIs (exec (.wrIms 0x80000001) State.reset) (fun t => t.im == 0x80000001) = true ∧
    nextIs (exec (.wrImc 0x80000001) { State.reset with im := 0xFFFFFFFF }) (fun t => t.im == 0x7FFFFFFE) = true := by
  decide

theorem witness_InterruptLineFollowsTheCause :
    (0x00000080#32) &&& 0xFFFFFF7F#32 = 0 ∧
    ({ State.reset with im := 0xFFFFFFFF, rxdw := true } : State).im.getLsbD 7 = true := by decide

theorem witness_CauseIsClearedOnlyByHostOrReset :
    nextIs (exec .rdIcr { State.reset with rxdw := true }) (fun t => !t.rxdw) = true ∧
    nextIs (exec (.wrIcr 0x80) { State.reset with rxdw := true }) (fun t => !t.rxdw) = true ∧
    nextIs (exec (.wrCtrl 0x04000000) { State.reset with rxdw := true }) (fun t => !t.rxdw) = true ∧
    nextIs (exec (.wrIcr 0x7F) { State.reset with rxdw := true }) (fun t => t.rxdw) = true := by decide

theorem witness_CauseIsSetOnlyByAStoredFrame :
    nextIs (exec (.rxd 0x20000) { rxState rctl256 with offer := some threeBytes }) (fun t => t.rxdw) = true ∧
    (rxState rctl256).rxdw = false := by decide +kernel

theorem witness_CtrlWriteStoresOrResets :
    (0xFBFFFFFF#32).getLsbD 26 = false ∧ (0x04000000#32).getLsbD 26 = true ∧ (0xFFFFFFFF#32).getLsbD 26 = true := by
  decide

/-- Every clause: `BSIZE` changed, `SECRC` changed, neither, `EN` cleared, `EN` set with room and without. -/
theorem witness_RctlWriteIsStoredOrRefused :
    (rxState 0x04000002).rctl.getLsbD 1 = true ∧ (0x04010002#32).getLsbD 1 = true ∧
    (rxState 0x04000002).rctl.extractLsb' 16 2 ≠ (0x04010002#32).extractLsb' 16 2 ∧
    (rxState 0x04000002).rctl.getLsbD 26 ≠ (0x00000002#32).getLsbD 26 ∧
    (rxState 0x04000002).rctl.extractLsb' 16 2 = (0x04008002#32).extractLsb' 16 2 ∧
    (rxState 0x04000002).rctl.getLsbD 26 = (0x04008002#32).getLsbD 26 ∧
    (0x00010000#32).getLsbD 1 = false ∧ (rxState 0).rctl.getLsbD 1 = false ∧
    ringHead .rx (rxState 0) < ringCap .rx (rxState 0) ∧ ringTail .rx (rxState 0) < ringCap .rx (rxState 0) ∧
    ¬ ringTail .rx { rxState 0 with rdt := 16 } < ringCap .rx { rxState 0 with rdt := 16 } ∧
    ¬ ringHead .rx State.reset < ringCap .rx State.reset := by decide

theorem witness_TctlWriteIsStoredOrRefused :
    (txState 8 9 []).tctl.getLsbD 1 = true ∧ State.reset.tctl.getLsbD 1 = false ∧ (0x2#32).getLsbD 1 = true ∧
    ringTail .tx (txState 8 9 []) < ringCap .tx (txState 8 9 []) ∧
    ¬ ringHead .tx State.reset < ringCap .tx State.reset := by decide

theorem witness_RxRingWritesNeedADisabledReceiver :
    (rxState 0x04000000).rctl.getLsbD 1 = false ∧ (rxState 0x04000002).rctl.getLsbD 1 = true := by decide

theorem witness_TxRingWritesNeedADisabledTransmitter :
    State.reset.tctl.getLsbD 1 = false ∧ (txState 8 9 []).tctl.getLsbD 1 = true := by decide

/-- The clauses meet at the capacity: 16 is refused and 15 is stored; disabled, 16 is stored. -/
theorem witness_RxTailWriteHandsSlotsOver :
    (rxState 0x04000002).launch.tailPolicy = .interval ∧ (rxState 0x04000002).rctl.getLsbD 1 = true ∧
    ringCap .rx (rxState 0x04000002) ≤ ((16#32).extractLsb' 0 16).toNat ∧
    ((0x0001000F#32).extractLsb' 0 16).toNat < ringCap .rx (rxState 0x04000002) ∧
    (rxState 0).rctl.getLsbD 1 = false := by decide

theorem witness_TxTailWriteHandsSlotsOver :
    (txState 8 9 []).launch.tailPolicy = .interval ∧ (txState 8 9 []).tctl.getLsbD 1 = true ∧
    ringCap .tx (txState 8 9 []) ≤ ((16#32).extractLsb' 0 16).toNat ∧
    ((0x0001000F#32).extractLsb' 0 16).toNat < ringCap .tx (txState 8 9 []) := by decide

/-- A launch under the alternative policy. -/
def refuseLaunch : Launch := { Launch.default with tailPolicy := .refuse }

/-- Tail 1 of head 0: a write of 0 shortens the interval, a write of 1 leaves it; tail 15 on the RX side, writes of 14
and 15. -/
theorem witness_TailRetreatIsRefusedByThePolicy :
    refusedIs (exec (.wrTdt 0) { txState 8 9 [] with launch := refuseLaunch }) (.idxRange .tdt 0) = true ∧
    nextIs (exec (.wrTdt 1) { txState 8 9 [] with launch := refuseLaunch }) (fun t => t.tdt == 1) = true ∧
    refusedIs (exec (.wrRdt 14) { rxState 0 with launch := refuseLaunch }) (.idxRange .rdt 14) = true ∧
    nextIs (exec (.wrRdt 15) { rxState 0 with launch := refuseLaunch }) (fun t => t.rdt == 15) = true := by decide

theorem witness_RingSidesAreIndependent :
    Reg.tdlen ∈ txSideRegs ∧ nextIs (exec (writeOp .tdlen 256) State.reset) (fun t => t.tdlen == 256) = true ∧
    Reg.rdt ∈ rxSideRegs ∧ nextIs (exec (readOp .rdt) (rxState 0)) (fun t => t.hostRead == 15) = true := by decide

/-- The smallest ring and the reference one, at their ends. -/
theorem witness_CircularIndexArithmetic :
    (2 ≤ 2 ∧ 0 < 2 ∧ 1 < 2 ∧ 0 ≠ 1) ∧ (2 ≤ 16 ∧ 15 < 16 ∧ 0 < 16 ∧ 15 ≠ 0) := by decide

theorem witness_DeviceOwnedSlotsAreCounted :
    0 < ringCap .tx (txState 8 9 []) ∧ 0 < ringCap .rx (rxState 0x04000002) ∧
    (ownedSlots .rx (rxState 0x04000002)).length = 15 := by decide

/-- The fields of a descriptor word; the state that sends 8 bytes; lengths 0, 1, 4096 and 4097; a buffer outside
`DMA_OK`; a buffer never written. -/
theorem witness_TxdEopRsSendsAndReports :
    0 < ringCap .tx (txState 8 9 eightBytes) ∧
    ((0x090000080000000000040000#128).extractLsb' 0 64 = 0x40000 ∧
      (0x090000080000000000040000#128).extractLsb' 64 16 = 8 ∧
      (0x090000080000000000040000#128).extractLsb' 88 8 = 0x09) ∧
    headAdmitted .tx (txState 8 9 eightBytes) ∧ dmaAll (txState 8 9 eightBytes) 0x40000 8 ∧
    holds (txState 8 9 eightBytes) 0x40000 eightBytes ∧ eightBytes.length = (8 : Half).toNat ∧
    ((0 : Half).toNat = 0 ∧ 4096 < (4097 : Half).toNat ∧ 1 ≤ (1 : Half).toNat ∧ (4096 : Half).toNat ≤ 4096) ∧
    ¬ dmaAll (txState 8 9 eightBytes) 0xFFFFFFFFFFFDFFFF 8 ∧
    (∃ k < 8, Memory.find (txState 8 9 []).mem (0x40000 + k) = none) := by
  unfold headAdmitted dmaAll holds; decide +kernel

/-- As for `TXD.EOP.RS`, with the command byte 0x01. -/
theorem witness_TxdEopSendsAndDoesNotReport :
    0 < ringCap .tx (txState 8 1 eightBytes) ∧
    ((0x010000080000000000040000#128).extractLsb' 0 64 = 0x40000 ∧
      (0x010000080000000000040000#128).extractLsb' 64 16 = 8 ∧
      (0x010000080000000000040000#128).extractLsb' 88 8 = 0x01) ∧
    dmaAll (txState 8 1 eightBytes) 0x40000 8 ∧
    holds (txState 8 1 eightBytes) 0x40000 eightBytes ∧ eightBytes.length = (8 : Half).toNat ∧
    ((0 : Half).toNat = 0 ∧ 4096 < (4097 : Half).toNat ∧ 1 ≤ (1 : Half).toNat ∧ (4096 : Half).toNat ≤ 4096) ∧
    ¬ dmaAll (txState 8 1 eightBytes) 0xFFFFFFFFFFFDFFFF 8 ∧
    (∃ k < 8, Memory.find (txState 8 1 []).mem (0x40000 + k) = none) := by
  unfold dmaAll holds; decide +kernel

/-- One word for each clause: the two forms, a length out of range beside a bad command, no `EOP`, a reserved bit. -/
theorem witness_TxDescriptorsDecodeByCommand :
    (0x090000080000000000040000#128).extractLsb' 88 8 = 0x09#8 ∧
    (0x010000080000000000040000#128).extractLsb' 88 8 = 0x01#8 ∧
    ((0x0A0010010000000000040000#128).extractLsb' 88 8 = 0x0A#8 ∧
      ((0x0A0010010000000000040000#128).extractLsb' 64 16).toNat = 4097) ∧
    ((0x080010000000000000040000#128).extractLsb' 88 8).getLsbD 0 = false ∧
    ((0x080010000000000000040000#128).extractLsb' 64 16).toNat = 4096 ∧
    ((0x0B0000010000000000040000#128).extractLsb' 88 8).getLsbD 0 = true ∧
    (0x0B0000010000000000040000#128).extractLsb' 88 8 &&& 0xF6#8 ≠ 0 ∧
    ((0x0B0000010000000000040000#128).extractLsb' 64 16).toNat = 1 := by decide

theorem witness_TxEngineStopsAtTheTail :
    State.reset.tctl.getLsbD 1 = false ∧
    ringHead .tx { txState 8 9 [] with tdt := 0 } = ringTail .tx { txState 8 9 [] with tdt := 0 } := by decide

theorem witness_TxStepWritesOnlyItsStatusByte :
    txEnabled (txState 8 9 eightBytes) = true ∧ ∃ t, txStep (txState 8 9 eightBytes) = .next t := by
  refine ⟨by decide, ?_⟩
  obtain ⟨t, h, -⟩ := exists_next (r := txStep (txState 8 9 eightBytes)) (p := fun _ => true) (by decide +kernel)
  exact ⟨t, h⟩

theorem witness_TxStepReturnsItsSlot :
    txEnabled (txState 8 1 eightBytes) = true ∧
    ringHead .tx (txState 8 1 eightBytes) < ringCap .tx (txState 8 1 eightBytes) ∧
    ringTail .tx (txState 8 1 eightBytes) < ringCap .tx (txState 8 1 eightBytes) ∧
    nextIs (txStep (txState 8 1 eightBytes)) (fun t => !deviceOwns .tx 0 t) = true := by decide +kernel

theorem witness_TailOntoHeadStallsTheEngine :
    (txState 8 9 []).launch.tailPolicy = .interval ∧ ringHead .tx (txState 8 9 []) < ringCap .tx (txState 8 9 []) ∧
    ((0#32).extractLsb' 0 16).toNat = ringHead .tx (txState 8 9 []) := by decide

/-- A ring whose slots from the second on lie at 2^64 and beyond, the head on that slot. -/
theorem witness_TxFetchStopsInOrder_wrap :
    let s := { txState 8 9 [] with tdbal := 0xFFFFFFF0, tdbah := 0xFFFFFFFF, tdh := 1, tdt := 2 }
    txEnabled s = true ∧ descAddr .tx (ringHead .tx s) s = 0x10000000000000000 := by decide

/-- A ring at the register window, which the launch's `DMA_OK` leaves out, and one slot below 2^64; a ring nothing has
written. -/
theorem witness_TxFetchStopsInOrder :
    (let s := { txState 8 9 [] with tdbal := 0xFFFFFFF0, tdbah := 0xFFFFFFFF }
     txEnabled s = true ∧ descAddr .tx (ringHead .tx s) s = 0xFFFFFFFFFFFFFFF0 ∧
     ¬ dmaAll s (descAddr .tx (ringHead .tx s) s) 16) ∧
    (let s := { txState 8 9 [] with mem := [] }
     txEnabled s = true ∧ headAdmitted .tx s ∧
     ∃ k < 16, Memory.find s.mem (descAddr .tx (ringHead .tx s) s + k) = none) := by
  unfold headAdmitted dmaAll; decide +kernel

/-- Two states that differ in the RX side and in the interrupt state only; the first takes a step, faults, or is
refused. -/
theorem witness_TxStepReadsOnlyTheTxSide :
    (∀ len cmd buf, sameTxRegs (txState len cmd buf) { txState len cmd buf with rctl := 2, rdt := 7, rxdw := true }) ∧
    nextIs (txStep (txState 8 1 eightBytes)) (fun _ => true) = true ∧
    faultIs (txStep (txState 8 1 [])) (.uninit 0x40000 .tx) = true ∧
    refusedIs (txStep (txState 8 0 eightBytes)) (.txNoEop 0) = true :=
  ⟨fun _ _ _ => ⟨rfl, rfl, rfl, rfl, rfl, rfl⟩, by decide +kernel⟩

theorem witness_RxdStoresAndReports :
    0 < ringCap .rx (rxState rctl256) ∧ (receivedBytes threeBytes (rxState rctl256)).length ≤ rxBufSize (rxState rctl256) ∧
    (receivedBytes (longFrame 255) (rxState rctl256)).length = rxBufSize (rxState rctl256) ∧
    headAdmitted .rx (rxState rctl256) ∧ dmaAll (rxState rctl256) 0x20000 256 ∧ rxBufSize (rxState rctl256) = 256 ∧
    apart 0x20000 256 0x11008 8 := by
  unfold headAdmitted dmaAll apart; decide +kernel

/-- What every clause assumes, of each state below. -/
def rxReady (s : State) : Bool :=
  s.rctl.getLsbD 1 && decide ((receivedBytes threeBytes s).length ≤ rxBufSize s) &&
    decide (ringHead .rx s ≠ ringTail .rx s) && decide (ringCap .rx s ≠ 0)

/-- The clauses in their order: a head beyond the address space; a descriptor outside `DMA_OK`, one slot below 2^64;
one never written; a buffer outside `DMA_OK`. -/
theorem witness_RxStepStopsInOrder :
    (let s := { rxState rctl256 with rdbal := 0xFFFFFFF0, rdbah := 0xFFFFFFFF, rdh := 1 }
     rxReady s = true ∧ descAddr .rx (ringHead .rx s) s = 0x10000000000000000) ∧
    (let s := { rxState rctl256 with rdbal := 0xFFFFFFF0, rdbah := 0xFFFFFFFF }
     rxReady s = true ∧ descAddr .rx (ringHead .rx s) s = 0xFFFFFFFFFFFFFFF0 ∧
     ¬ dmaAll s (descAddr .rx (ringHead .rx s) s) 16) ∧
    (let s := { rxState rctl256 with mem := [] }
     rxReady s = true ∧ headAdmitted .rx s ∧
     ∃ k < 8, Memory.find s.mem (descAddr .rx (ringHead .rx s) s + k) = none) ∧
    (let s := { rxState rctl256 with launch := { Launch.default with dmaOk := [{ base := 0x11000, size := 0x100 }] } }
     rxReady s = true ∧ headAdmitted .rx s ∧
     (∀ k < 8, Memory.find s.mem (descAddr .rx (ringHead .rx s) s + k) ≠ none) ∧
     ¬ dmaAll s (bufAddr .rx (ringHead .rx s) s) (rxBufSize s)) := by
  unfold headAdmitted dmaAll; decide +kernel

theorem witness_RxDropsAndRefusesInOrder :
    (rxState 0x04030000).rctl.getLsbD 1 = false ∧ (rxState rctl256).rctl.getLsbD 1 = true ∧
    rxBufSize (rxState rctl256) < (receivedBytes (longFrame 256) (rxState rctl256)).length ∧
    (receivedBytes (longFrame 255) (rxState rctl256)).length ≤ rxBufSize (rxState rctl256) ∧
    ringHead .rx { rxState rctl256 with rdt := 0 } = ringTail .rx { rxState rctl256 with rdt := 0 } := by decide +kernel

theorem witness_RxStepWritesOnlyItsBufferAndDescriptor :
    (rxState rctl256).offer = none ∧ nextIs (rxStep threeBytes (rxState rctl256)) (fun t => t.rxdw) = true ∧
    bufAddr .rx 0 (rxState rctl256) = 0x20000 ∧ 0x20000 + 256 ≤ 0x20100 ∧ 0x11000 + 16 ≤ 0x20100 := by decide +kernel

theorem witness_RxStepReadsOnlyTheRxSide :
    (∀ r, sameRxRegs (rxState r) { rxState r with tctl := 2, tdt := 7, rxdw := true }) ∧
    nextIs (rxStep threeBytes (rxState rctl256)) (fun _ => true) = true ∧
    faultIs (rxStep threeBytes { rxState rctl256 with mem := [] }) (.uninit 0x11000 .rx) = true ∧
    refusedIs (rxStep (longFrame 256) (rxState rctl256)) (.rxLong 257) = true :=
  ⟨fun _ => ⟨rfl, rfl, rfl, rfl, rfl, rfl⟩, by decide +kernel⟩

/-- The last address below the window and the last of the address space's end; a byte nobody owns and one that RX
slot 0 does. -/
theorem witness_HostStoreWritesOrFaults :
    (0xFFFFFFFFFFFDFFFF : Addr).toNat + Width.w8.bytes ≤ (rxState rctl256).launch.regBase.toNat ∧
    (0xFFFFFFFFFFFDFFFF : Addr).toNat + Width.w8.bytes ≤ 0x10000000000000000 ∧
    ownerOf { rxState rctl256 with rdt := 1 } 0x20100 = none ∧
    ownerOf { rxState rctl256 with rdt := 1 } 0x200FF = some { ring := .rx, slot := 0 } := by decide +kernel

theorem witness_HostLoadReturnsWhatItMaySee :
    (0x11000 : Addr).toNat + Width.w64.bytes ≤ (rxState 0).launch.regBase.toNat ∧
    Memory.find { rxState rctl256 with rdt := 0 }.mem 0x11002 = some 2 ∧
    ownerOf { rxState rctl256 with rdt := 0 } 0x11002 = none ∧
    Memory.find (rxState rctl256).mem 0x1100C = some 0 ∧ 0x1100C = descAddr .rx 0 (rxState rctl256) + 12 := by
  decide +kernel

/-- The first and the last slot of the ring. -/
theorem witness_PollReturnsTheDoneBit :
    (0 < ringCap .tx (txState 8 9 []) ∧ 15 < ringCap .tx (txState 8 9 [])) ∧
    descAddr .tx 15 (txState 8 9 []) < 0x10000000000000000 ∧
    Memory.find (txState 8 9 []).mem (descAddr .tx 0 (txState 8 9 []) + 12) = some 0 := by decide +kernel

/-- The offset after `RAH0`: no register stands there. A word, and an address, that name it. -/
theorem witness_UnlistedOffsetsAreRefused :
    (0x05408 % 4 = 0 ∧ ∀ r : Reg, r.off ≠ 0x05408) ∧
    ((0x0000540800000000#64).extractLsb' 52 11 = 0 ∧ (0x0000540800000000#64).extractLsb' 0 32 = 0 ∧
      ((0x0000540800000000#64).extractLsb' 32 20).toNat = 0x05408) ∧
    ((0xFFFFFFFFFFFE5408 : Addr).toNat = State.reset.launch.regBase.toNat + 0x05408 ∧ 0x05408 < 0x20000) := by
  refine ⟨⟨by decide, fun r => ?_⟩, by decide, by decide⟩
  cases r with
  | mta n => rw [Laws.off_mta]; have h : n.val < 128 := n.isLt; omega
  | _ => decide

/-- The window's first register and its last. -/
theorem witness_WindowAccessesAreRegisterAccesses :
    (0xFFFFFFFFFFFE0000 : Addr).toNat = State.reset.launch.regBase.toNat + Reg.ctrl.off ∧
    (0xFFFFFFFFFFFE5404 : Addr).toNat = State.reset.launch.regBase.toNat + Reg.rah0.off := by decide

/-- The window's first byte, and its last: the narrow and the misaligned access. -/
theorem witness_NarrowOrMisalignedAccessesAreRefused :
    State.reset.launch.regBase.toNat ≤ (0xFFFFFFFFFFFE0000 : Addr).toNat ∧
    (0xFFFFFFFFFFFFFFFF : Addr).toNat < State.reset.launch.regBase.toNat + 0x20000 ∧ Width.w8 ≠ .w32 ∧
    ((0xFFFFFFFFFFFFFFFF : Addr).toNat - State.reset.launch.regBase.toNat) % 4 ≠ 0 := by decide

theorem witness_StepRunsTheHostsWord :
    (State.reset.withFetchWord 64 0x0000381800000000).turns = .host (.mmio 0x0000381800000000) :: [] ∧
    decode (.mmio 0x0000381800000000) = .ok .rdTdt := by decide

/-- A descriptor that decodes, and one that does not. -/
theorem witness_StepRunsTheTxDescriptor :
    (txState 8 9 []).turns = .txEngine :: [] ∧ ringHead .tx (txState 8 9 []) ≠ ringTail .tx (txState 8 9 []) ∧
    ringCap .tx (txState 8 9 []) ≠ 0 ∧ headAdmitted .tx (txState 8 9 []) ∧
    holds (txState 8 9 []) 0x10000 [0, 0, 4, 0, 0, 0, 0, 0, 8, 0, 0, 9, 0, 0, 0, 0] ∧
    decode (.txd (BitVec.ofNat 128 (leNat [0, 0, 4, 0, 0, 0, 0, 0, 8, 0, 0, 9, 0, 0, 0, 0]))) =
      .ok (.txdEopRs 0x40000 8) ∧
    decode (.txd (BitVec.ofNat 128 (leNat [0, 0, 4, 0, 0, 0, 0, 0, 8, 0, 0, 8, 0, 0, 0, 0]))) = .error .txNoEop := by
  unfold headAdmitted dmaAll holds; decide +kernel

theorem witness_StepRunsTheRxDescriptor :
    (rxState rctl256).turns = .offer threeBytes :: [] ∧ (rxState rctl256).rctl.getLsbD 1 = true ∧
    (receivedBytes threeBytes (rxState rctl256)).length ≤ rxBufSize (rxState rctl256) ∧
    ringHead .rx (rxState rctl256) ≠ ringTail .rx (rxState rctl256) ∧ ringCap .rx (rxState rctl256) ≠ 0 ∧
    headAdmitted .rx (rxState rctl256) ∧ holds (rxState rctl256) 0x11000 [0, 0, 2, 0, 0, 0, 0, 0] := by
  unfold headAdmitted dmaAll holds; decide +kernel

theorem witness_RegisterWordsHaveOneMeaning : decode (.mmio 0x800053FC5A5A5A5A) = .ok (.wrMta ⟨127, by decide⟩ 0x5A5A5A5A) := by
  decide

/-- The state that sends a frame meets the invariant and takes a step. -/
theorem witness_EveryStepKeepsTheInvariant :
    Inv (txState 8 9 eightBytes) ∧ nextIs (step (txState 8 9 eightBytes)) (fun _ => true) = true := by
  refine ⟨⟨by unfold RegsShape; decide, ?_, by unfold MemoryShape; decide +kernel, by unfold LaunchShape; decide, rfl⟩,
    by decide +kernel⟩
  intro e
  cases e <;> decide

theorem witness_TxLogOnlyGrows :
    nextIs (step (txState 8 1 eightBytes)) (fun t => decide (t.txLog = [eightBytes])) = true ∧
    nextIs (step State.reset) (fun t => t.txLog.isEmpty) = true := by decide +kernel

theorem witness_StepsLeaveLaunchAndMarks : nextIs (step State.reset) (fun _ => true) = true := by decide +kernel

theorem witness_StopsAreRecordedAndChangeNothingElse :
    faultIs (step (txState 8 9 [])) (.uninit 0x40000 .tx) = true ∧
    refusedIs (step (txState 8 8 eightBytes)) (.txNoEop 0) = true := by decide +kernel

/-- A store beside an owned buffer, and a byte of that buffer. -/
theorem witness_HostNeverWritesDeviceOwnedBytes :
    nextIs (hostOp (.store .w8 0x40008 7) (txState 8 9 eightBytes)) (fun _ => true) = true ∧
    ownerOf (txState 8 9 eightBytes) 0x40007 ≠ none := by decide +kernel

theorem witness_TransmitOneFailsWithoutAnyWrite :
    let s := { txState 8 9 [] with driver := { Driver.idle with txOps := [.txPoll, .txFree], txSlot := 0 } }
    s.driver.txOps = .txPoll :: [.txFree] ∧ s.driver.txSlot < ringCap .tx s ∧
    descAddr .tx s.driver.txSlot s < 0x10000000000000000 ∧
    Memory.find s.mem (descAddr .tx s.driver.txSlot s + 12) = some 0 ∧ (0 : Byte).getLsbD 0 = false := by
  decide +kernel

theorem witness_InitProgramsTheBlock :
    State.reset.launch.tailPolicy = .interval ∧ State.reset.tctl.getLsbD 1 = false ∧
    State.reset.rctl.getLsbD 1 = false ∧ State.reset.im = 0 ∧ Driver.idle.capacity = 16 ∧
    Driver.idle.txRing.extractLsb' 0 4 = 0 ∧ Driver.idle.rxRing.extractLsb' 0 4 = 0 := by decide

/-- The last slot below 2^64 and the first beyond it; a ring at the launch's addresses, whose bytes nobody owns. -/
theorem witness_InitStoresNeverWrap :
    (driverRing .tx { Driver.idle with txRing := 0xFFFFFFFFFFFFFFF0 }).toNat = 0xFFFFFFFFFFFFFFF0 ∧
    ¬ 0x10000000000000000 ≤ 0xFFFFFFFFFFFFFFF0 + 15 / 16 * 16 ∧ 0x10000000000000000 ≤ 0xFFFFFFFFFFFFFFF0 + 16 / 16 * 16 ∧
    ((driverRing .rx Driver.idle).toNat = 0x11000 ∧ 0x11000 + 255 < 0x10000000000000000 ∧
      0x11000 + 255 < State.reset.launch.regBase.toNat ∧ ownerOf State.reset (0x11000 + 255) = none) := by
  decide +kernel

/-- A line of `INIT` at a ring's second slot, which lies at 2^64: refused, where a sum that wraps would have stored at
address 0. -/
theorem test_initStore_refuses_the_wrapped_slot :
    refusedIs (driverOp (.initStore .tx 16 0) { State.reset with driver := { Driver.idle with txRing := 0xFFFFFFFFFFFFFFF0 } })
      (.ringWrap .tx) = true := by decide +kernel

/-- The turns in the round at which the TX engine, each thread of the driver and the handler are asked first: an enabled
engine; an `INIT`, a transmission and a drain in progress; the cause pending and enabled on a block the driver has not
initialised, with no line of `INIT` left and no drain; and at which the dispatcher is asked, with a page to free. -/
theorem witness_UnscheduledAgentsTakeTurns :
    (let s := { txState 8 1 eightBytes with turns := [], rota := 5 }
     s.turns = [] ∧ (s.rota + 1) % 6 = 0 ∧ txEnabled s = true) ∧
    (let s := { State.reset with driver := { Driver.idle with initOps := initRegisters Driver.idle }, rota := 0 }
     (Thread.init, 1) ∈ [(Thread.init, 1), (Thread.tx, 2), (Thread.rx, 3)] ∧ s.turns = [] ∧ (s.rota + 1) % 6 = 1 ∧
       threadOps .init s.driver ≠ []) ∧
    (let s := { State.reset with driver := { Driver.idle with txOps := transmitSequence }, rota := 1 }
     (Thread.tx, 2) ∈ [(Thread.init, 1), (Thread.tx, 2), (Thread.rx, 3)] ∧ s.turns = [] ∧ (s.rota + 1) % 6 = 2 ∧
       threadOps .tx s.driver ≠ []) ∧
    (let s := { State.reset with driver := { Driver.idle with rxOps := drainSequence }, rota := 2 }
     (Thread.rx, 3) ∈ [(Thread.init, 1), (Thread.tx, 2), (Thread.rx, 3)] ∧ s.turns = [] ∧ (s.rota + 1) % 6 = 3 ∧
       threadOps .rx s.driver ≠ []) ∧
    (let s := { State.reset with im := 0x80, rxdw := true, rota := 3 }
     s.turns = [] ∧ (s.rota + 1) % 6 = 4 ∧ s.driver.initOps = [] ∧ s.driver.rxOps = [] ∧ s.driver.halted = false ∧
       s.driver.ready = false ∧ intLine s.nextTurn = true) ∧
    (let s := { State.reset with driver := { Driver.idle with dispatching := [0x20000] }, rota := 4 }
     s.driver.dispatching = 0x20000 :: [] ∧ s.turns = [] ∧ (s.rota + 1) % 6 = 5) := by decide +kernel

/-- 70_reset_and_hazards.md R279: a TX engine whose head is refused again and again does not keep the handler from
beginning: it does within one round. -/
theorem test_refused_head_does_not_starve_the_handler :
    (runFor 5 { txState 8 0 eightBytes with turns := [], im := 0x80, rxdw := true }).driver.rxOps.isEmpty = false := by
  decide +kernel

/-- 43_driver_sequences.md R216, R219: `deliver` makes the dispatcher the owner of the page. -/
theorem test_deliver_hands_the_page_to_the_dispatcher :
    let d := { Driver.idle with rxOps := [.rxDeliver], rxAddr := 0x20000, rxLen := 3, pages := [] }
    nextIs (driverStep .rx { State.reset with driver := d }) (fun t =>
      t.driver.dispatching == [0x20000] && t.driver.delivered == [(0x20000, 3)] && t.driver.pages.isEmpty) = true := by
  decide +kernel

/-- 43_driver_sequences.md R219: the page is the dispatcher's until it frees it; the page freed goes back to the
allocator, the other stays. -/
theorem test_dispatcher_frees_the_page :
    let d := { Driver.idle with dispatching := [0x20000, 0x21000], pages := [] }
    nextIs (dispatcherStep 1 { State.reset with driver := d }) (fun t =>
      t.driver.dispatching == [0x20000] && t.driver.pages == [0x21000]) = true := by
  decide +kernel

/-- 00_scope.md R12: the run ends with the host program, also while the TX engine has a step, which is then no quiescent
state; one further frame on offer is none either. -/
theorem test_run_ends_with_the_host_program :
    (let s := { txState 8 1 eightBytes with turns := [.txEngine] }
     hostEnded s = true ∧ finalState s = true ∧ quiescent s = false) ∧
    (let s := { State.reset with turns := [.offer fetchOffer] }
     hostEnded s = true ∧ quiescent s = false) ∧
    quiescent State.reset = true ∧ hostEnded { State.reset with turns := [.host (.pollTx 0)] } = false := by decide +kernel

/-- 60_exceptions.md R231 (log entry 37): a store over a device-owned byte and the window's first is a register access
of the wrong width; one over an owned byte alone is the fault. -/
theorem test_store_order :
    (let s := { txState 8 1 eightBytes with launch := { Launch.default with regBase := 0x40004 } }
     refusedIs (hostStore .w64 0x40000 0 s) (.regWidth (-4) 64) = true ∧
     faultIs (hostStore .w32 0x40000 0 s) (.ownWrite 0x40000 { ring := .tx, slot := 0 }) = true) := by decide +kernel

end Sys2Proof.Tests
end

/-! Index arithmetic modulo the capacity of a ring (00_scope.md rules R8 and R13 (b)): what repeated advances reach,
and the laws of `next` and `dist` that follow. -/

namespace Sys2Proof.Proofs

open Sys2Proof.Machine Sys2Proof.Laws

/-- Advances add up modulo the number of slots. -/
theorem ringNext_iterate {n a : Nat} (ha : a < n) (k : Nat) : (ringNext n)^[k] a = (a + k) % n := by
  induction k with
  | zero => rw [Function.iterate_zero_apply, Nat.add_zero, Nat.mod_eq_of_lt ha]
  | succ k ih => rw [Function.iterate_succ_apply', ih, ringNext, Nat.mod_add_mod, Nat.add_assoc]

theorem ringDist_self {n a : Nat} (ha : a < n) : ringDist n a a = 0 := by
  rw [ringDist_eq ha ha, if_pos le_rfl, Nat.sub_self]

/-- One advance is a distance of 1, also across the end of a ring of at least two slots. -/
theorem ringDist_ringNext {n a : Nat} (hn : 2 ≤ n) (ha : a < n) : ringDist n a (ringNext n a) = 1 := by
  rw [ringDist_eq ha (ringNext_lt (by omega) a), ringNext_eq ha]
  by_cases hlast : a + 1 = n
  · rw [if_pos hlast, if_neg (by omega)]
    omega
  · rw [if_neg hlast, if_pos (Nat.le_succ a)]
    omega

/-- The ways there and back between two different slots make one turn of the ring. -/
theorem ringDist_add_ringDist_swap {n a b : Nat} (ha : a < n) (hb : b < n) (hab : a ≠ b) :
    ringDist n a b + ringDist n b a = n := by
  rw [ringDist_eq ha hb, ringDist_eq hb ha]
  obtain hlt | hgt := Nat.lt_or_gt_of_ne hab
  · rw [if_pos hlt.le, if_neg (by omega)]
    omega
  · rw [if_neg (by omega), if_pos hgt.le]
    omega

/-- As many advances as there are slots lead back to the start. -/
theorem ringNext_iterate_card {n a : Nat} (ha : a < n) : (ringNext n)^[n] a = a := by
  rw [ringNext_iterate ha, Nat.add_mod_right, Nat.mod_eq_of_lt ha]

/-- The distance is the number of advances that reach the other slot. -/
theorem ringNext_iterate_ringDist {n a b : Nat} (ha : a < n) (hb : b < n) :
    (ringNext n)^[ringDist n a b] a = b := by
  rw [ringNext_iterate ha, ringDist_eq ha hb]
  by_cases hle : a ≤ b
  · rw [if_pos hle, Nat.add_sub_cancel' hle, Nat.mod_eq_of_lt hb]
  · rw [if_neg hle, show a + (n - a + b) = b + n by omega, Nat.add_mod_right, Nat.mod_eq_of_lt hb]

/-- Settles O22: each law is a lemma above; the two about repeated advances rest on `ringNext_iterate`. -/
theorem circularIndexArithmetic : Obligations.CircularIndexArithmetic := by
  intro n a b hn ha hb
  have hwrap : ringNext n (n - 1) = 0 := by
    rw [ringNext_eq (by omega), if_pos (by omega)]
  exact ⟨hwrap, ringDist_self ha, ringDist_ringNext hn ha, ringDist_add_ringDist_swap ha hb,
    ringNext_iterate_card ha, ringDist_lt (by omega) a b, ringNext_iterate_ringDist ha hb⟩

end Sys2Proof.Proofs

/-! The steps of the engines as changes of the state, and the registers of a ring after its head has moved. -/

namespace Sys2Proof.Proofs

open Sys2Proof.Machine Sys2Proof.Laws

/-! ### A ring's registers after an advance of a head -/

@[simp] theorem engineOn_setHead (e e' : Engine) (s : State) (v : Word) :
    engineOn e' (s.setHead e v) = engineOn e' s := by
  cases e <;> cases e' <;> rfl

@[simp] theorem ringCap_setHead (e e' : Engine) (s : State) (v : Word) :
    ringCap e' (s.setHead e v) = ringCap e' s := by
  cases e <;> cases e' <;> rfl

@[simp] theorem ringTail_setHead (e e' : Engine) (s : State) (v : Word) :
    ringTail e' (s.setHead e v) = ringTail e' s := by
  cases e <;> cases e' <;> rfl

@[simp] theorem ringHead_setHead (e : Engine) (s : State) (v : Word) : ringHead e (s.setHead e v) = idxOf v := by
  cases e <;> rfl

theorem ringHead_setHead_of_ne {e e' : Engine} (hne : e' ≠ e) (s : State) (v : Word) :
    ringHead e' (s.setHead e v) = ringHead e' s := by
  cases e <;> cases e' <;> first | rfl | exact absurd rfl hne

/-- A slot number put into a head register is read back, since every slot number has at most 16 bits. -/
theorem idxOf_idxWord {i : Nat} (hi : i < 65536) : idxOf (idxWord i) = i := by
  rw [idxWord_eq, idxOf_setWidth, BitVec.toNat_ofNat]
  exact Nat.mod_eq_of_lt hi

/-- The head after an advance is the next slot (10_state.md rule R23). -/
theorem ringHead_advanceHead {e : Engine} {s : State} (hcap : 0 < ringCap e s) :
    ringHead e (advanceHead e s) = ringNext (ringCap e s) (ringHead e s) := by
  rw [advanceHead, ringHead_setHead, idxOf_idxWord ((ringNext_lt hcap _).trans (ringCap_lt e s))]

/-! ### What an engine's step does -/

/-- The TX engine's step: nothing where it is not enabled; else one frame is sent, the done bit of the descriptor at
the head is reported or not, and the head advances (41_tx_engine.md rules R172, R173). -/
theorem txStep_sent {s t : State} (h : txStep s = .next t) :
    (txEnabled s = false ∧ t = s) ∨
      (txEnabled s = true ∧ ∃ bs, t = advanceHead .tx (s.emit bs) ∨
        (headAdmitted .tx s ∧ t = advanceHead .tx
          (((s.emit bs).store (txStatusAddr s) [txDoneStatus (Config.freeByte s.draws)]).drawn 1))) := by
  obtain hidle | ⟨hon, addr, len, hx | hx⟩ := txStep_next h
  · exact .inl hidle
  · obtain ⟨-, hd, bs, -, -, -, ht⟩ := execTxdEopRs_next.1 hx
    exact .inr ⟨hon, bs, .inr ⟨hd, ht⟩⟩
  · obtain ⟨-, bs, -, -, -, ht⟩ := execTxdEop_next.1 hx
    exact .inr ⟨hon, bs, .inl ht⟩

/-- The RX engine's step: nothing where the frame is dropped; else it is stored (42_rx_engine.md rule R191). -/
theorem rxStep_stored {o : Offer} {s t : State} (h : rxStep o s = .next t) :
    t = s ∨ ∃ addr bs,
      (∀ w ∈ rxWrites addr (descAddr .rx (ringHead .rx s) s) bs (s.offering o), dmaAll s w.1 w.2.length) ∧
        t = rxDone addr bs (s.offering o) := by
  obtain rfl | ⟨d, -, hx⟩ := rxStep_next h
  · exact .inl rfl
  · obtain ⟨-, -, hw, ht⟩ := (execRxd_next (offering_offer s o)).1 hx
    exact .inr ⟨_, _, hw, ht⟩

end Sys2Proof.Proofs

/-! What a register access of the host changes: a read nothing but the value read and the cause; a write of a ring's
register nothing of the other ring (10_state.md rule R22). -/

namespace Sys2Proof.Proofs

open Sys2Proof.Machine Sys2Proof.Laws

/-- A register read changes the value read, the free values' counter and, for `ICR`, the cause. -/
theorem readOp_next {r : Reg} {s t : State} (h : exec (readOp r) s = .next t) :
    t = { s with hostRead := t.hostRead, rxdw := t.rxdw, draws := t.draws } ∧ (r ≠ .icr → t.rxdw = s.rxdw) := by
  cases r <;> simp only [readOp, exec] at h
  case icr => rw [execRdIcr_next h]; exact ⟨rfl, fun hne => absurd rfl hne⟩
  case imc => rw [← Host.Outcome.next.inj h]; exact ⟨rfl, fun _ => rfl⟩
  all_goals rw [readReg_next.1 h]; exact ⟨rfl, fun _ => rfl⟩

/-- A write of a TX side register changes nothing but the TX side's registers. -/
theorem writeOp_txSide {r : Reg} {v : Word} {s t : State} (hr : r ∈ txSideRegs)
    (h : exec (writeOp r v) s = .next t) :
    t = { s with
      tctl := t.tctl, tdbal := t.tdbal, tdbah := t.tdbah, tdlen := t.tdlen, tdh := t.tdh, tdt := t.tdt } := by
  cases r
  case tctl => rw [(execWrTctl_next h).1]
  case tdbal | tdbah | tdlen | tdh => rw [(writeUnless_next.1 h).2]
  case tdt => rw [(writeTail_next h).1]; rfl
  all_goals simp [txSideRegs] at hr

/-- A write of an RX side register changes nothing but the RX side's registers. -/
theorem writeOp_rxSide {r : Reg} {v : Word} {s t : State} (hr : r ∈ rxSideRegs)
    (h : exec (writeOp r v) s = .next t) :
    t = { s with
      rctl := t.rctl, rdbal := t.rdbal, rdbah := t.rdbah, rdlen := t.rdlen, rdh := t.rdh, rdt := t.rdt } := by
  cases r
  case rctl => rw [(execWrRctl_next h).1]
  case rdbal | rdbah | rdlen | rdh => rw [(writeUnless_next.1 h).2]
  case rdt => rw [(writeTail_next h).1]; rfl
  all_goals simp [rxSideRegs] at hr

/-- The launch's parameters and the marks of two states are the same. -/
def SameMarks (s t : State) : Prop := t.launch = s.launch ∧ t.faulted = s.faulted ∧ t.refused = s.refused

theorem exec_sameMarks {i : Instr} {s t : State} (h : exec i s = .next t) : SameMarks s t := by
  obtain ⟨hfaulted, hrefused, hlaunch, -⟩ := exec_untouched h
  exact ⟨hlaunch, hfaulted, hrefused⟩

theorem accessed_sameMarks {s t : State} (h : Accessed s t) : SameMarks s t := by
  obtain ⟨r, hx | ⟨v, hx⟩⟩ := h
  · exact exec_sameMarks hx
  · exact exec_sameMarks hx

/-- Settles O21: a read changes neither side, and the write of one side is confined to that side's registers. -/
theorem ringSidesAreIndependent : Obligations.RingSidesAreIndependent := by
  intro r v s t h
  obtain h | h := h
  · obtain ⟨ht, hcause⟩ := readOp_next h
    have hcause' : r ∈ txSideRegs ∨ r ∈ rxSideRegs → t.rxdw = s.rxdw := fun hr =>
      hcause fun hicr => absurd (hicr ▸ hr) (by decide)
    have hsame : sameRxRegs s t ∧ sameTxRegs s t ∧ t.im = s.im ∧ t.mem = s.mem ∧ t.txLog = s.txLog := by
      rw [ht]; simp [sameRxRegs, sameTxRegs]
    obtain ⟨hrx, htx, him, hmem, hlog⟩ := hsame
    exact ⟨fun hr => ⟨hrx, him, hcause' (.inl hr), hmem, hlog⟩,
      fun hr => ⟨htx, him, hcause' (.inr hr), hmem, hlog⟩⟩
  · refine ⟨fun hr => ?_, fun hr => ?_⟩
    · rw [writeOp_txSide hr h]; simp [sameRxRegs]
    · rw [writeOp_rxSide hr h]; simp [sameTxRegs]

end Sys2Proof.Proofs

/-! Every step of every agent keeps the invariant: each of the ways in which a step changes the state keeps it. -/

namespace Sys2Proof.Proofs

open Sys2Proof.Machine Sys2Proof.Laws

/-- The invariant without its clause on the offer, which is open while an RX descriptor executes. -/
def BlockInv (s : State) : Prop := RegsShape s ∧ IndicesInRange s ∧ MemoryShape s ∧ LaunchShape s

theorem inv_iff {s : State} : Machine.Inv s ↔ BlockInv s ∧ s.offer = none := by
  simp only [Machine.Inv, BlockInv, and_assoc]

/-! ### Memory -/

/-- A write of bytes that exist keeps the form of memory. -/
theorem blockInv_store {s : State} (h : BlockInv s) {a : Nat} {bs : List Byte}
    (hspace : ∀ k < bs.length, a + k < spaceSize) : BlockInv (s.store a bs) := by
  obtain ⟨hregs, hidx, ⟨hwf, hkeys⟩, hlaunch⟩ := h
  exact ⟨hregs, hidx, ⟨wf_write hwf a bs, keys_write (p := (· < spaceSize)) hkeys a bs hspace⟩, hlaunch⟩

/-- An engine writes only bytes that exist (20_memory.md rule R79). -/
theorem blockInv_store_of_dmaAll {s u : State} (h : BlockInv s) {a : Nat} {bs : List Byte}
    (hdma : dmaAll u a bs.length) : BlockInv (s.store a bs) :=
  blockInv_store h fun k hk => dmaAdmits_lt (hdma k hk)

/-! ### Heads -/

theorem regsShape_advanceHead {s : State} (h : RegsShape s) (e : Engine) : RegsShape (advanceHead e s) := by
  obtain ⟨hctrl, htbal, hrbal, htlen, hrlen, htdh, htdt, hrdh, hrdt⟩ := h
  have hhead : idxWord (ringNext (ringCap e s) (ringHead e s)) &&& ~~~maskIdx = 0 := by
    rw [idxWord_eq]; exact setWidth_and_not_maskIdx _
  cases e
  · exact ⟨hctrl, htbal, hrbal, htlen, hrlen, hhead, htdt, hrdh, hrdt⟩
  · exact ⟨hctrl, htbal, hrbal, htlen, hrlen, htdh, htdt, hhead, hrdt⟩

/-- An advanced head is a slot of its ring, and the other ring keeps its head. -/
theorem indicesInRange_advanceHead {s : State} (h : IndicesInRange s) (e : Engine) :
    IndicesInRange (advanceHead e s) := by
  intro e' hon
  simp only [advanceHead, engineOn_setHead] at hon
  obtain ⟨hhead, htail⟩ := h e' hon
  refine ⟨?_, by simpa [advanceHead] using htail⟩
  by_cases he : e' = e
  · subst he
    rw [ringHead_advanceHead (by omega), advanceHead, ringCap_setHead]
    exact ringNext_lt (by omega) _
  · rw [advanceHead, ringHead_setHead_of_ne he, ringCap_setHead]
    exact hhead

theorem blockInv_advanceHead {s : State} (h : BlockInv s) (e : Engine) : BlockInv (advanceHead e s) := by
  obtain ⟨hregs, hidx, hmem, hlaunch⟩ := h
  refine ⟨regsShape_advanceHead hregs e, indicesInRange_advanceHead hidx e, ?_, ?_⟩ <;> cases e <;> assumption

/-! ### Register accesses -/

/-- What a register write stores is masked, and a word stored in `CTRL` has `RST` clear. -/
theorem regsShape_accessed {s t : State} (h : RegsShape s) (ha : Accessed s t) : RegsShape t := by
  have hs := h
  obtain ⟨hctrl, htbal, hrbal, htlen, hrlen, htdh, htdt, hrdh, hrdt⟩ := hs
  obtain ⟨r, hx | ⟨v, hx⟩⟩ := ha
  · rw [(readOp_next hx).1]
    exact h
  · cases r <;> simp only [writeOp, exec] at hx
    case ctrl =>
      obtain ⟨hrst, rfl⟩ | ⟨-, rfl⟩ := execWrCtrl_next hx
      · exact ⟨hrst, htbal, hrbal, htlen, hrlen, htdh, htdt, hrdh, hrdt⟩
      · simp [RegsShape, and_and_not, and_not_and]
    case rctl => rw [(execWrRctl_next hx).1]; exact h
    case tctl => rw [(execWrTctl_next hx).1]; exact h
    case icr => rw [execWrIcr_next hx]; split <;> exact h
    case ims | imc | mta | ral0 | rah0 => rw [← Host.Outcome.next.inj hx]; exact h
    case rdbah | tdbah => rw [(writeUnless_next.1 hx).2]; exact h
    case rdt | tdt => rw [(writeTail_next hx).1]; simp [RegsShape, and_and_not, *]
    all_goals rw [(writeUnless_next.1 hx).2]; simp [RegsShape, and_and_not, *]

/-- Reset disables both engines (10_state.md rule R43). -/
theorem engineOn_resetBlock (e : Engine) (s : State) : engineOn e (resetBlock s) = false := by
  cases e
  · simp [engineOn, enBit_eq, maskTxEn_eq]
  · simp [engineOn, enBit_eq, maskRxEn_eq, maskBsize_eq, maskSecrc_eq]

/-- A write of `TCTL` or `RCTL` checks the indices where it enables an engine. -/
theorem inRange_of_enableCheck {e : Engine} {s : State} {on : Prop} (h : IndicesInRange s)
    (hcheck : engineOn e s = false → on → ringHead e s < ringCap e s ∧ ringTail e s < ringCap e s) (hon : on) :
    ringHead e s < ringCap e s ∧ ringTail e s < ringCap e s := by
  cases hold : engineOn e s
  · exact hcheck hold hon
  · exact h e hold

/-- A tail write of an enabled engine checks the tail, and leaves the other ring. -/
theorem indicesInRange_writeTail {e : Engine} {v : Word} {s t : State} (h : IndicesInRange s)
    (hx : writeTail e v s = .next t) : IndicesInRange t := by
  obtain ⟨rfl, hcheck⟩ := writeTail_next hx
  have htail (hon : engineOn e s = true) : idxOf (v &&& maskIdx) < ringCap e s := by
    rw [idxOf_mask]; exact hcheck hon
  intro e'
  cases e <;> cases e'
  case tx.tx => exact fun hon => ⟨(h .tx hon).1, htail hon⟩
  case tx.rx => exact h .rx
  case rx.tx => exact h .tx
  case rx.rx => exact fun hon => ⟨(h .rx hon).1, htail hon⟩

/-- The indices are checked when an engine is enabled; while it is, its ring's length and head cannot be written. -/
theorem indicesInRange_accessed {s t : State} (h : IndicesInRange s) (ha : Accessed s t) : IndicesInRange t := by
  obtain ⟨r, hx | ⟨v, hx⟩⟩ := ha
  · rw [(readOp_next hx).1]
    exact h
  · cases r <;> simp only [writeOp, exec] at hx
    case ctrl =>
      obtain ⟨-, rfl⟩ | ⟨-, rfl⟩ := execWrCtrl_next hx
      · exact h
      · exact fun e hon => absurd hon (by simp [engineOn_resetBlock])
    case tctl =>
      obtain ⟨rfl, hcheck⟩ := execWrTctl_next hx
      intro e
      cases e
      · exact fun hon => inRange_of_enableCheck (e := .tx) (s := s) h hcheck hon
      · exact h .rx
    case rctl =>
      obtain ⟨rfl, hcheck⟩ := execWrRctl_next hx
      intro e
      cases e
      · exact h .tx
      · exact fun hon => inRange_of_enableCheck (e := .rx) (s := s) h hcheck hon
    case icr => rw [execWrIcr_next hx]; split <;> exact h
    case ims | imc | mta | ral0 | rah0 => rw [← Host.Outcome.next.inj hx]; exact h
    case rdt | tdt => exact indicesInRange_writeTail h hx
    case tdbal | tdbah | tdlen | tdh =>
      obtain ⟨hoff, rfl⟩ := writeUnless_next.1 hx
      intro e
      cases e
      · exact fun hon => absurd (hoff.symm.trans hon) Bool.false_ne_true
      · exact h .rx
    case rdbal | rdbah | rdlen | rdh =>
      obtain ⟨hoff, rfl⟩ := writeUnless_next.1 hx
      intro e
      cases e
      · exact h .tx
      · exact fun hon => absurd (hoff.symm.trans hon) Bool.false_ne_true

theorem blockInv_accessed {s t : State} (h : BlockInv s) (ha : Accessed s t) : BlockInv t := by
  obtain ⟨hregs, hidx, hmem, hlaunch⟩ := h
  refine ⟨regsShape_accessed hregs ha, indicesInRange_accessed hidx ha, ?_, ?_⟩
  · rwa [MemoryShape, (accessed_frame ha).1]
  · rwa [LaunchShape, (accessed_sameMarks ha).1]

/-! ### The agents -/

/-- The ways in which the host and its driver change the state keep the invariant. -/
theorem kept_inv : Kept Machine.Inv where
  access s t h ha := by
    obtain ⟨hblock, hoffer⟩ := inv_iff.1 h
    exact inv_iff.2 ⟨blockInv_accessed hblock ha, (accessed_frame ha).2.2.trans hoffer⟩
  read _ _ h := h
  drawn _ _ h := h
  store s a bs h hfree := by
    obtain ⟨hblock, hoffer⟩ := inv_iff.1 h
    exact inv_iff.2 ⟨blockInv_store hblock fun k hk => (hfree k hk).1, hoffer⟩
  ghost _ _ h := h

/-- The status byte of the descriptor at the head exists where the whole descriptor may be accessed. -/
theorem txStatusAddr_lt {s : State} (h : headAdmitted .tx s) : txStatusAddr s < spaceSize := by
  obtain ⟨-, hdma⟩ := h
  exact dmaAdmits_lt (hdma (offStatus .tx) (by decide))

theorem inv_txStep {s t : State} (h : Machine.Inv s) (hx : txStep s = .next t) : Machine.Inv t := by
  obtain ⟨hblock, hoffer⟩ := inv_iff.1 h
  obtain ⟨-, rfl⟩ | ⟨-, bs, rfl | ⟨hd, rfl⟩⟩ := txStep_sent hx
  · exact h
  · exact inv_iff.2 ⟨blockInv_advanceHead (s := s.emit bs) hblock .tx, hoffer⟩
  · have hreport (st : Byte) : BlockInv ((s.emit bs).store (txStatusAddr s) [st]) :=
      blockInv_store hblock fun k hk => by
        obtain rfl : k = 0 := by simpa using hk
        exact txStatusAddr_lt hd
    have hend (u : State) (hu : BlockInv u) : BlockInv (advanceHead .tx (u.drawn 1)) :=
      blockInv_advanceHead (s := u.drawn 1) hu .tx
    exact inv_iff.2 ⟨hend _ (hreport _), hoffer⟩

/-- A stored frame keeps the invariant, and ends the offer. -/
theorem inv_rxDone {s : State} (h : BlockInv s) {addr : Nat} {bs : List Byte}
    (hdma : ∀ w ∈ rxWrites addr (descAddr .rx (ringHead .rx s) s) bs s, dmaAll s w.1 w.2.length) :
    Machine.Inv (rxDone addr bs s) := by
  have hstored : BlockInv (storeAll (rxWrites addr (descAddr .rx (ringHead .rx s) s) bs s) s) :=
    storeAll_keeps h fun w hw u hu => blockInv_store_of_dmaAll hu (hdma w hw)
  have hend (u : State) (n : Nat) (hu : BlockInv u) :
      Machine.Inv (raiseRxdw (advanceHead .rx (u.drawn n))).endOffer :=
    inv_iff.2 ⟨blockInv_advanceHead (s := u.drawn n) hu .rx, rfl⟩
  exact hend _ _ hstored

theorem inv_rxStep {o : Offer} {s t : State} (h : Machine.Inv s) (hx : rxStep o s = .next t) : Machine.Inv t := by
  obtain rfl | ⟨addr, bs, hdma, rfl⟩ := rxStep_stored hx
  · exact h
  · exact inv_rxDone (s := s.offering o) (inv_iff.1 h).1 hdma

/-- Settles O51: the agent that steps is the TX engine, the RX engine, or one whose operations are of the kinds that
`kept_inv` lists. -/
theorem everyStepKeepsTheInvariant : Obligations.EveryStepKeepsTheInvariant := by
  intro s t h hx
  have hturn : Machine.Inv s.nextTurn := h
  obtain htx | ⟨o, hrx⟩ | hhost := step_agents hx
  · exact inv_txStep hturn htx
  · exact inv_rxStep hturn hrx
  · exact hhost Machine.Inv kept_inv hturn

/-- Settles O52: at launch both engines are disabled and nothing has been written. -/
theorem launchHasTheInvariant : Obligations.LaunchHasTheInvariant := by
  have hidx : IndicesInRange State.reset := fun e hon => absurd hon (by cases e <;> decide)
  exact ⟨by unfold RegsShape; decide, hidx, ⟨.nil, by simp [State.reset]⟩, by unfold LaunchShape; decide, rfl⟩

end Sys2Proof.Proofs

/-! What no step of any agent changes: the launch's parameters and the marks, and of `tx_log` what has been sent. -/

namespace Sys2Proof.Proofs

open Sys2Proof.Machine Sys2Proof.Laws

/-- The host and its driver leave the launch's parameters and the marks. -/
theorem kept_sameMarks (s : State) : Kept (SameMarks s) where
  access t u ht ha := by
    obtain ⟨hlaunch, hfaulted, hrefused⟩ := accessed_sameMarks ha
    rwa [SameMarks, hlaunch, hfaulted, hrefused]
  read _ _ h := h
  drawn _ _ h := h
  store _ _ _ h _ := h
  ghost _ _ h := h

/-- Settles O54: an engine's step executes an operation, and no operation touches marks or launch. -/
theorem stepsLeaveLaunchAndMarks : Obligations.StepsLeaveLaunchAndMarks := by
  intro s t h
  obtain htx | ⟨o, hrx⟩ | hhost := step_agents h
  · obtain ⟨-, rfl⟩ | ⟨-, addr, len, hx | hx⟩ := txStep_next htx
    · exact ⟨rfl, rfl, rfl⟩
    · exact exec_sameMarks (s := s.nextTurn) hx
    · exact exec_sameMarks (s := s.nextTurn) hx
  · obtain rfl | ⟨d, -, hx⟩ := rxStep_next hrx
    · exact ⟨rfl, rfl, rfl⟩
    · exact exec_sameMarks (s := s.nextTurn.offering o) hx
  · exact hhost (SameMarks s) (kept_sameMarks s) ⟨rfl, rfl, rfl⟩

/-- The host and its driver send nothing. -/
theorem kept_txLog (l : List (List Byte)) : Kept fun s => s.txLog = l where
  access _ _ h ha := (accessed_frame ha).2.1.trans h
  read _ _ h := h
  drawn _ _ h := h
  store _ _ _ h _ := h
  ghost _ _ h := h

/-- Settles O53: the TX engine adds the frame it sends, and no other agent sends. -/
theorem txLogOnlyGrows : Obligations.TxLogOnlyGrows := by
  intro s t h
  obtain htx | ⟨o, hrx⟩ | hhost := step_agents h
  · obtain ⟨-, rfl⟩ | ⟨-, bs, rfl | ⟨-, rfl⟩⟩ := txStep_sent htx
    · exact .inl rfl
    · exact .inr ⟨bs, rfl⟩
    · exact .inr ⟨bs, rfl⟩
  · obtain rfl | ⟨addr, bs, -, rfl⟩ := rxStep_stored hrx
    · exact .inl rfl
    · rw [rxDone_eq]; exact .inl rfl
  · exact .inl (hhost _ (kept_txLog s.txLog) rfl)

end Sys2Proof.Proofs

/-! The device-owned slots of a ring: how many they are, which bytes they own, and which of them a TX step returns. -/

namespace Sys2Proof.Proofs

open Sys2Proof.Machine Sys2Proof.Laws

/-! ### How many slots the device owns -/

/-- Only the slot that an index names modulo the capacity matters for the distance from it. -/
theorem ringDist_mod_left (n a b : Nat) : ringDist n (a % n) b = ringDist n a b := by
  rw [ringDist, ringDist, Nat.mod_mod]

/-- The slot that the distance leads to. -/
theorem add_ringDist_mod {n a b : Nat} (ha : a < n) (hb : b < n) : (a + ringDist n a b) % n = b := by
  rw [← ringNext_iterate ha, ringNext_iterate_ringDist ha hb]

/-- The distance of the slot that `k` advances lead to. -/
theorem ringDist_add_mod {n a k : Nat} (ha : a < n) (hk : k < n) : ringDist n a ((a + k) % n) = k := by
  have hreach : (a + ringDist n a ((a + k) % n)) % n = (a + k) % n :=
    add_ringDist_mod ha (Nat.mod_lt _ (by omega))
  exact (Nat.ModEq.add_left_cancel' a hreach).eq_of_lt_of_lt (ringDist_lt (by omega) _ _) hk

theorem mem_ownedSlots {e : Engine} {s : State} {i : Nat} : i ∈ ownedSlots e s ↔ deviceOwns e i s = true := by
  rw [ownedSlots, List.mem_filter, List.mem_range]
  exact ⟨And.right, fun h => ⟨((deviceOwns_iff e i s).1 h).1, h⟩⟩

/-- The slots less than `d` advances from `a` are `d`: the distance from `a` numbers them. -/
theorem card_ringDist_lt {n a d : Nat} (ha : a < n) (hd : d ≤ n) :
    ((Finset.range n).filter fun i => ringDist n a i < d).card = d := by
  conv_rhs => rw [← Finset.card_range d]
  refine Finset.card_nbij' (ringDist n a) (fun k => (a + k) % n) ?_ ?_ ?_ ?_
  · intro i hi
    obtain ⟨-, hlt⟩ := Finset.mem_filter.1 hi
    exact Finset.mem_coe.2 (Finset.mem_range.2 hlt)
  · intro k hk
    have hk : k < d := Finset.mem_range.1 hk
    have hdist : ringDist n a ((a + k) % n) = k := ringDist_add_mod ha (by omega)
    exact Finset.mem_filter.2 ⟨Finset.mem_range.2 (Nat.mod_lt _ (by omega)), by rwa [hdist]⟩
  · intro i hi
    obtain ⟨hi, -⟩ := Finset.mem_filter.1 hi
    exact add_ringDist_mod ha (Finset.mem_range.1 hi)
  · intro k hk
    have hk : k < d := Finset.mem_range.1 hk
    exact ringDist_add_mod ha (by omega)

/-- Settles O23: `card_ringDist_lt` at the head, which may be out of range and then counts modulo the capacity. -/
theorem deviceOwnedSlotsAreCounted : Obligations.DeviceOwnedSlotsAreCounted := by
  intro e s hcap
  have hlt := ringDist_lt hcap (ringHead e s) (ringTail e s)
  have hcount : (ownedSlots e s).length = ringDist (ringCap e s) (ringHead e s) (ringTail e s) := by
    have hnodup : (ownedSlots e s).Nodup := List.nodup_range.filter _
    rw [← List.toFinset_card_of_nodup hnodup, ← card_ringDist_lt (Nat.mod_lt (ringHead e s) hcap) hlt.le]
    congr 1
    ext i
    rw [List.mem_toFinset, mem_ownedSlots, deviceOwns_iff, Finset.mem_filter, Finset.mem_range, ringDist_mod_left]
  refine ⟨hcount, by omega, ?_⟩
  rw [← Bool.not_eq_true, deviceOwns_iff]
  exact fun h => lt_irrefl _ h.2

/-! ### Which bytes the device owns -/

theorem covers_iff {base n x : Nat} : covers base n x = true ↔ base ≤ x ∧ x < base + n := by
  simp only [covers, Bool.and_eq_true, decide_eq_true_eq]

/-- A slot's bytes: those of its descriptor and those of its buffer. -/
theorem slotCovers_iff {e : Engine} {i : Nat} {s : State} {x : Nat} : slotCovers e i s x = true ↔
    (descAddr e i s ≤ x ∧ x < descAddr e i s + 16) ∨ (bufAddr e i s ≤ x ∧ x < bufAddr e i s + bufLen e i s) := by
  rw [slotCovers, Bool.or_eq_true, covers_iff, covers_iff, config_descSize]

/-- A byte has an owner exactly when some device-owned slot of either ring covers it. -/
theorem ownerOf_isSome_iff {s : State} {x : Nat} : (ownerOf s x).isSome = true ↔
    (∃ i, deviceOwns .tx i s = true ∧ slotCovers .tx i s x = true) ∨
      ∃ i, deviceOwns .rx i s = true ∧ slotCovers .rx i s x = true := by
  have hfind (e : Engine) : ((ownedSlots e s).find? fun i => slotCovers e i s x).isSome = true ↔
      ∃ i, deviceOwns e i s = true ∧ slotCovers e i s x = true := by
    simp only [List.find?_isSome, mem_ownedSlots]
  rw [← hfind, ← hfind, ownerOf]
  split
  · next htx => simp [htx]
  · next htx => split <;> next hrx => simp [htx, hrx]

/-- Settles O24: the length of a TX buffer is the descriptor's, of an RX buffer `RX_BUF_SIZE`. -/
theorem ownedBytesAreThoseOfOwnedSlots : Obligations.OwnedBytesAreThoseOfOwnedSlots := by
  intro s x
  simp only [ownerOf_isSome_iff, slotCovers_iff, bufLen, offLength_eq, lenFieldBytes_eq]

/-! ### The slot a TX step returns -/

/-- A TX step that is enabled advances the head and leaves the rest of its ring. -/
theorem txStep_ring {s t : State} (hon : txEnabled s = true) (h : txStep s = .next t) :
    ringCap .tx t = ringCap .tx s ∧ ringTail .tx t = ringTail .tx s ∧
      ringHead .tx t = ringNext (ringCap .tx s) (ringHead .tx s) := by
  obtain ⟨-, -, hcap⟩ := (txEnabled_iff s).1 hon
  have hpos : 0 < ringCap .tx s := Nat.pos_of_ne_zero hcap
  obtain ⟨hoff, -⟩ | ⟨-, bs, rfl | ⟨-, rfl⟩⟩ := txStep_sent h
  · exact absurd (hoff.symm.trans hon) Bool.false_ne_true
  · exact ⟨rfl, rfl, ringHead_advanceHead (s := s.emit bs) hpos⟩
  · exact ⟨rfl, rfl, ringHead_advanceHead (s := ((s.emit bs).store _ _).drawn 1) hpos⟩

/-- From the next slot on every slot but the one left behind is one advance nearer. -/
theorem ringDist_ringNext_succ {n a b : Nat} (ha : a < n) (hb : b < n) (hab : b ≠ a) :
    ringDist n (ringNext n a) b + 1 = ringDist n a b := by
  rw [ringDist_eq (ringNext_lt (by omega) a) hb, ringDist_eq ha hb, ringNext_eq ha]
  split <;> split <;> split <;> omega

/-- Back to the slot left behind the way is the whole ring but one advance. -/
theorem ringDist_ringNext_self {n a : Nat} (hn : 2 ≤ n) (ha : a < n) : ringDist n (ringNext n a) a + 1 = n := by
  have hone := ringDist_ringNext hn ha
  have hne : a ≠ ringNext n a := fun heq => by rw [← heq, ringDist_self ha] at hone; omega
  have hsum := ringDist_add_ringDist_swap ha (ringNext_lt (by omega) a) hne
  omega

/-- Settles O30: the head moves one advance nearer to every slot but its own, so the interval loses that slot only. -/
theorem txStepReturnsItsSlot : Obligations.TxStepReturnsItsSlot := by
  intro s t hon hhead htail h
  obtain ⟨hcap', htail', hhead'⟩ := txStep_ring hon h
  obtain ⟨-, hne, -⟩ := (txEnabled_iff s).1 hon
  refine ⟨?_, ?_, fun i hi => ?_⟩
  · have htail_succ := ringDist_ringNext_succ hhead htail hne.symm
    rw [deviceOwns_iff, ringDist_self hhead]
    omega
  · have hself := ringDist_ringNext_self (by omega) hhead
    have hlt := ringDist_lt (n := ringCap .tx s) (by omega) (ringNext (ringCap .tx s) (ringHead .tx s)) (ringTail .tx s)
    rw [← Bool.not_eq_true, deviceOwns_iff, hcap', htail', hhead']
    omega
  · rw [Bool.eq_iff_iff, deviceOwns_iff, deviceOwns_iff, hcap', htail', hhead']
    refine and_congr_right fun hslot => ?_
    have hi_succ := ringDist_ringNext_succ hhead hslot hi
    have htail_succ := ringDist_ringNext_succ hhead htail hne.symm
    omega

end Sys2Proof.Proofs

/-! The interrupt line and the state at launch. -/

namespace Sys2Proof.Proofs

open Sys2Proof.Machine Sys2Proof.Laws

/-- Settles O9: the draw of `other` enters only where a mask bit outside `RXDW` is set. -/
theorem interruptLineFollowsTheCause : Obligations.InterruptLineFollowsTheCause := by
  intro s
  have hline : intLine s =
      ((s.im.getLsbD 7 && s.rxdw) || (decide (s.im &&& 0xFFFFFF7F#32 ≠ 0) && Config.freeBit s.draws)) := by
    rw [intLine, rxdwOf_eq, maskRxdw_eq]; rfl
  refine ⟨fun hmask => ?_, fun hbit hcause => ?_⟩
  · simp [hline, hmask]
  · simp [hline, hbit, hcause]

/-- Settles O13: the state at launch is a literal. -/
theorem launchHasTheResetValues : Obligations.LaunchHasTheResetValues := by
  unfold Obligations.LaunchHasTheResetValues
  decide

end Sys2Proof.Proofs

/-! The host's accesses by address: those that touch the register window (20_memory.md rule R62) and the stores beside
it, of which the stores of `INIT` into its rings are some (43_driver_sequences.md rule R211). -/

namespace Sys2Proof.Proofs

open Sys2Proof.Machine Sys2Proof.Laws

/-! ### Accesses in the register window -/

theorem touchesWindow_iff {s : State} {a n : Nat} : touchesWindow s a n = true ↔
    a < s.launch.regBase.toNat + 0x20000 ∧ s.launch.regBase.toNat < a + n := by
  rw [touchesWindow, Bool.and_eq_true, decide_eq_true_eq, decide_eq_true_eq, config_windowSize]

theorem width_bytes_pos (w : Width) : 0 < w.bytes := by cases w <;> decide

/-- Of the widths of host accesses, one has the 32 bits of a register. -/
theorem width_bits_eq_iff {w : Width} : 8 * w.bytes = 32 ↔ w = .w32 := by cases w <;> decide

theorem decodeAccess_regWidth {write : Bool} {width off : Nat} {v : Word} (h : width ≠ 32 ∨ off % 4 ≠ 0) :
    decodeAccess write width off v = .error (.regWidth off width) := if_pos h

section InWindow

variable {s : State} {a : Nat} (hlo : s.launch.regBase.toNat ≤ a) (hhi : a < s.launch.regBase.toNat + 0x20000)

include hlo hhi

theorem touchesWindow_of_inside (w : Width) : touchesWindow s a w.bytes = true :=
  touchesWindow_iff.2 ⟨hhi, by have := width_bytes_pos w; omega⟩

/-- A load that begins in the window is the decoding of a read at its offset. -/
theorem loadAt_inside (w : Width) : loadAt w a s =
    runDecoded 0 (decodeAccess false (8 * w.bytes) (a - s.launch.regBase.toNat) 0) s := by
  rw [loadAt, if_pos (touchesWindow_of_inside hlo hhi w), windowAccess, if_neg hlo.not_gt]
  rfl

/-- A store that begins in the window is the decoding of a write at its offset, of the low 32 bits of the value. -/
theorem storeAt_inside (w : Width) (v : BitVec 64) : storeAt w a v s =
    runDecoded 0 (decodeAccess true (8 * w.bytes) (a - s.launch.regBase.toNat) (v.setWidth 32)) s := by
  rw [storeAt, if_pos (touchesWindow_of_inside hlo hhi w), windowAccess, if_neg hlo.not_gt]

end InWindow

/-- Settles O44: width and offset are the decoder's first check, whether it is a read or a write. -/
theorem narrowOrMisalignedAccessesAreRefused : Obligations.NarrowOrMisalignedAccessesAreRefused := by
  intro s w a v hlo hhi hbad
  have hbits : 8 * w.bytes ≠ 32 ∨ (a.toNat - s.launch.regBase.toNat) % 4 ≠ 0 :=
    hbad.imp_left (mt width_bits_eq_iff.1)
  rw [hostLoad, hostStore, loadAt_inside hlo hhi, storeAt_inside hlo hhi, decodeAccess_regWidth hbits,
    decodeAccess_regWidth hbits]
  exact ⟨rfl, rfl⟩

/-! ### Stores beside the register window -/

/-- A store changes no byte but those it writes. -/
theorem memSameOutside_store (s : State) (a : Nat) (bs : List Byte) :
    memSameOutside a bs.length s (s.store a bs) := fun _ hx => find_write_outside _ _ _ _ hx

/-- A host store completes beside the window, below 2^64, on bytes that nobody owns (40_host_register_ops.md rule
R154). -/
theorem storeAt_outside {w : Width} {a : Nat} {v : BitVec 64} {s : State}
    (hwin : a + w.bytes ≤ s.launch.regBase.toNat ∨ s.launch.regBase.toNat + 0x20000 ≤ a)
    (hspace : a + w.bytes ≤ spaceSize) (hfree : ∀ k < w.bytes, ownerOf s (a + k) = none) :
    storeAt w a v s = .next (s.store a (leBytes w.bytes v.toNat)) := by
  have hmiss : ¬ touchesWindow s a w.bytes = true := by rw [touchesWindow_iff]; omega
  rw [storeAt, if_neg hmiss, if_neg hspace.not_gt, ownedByte_none.2 hfree]

/-- The one byte of a store of 8 bits. -/
theorem leBytes_byte (v : Byte) : leBytes Width.w8.bytes (v.setWidth 64).toNat = [v] := by
  have hlow : BitVec.ofNat 8 (v.setWidth 64).toNat = v := by
    rw [BitVec.toNat_setWidth_of_le (by decide), BitVec.ofNat_toNat, BitVec.setWidth_eq]
  exact congrArg ([·]) hlow

theorem storeAt_byte_outside {a : Nat} {v : Byte} {s : State}
    (hwin : a < s.launch.regBase.toNat ∨ s.launch.regBase.toNat + 0x20000 ≤ a) (hspace : a < spaceSize)
    (hfree : ownerOf s a = none) : storeAt .w8 a (v.setWidth 64) s = .next (s.store a [v]) := by
  rw [storeAt_outside hwin hspace, leBytes_byte]
  intro k hk
  obtain rfl : k = 0 := Nat.lt_one_iff.1 hk
  exact hfree

/-! ### The stores of `INIT` into its rings -/

theorem storeRing_of_slot_beyond {e : Engine} {k : Nat} {w : Width} {v : BitVec 64} {s : State}
    (h : spaceSize ≤ (driverRing e s.driver).toNat + k / 16 * 16) :
    storeRing e k w v s = .refused (.ringWrap e) := if_pos h

theorem storeRing_of_slot_below {e : Engine} {k : Nat} {w : Width} {v : BitVec 64} {s : State}
    (h : (driverRing e s.driver).toNat + k / 16 * 16 < spaceSize) :
    storeRing e k w v s = storeAt w ((driverRing e s.driver).toNat + k) v s := if_neg h.not_ge

/-- Settles O58: a slot begins at or before its bytes, so a byte below 2^64 lies in a slot that is not refused. -/
theorem initStoresNeverWrap : Obligations.InitStoresNeverWrap := by
  rintro s e k v _ rfl
  refine ⟨fun hslot => storeRing_of_slot_beyond hslot, fun hspace hwin hfree => ?_⟩
  have hslot : (driverRing e s.driver).toNat + k / 16 * 16 < spaceSize := by
    have hle := Nat.div_mul_le_self k 16
    rw [spaceSize_eq]
    omega
  have hstore : driverOp (.initStore e k v) s = .next (s.store ((driverRing e s.driver).toNat + k) [v]) :=
    (storeRing_of_slot_below hslot).trans (storeAt_byte_outside hwin hspace hfree)
  exact ⟨_, hstore, rfl, memSameOutside_store s _ [v], find_write_inside s.mem _ [v] 0 Nat.one_pos⟩

end Sys2Proof.Proofs

/-! The encoding read both ways (30_encoding.md rules R91, R94, R100 and R102): every operation is what its encoding
decodes to, and a register word that decodes is its operation's encoding. -/

namespace Sys2Proof.Proofs

open Sys2Proof.Laws

/-! ### Register words -/

/-- The encoder's table of writes is `writeOp` read backwards. -/
theorem encode_writeOp (r : Reg) (v : Word) : encode (writeOp r v) = .mmio (mmioWrite r v) := by cases r <;> rfl

/-- The encoder's table of reads is `readOp` read backwards. -/
theorem encode_readOp (r : Reg) : encode (readOp r) = .mmio (mmioRead r) := by cases r <;> rfl

/-- A word with the fields `W`, 0, `OFF(r)` and `v` is that of an access to `r`. -/
theorem mmio_eq_of_fields {x : BitVec 64} {r : Reg} (hzero : x.extractLsb' 52 11 = 0)
    (hoff : r.off = (x.extractLsb' 32 20).toNat) :
    x = BitVec.ofBool (x.getLsbD 63) ++ 0#11 ++ BitVec.ofNat 20 r.off ++ x.extractLsb' 0 32 := by
  have hw : x.extractLsb' 63 1 = BitVec.ofBool (x.getLsbD 63) := by
    ext i hi
    obtain rfl : i = 0 := Nat.lt_one_iff.1 hi
    simp
  conv_lhs => rw [mmio_of_fields x, hw, hzero]
  rw [hoff, BitVec.ofNat_toNat, BitVec.setWidth_eq]
  rfl

/-- A register word that decodes is the word of a write or of a read, and decodes to that one. -/
theorem decodeMmio_ok {x : BitVec 64} {i : Instr} (h : decodeMmio x = .ok i) :
    ∃ r : Reg, (∃ v, x = mmioWrite r v ∧ i = writeOp r v) ∨ (x = mmioRead r ∧ i = readOp r) := by
  simp only [decodeMmio] at h
  split at h
  · cases h
  · next hword =>
    obtain ⟨hzero, hdata⟩ := not_or.1 hword
    obtain ⟨-, r, hoff, hi⟩ := decodeAccess_ok h
    have hx := mmio_eq_of_fields (not_not.1 hzero) hoff
    refine ⟨r, ?_⟩
    cases hw : x.getLsbD 63 with rw [hw] at hx hi
    | true => exact .inl ⟨_, hx, hi⟩
    | false =>
      have hdata0 : x.extractLsb' 0 32 = 0#32 := not_not.1 fun hne => hdata ⟨hw, hne⟩
      rw [hdata0] at hx
      exact .inr ⟨hx, hi⟩

/-- Settles O49: the word is the write's or the read's that it decodes to. -/
theorem registerWordsHaveOneMeaning : Obligations.RegisterWordsHaveOneMeaning := by
  intro x i h
  obtain ⟨r, ⟨v, rfl, rfl⟩ | ⟨rfl, rfl⟩⟩ := decodeMmio_ok h
  · exact encode_writeOp r v
  · exact encode_readOp r

/-! ### Descriptors -/

section TxFields

variable (addr : Addr) (len : LenField) (cmd : Byte)

/-- Bits of a TX descriptor are those of its three fields. -/
theorem extract_encodeTxd (lo n : Nat) : (encodeTxd addr len cmd).extractLsb' lo n =
    (inField addr config.tx.addr).extractLsb' lo n ||| (inField len config.tx.length).extractLsb' lo n |||
      (inField cmd config.tx.cmd).extractLsb' lo n := by
  rw [encodeTxd, BitVec.extractLsb'_or, BitVec.extractLsb'_or]

theorem encodeTxd_addr : (encodeTxd addr len cmd).extractLsb' config.tx.addr 64 = addr := by
  rw [extract_encodeTxd, extract_inField addr (by decide), extract_inField_beside len (by decide) (by decide),
    extract_inField_beside cmd (by decide) (by decide)]
  simp

theorem encodeTxd_length : (encodeTxd addr len cmd).extractLsb' config.tx.length config.lenFieldWidth = len := by
  rw [extract_encodeTxd, extract_inField len (by decide), extract_inField_beside addr (by decide) (by decide),
    extract_inField_beside cmd (by decide) (by decide)]
  simp

theorem encodeTxd_cmd : (encodeTxd addr len cmd).extractLsb' config.tx.cmd 8 = cmd := by
  rw [extract_encodeTxd, extract_inField cmd (by decide), extract_inField_beside addr (by decide) (by decide),
    extract_inField_beside len (by decide) (by decide)]
  simp

end TxFields

theorem decodeTxd_encodeTxd_eopRs (addr : Addr) (len : LenField) :
    decodeTxd (encodeTxd addr len cmdEopRs) = .ok (.txdEopRs addr len) := by
  simp only [decodeTxd, encodeTxd_addr, encodeTxd_length, encodeTxd_cmd, if_true]

theorem decodeTxd_encodeTxd_eop (addr : Addr) (len : LenField) :
    decodeTxd (encodeTxd addr len cmdEop) = .ok (.txdEop addr len) := by
  have hne : cmdEop ≠ cmdEopRs := by decide
  simp only [decodeTxd, encodeTxd_addr, encodeTxd_length, encodeTxd_cmd, if_neg hne, if_true]

theorem decodeRxd_encodeRxd (addr : Addr) : decodeRxd (encodeRxd addr) = .ok (.rxd addr) := by
  rw [decodeRxd, encodeRxd, extract_inField addr (by decide)]

/-- Settles O48: a descriptor is read back field by field; every other operation is a `writeOp` or a `readOp`, whose
word decodes to it. -/
theorem decodeOfEncodeIsTheInstruction : Obligations.DecodeOfEncodeIsTheInstruction := by
  intro i
  cases i with
  | txdEopRs addr len => exact decodeTxd_encodeTxd_eopRs addr len
  | txdEop addr len => exact decodeTxd_encodeTxd_eop addr len
  | rxd addr => exact decodeRxd_encodeRxd addr
  | _ => simp only [encode, decode, decodeMmio_mmioWrite, decodeMmio_mmioRead, writeOp, readOp]

end Sys2Proof.Proofs

/-! Register accesses of the host: the words they have (30_encoding.md rule R100), what runs them, and what each does
(40_host_register_ops.md rules R120 to R152, R157 to R163). -/

namespace Sys2Proof.Proofs

open Sys2Proof.Machine Sys2Proof.Laws

/-! ### The words of register accesses -/

/-- A word whose upper half is that of a write of `r` is the write of its lower half. -/
theorem decode_write {upper : BitVec 32} (r : Reg) (v : Word)
    (h : upper = 1#1 ++ 0#11 ++ BitVec.ofNat 20 r.off) : decode (.mmio (upper ++ v)) = .ok (writeOp r v) := by
  subst h
  exact decodeMmio_mmioWrite r v

theorem decode_read {x : BitVec 64} (r : Reg) (h : x = mmioRead r) : decode (.mmio x) = .ok (readOp r) := by
  subst h
  exact decodeMmio_mmioRead r

/-- The upper half of the word of a write of an entry of the multicast table. -/
theorem mtaWrite_upper (n : MtaIdx) :
    BitVec.ofNat 32 (0x80005200 + 4 * n.val) = 1#1 ++ 0#11 ++ BitVec.ofNat 20 (Reg.mta n).off := by
  revert n; decide

/-- The word of a read of an entry of the multicast table. -/
theorem mtaRead_word (n : MtaIdx) :
    BitVec.ofNat 32 (0x00005200 + 4 * n.val) ++ 0#32 = mmioRead (.mta n) := by
  revert n; decide

/-! ### Which access runs which operation -/

theorem decodeAccess_of_off {write : Bool} {r : Reg} {v : Word} :
    decodeAccess write 32 r.off v = .ok (if write then writeOp r v else readOp r) := by
  have hok : ¬ ((32 : Nat) ≠ 32 ∨ r.off % 4 ≠ 0) := by have := (off_aligned r).1; omega
  rw [decodeAccess, if_neg hok, ofOff_off]

theorem decodeAccess_unlisted {write : Bool} {off : Nat} {v : Word} (haligned : off % 4 = 0)
    (hno : ∀ r : Reg, r.off ≠ off) : decodeAccess write 32 off v = .error (.unknownReg off) := by
  have hok : ¬ ((32 : Nat) ≠ 32 ∨ off % 4 ≠ 0) := by omega
  have hnone : Reg.ofOff off = none :=
    Option.eq_none_iff_forall_ne_some.2 fun r hr => hno r (off_of_ofOff hr)
  rw [decodeAccess, if_neg hok, hnone]

/-- A well-formed register word (30_encoding.md rule R100) is decoded as an access to the offset it names. -/
theorem decodeMmio_of_fields {x : BitVec 64} (hzero : x.extractLsb' 52 11 = 0)
    (hdata : x.getLsbD 63 = true ∨ x.extractLsb' 0 32 = 0) :
    decodeMmio x = decodeAccess (x.getLsbD 63) 32 (x.extractLsb' 32 20).toNat (x.extractLsb' 0 32) := by
  have hword : ¬ (x.extractLsb' 52 11 ≠ 0 ∨ (x.getLsbD 63 = false ∧ x.extractLsb' 0 32 ≠ 0)) := by
    rintro (hne | ⟨hread, hne⟩)
    · exact hne hzero
    · exact hdata.elim (fun hwrite => Bool.false_ne_true (hread.symm.trans hwrite)) hne
  exact if_neg hword

/-- Settles O42: the offset table lists a register at its own offset only. -/
theorem unlistedOffsetsAreRefused : Obligations.UnlistedOffsetsAreRefused := by
  intro s write off v haligned hno
  have hrefused (write : Bool) (v : Word) :
      runDecoded 0 (decodeAccess write 32 off v) s = .refused (.unknownReg off) := by
    rw [decodeAccess_unlisted haligned hno]; rfl
  refine ⟨hrefused write v, fun x hzero hdata hoff => ?_, fun a d ha hwin => ?_⟩
  · rw [hostOp, hostMmio, decodeMmio_of_fields hzero hdata, hoff]
    exact hrefused _ _
  · have hlo : s.launch.regBase.toNat ≤ a.toNat := by omega
    have hhi : a.toNat < s.launch.regBase.toNat + 0x20000 := by omega
    have hsub : a.toNat - s.launch.regBase.toNat = off := by omega
    simp only [hostOp, hostLoad, hostStore, loadAt_inside hlo hhi, storeAt_inside hlo hhi, hsub]
    exact ⟨hrefused _ _, hrefused _ _⟩

/-- Settles O43: an access at a register's offset lies in the window and decodes to that register's operation. -/
theorem windowAccessesAreRegisterAccesses : Obligations.WindowAccessesAreRegisterAccesses := by
  intro s r a v ha
  have hwin := (off_aligned r).2
  have hlo : s.launch.regBase.toNat ≤ a.toNat := by omega
  have hhi : a.toNat < s.launch.regBase.toNat + 0x20000 := by omega
  have hsub : a.toNat - s.launch.regBase.toNat = r.off := by omega
  have hruns (write : Bool) (v : Word) : runDecoded 0 (decodeAccess write (8 * Width.w32.bytes) r.off v) s =
      exec (if write then writeOp r v else readOp r) s := congrArg (runDecoded 0 · s) decodeAccess_of_off
  simp only [hostOp, hostLoad, hostStore, loadAt_inside hlo hhi, storeAt_inside hlo hhi, hsub]
  exact ⟨hruns false 0, hruns true _⟩

/-- Settles O45: the turn at the head of the schedule is taken in the state that has moved past it. -/
theorem stepRunsTheHostsWord : Obligations.StepRunsTheHostsWord := by
  intro s x ts i hturns hdecode
  have hnext : s.nextTurn = { s with turns := ts, draws := s.draws + 1, rota := s.rota + 1 } := by
    rw [State.nextTurn, hturns]; rfl
  have hturn : step s = runDecoded 0 (decode (.mmio x)) s.nextTurn := by rw [step, hturns]; rfl
  rw [hturn, hdecode, hnext]; rfl

/-! ### Reads -/

/-- Settles O1: the word of `RD.CTRL` is 0, that of another read has its offset only. -/
theorem controlReadsReturnTheRegister : Obligations.ControlReadsReturnTheRegister := by
  refine ⟨decode_read .ctrl (by decide), decode_read .ims (by decide), decode_read .rctl (by decide),
    decode_read .tctl (by decide), fun s => ⟨?_, rfl, rfl, rfl⟩⟩
  rw [exec, execRdCtrl, maskRst_eq]; rfl

/-- Settles O2: of the registers of the ring the low half of the base alone is read under a mask. -/
theorem rxRingReadsReturnTheRegister : Obligations.RxRingReadsReturnTheRegister := by
  refine ⟨decode_read .rdbal (by decide), decode_read .rdbah (by decide), decode_read .rdlen (by decide),
    decode_read .rdh (by decide), decode_read .rdt (by decide), fun s => ⟨?_, rfl, rfl, rfl, rfl⟩⟩
  rw [exec, execRdRdbal, maskBaseLo_eq]; rfl

/-- Settles O3: of the registers of the ring the low half of the base alone is read under a mask. -/
theorem txRingReadsReturnTheRegister : Obligations.TxRingReadsReturnTheRegister := by
  refine ⟨decode_read .tdbal (by decide), decode_read .tdbah (by decide), decode_read .tdlen (by decide),
    decode_read .tdh (by decide), decode_read .tdt (by decide), fun s => ⟨?_, rfl, rfl, rfl, rfl⟩⟩
  rw [exec, execRdTdbal, maskBaseLo_eq]; rfl

/-! ### The filter -/

/-- A read of an entry of the multicast table after a write of one. -/
theorem exec_rdMta_set (s : State) (n m : MtaIdx) (v : Word) :
    exec (.rdMta m) { s with mta := s.mta.set n.val v n.isLt } =
      readReg (if m = n then v else s.mta[m.val]'m.isLt) { s with mta := s.mta.set n.val v n.isLt } := by
  rw [exec, execRdMta, Vector.getElem_set]
  simp only [Fin.ext_iff, eq_comm]

/-- Settles O4: a table entry is read back by `exec_rdMta_set`; `RAL0` and `RAH0` are stored and read whole. -/
theorem filterRegistersAreStorage : Obligations.FilterRegistersAreStorage := by
  intro s n v
  refine ⟨decode_write (.mta n) v (mtaWrite_upper n), decode_read (.mta n) (mtaRead_word n),
    decode_write .ral0 v (by decide), decode_read .ral0 (by decide), decode_write .rah0 v (by decide),
    decode_read .rah0 (by decide), ⟨_, rfl, rfl, ?_, fun m hm => ?_⟩, ⟨_, rfl, rfl⟩, rfl, rfl, rfl, rfl⟩
  · rw [exec_rdMta_set, if_pos rfl]; rfl
  · rw [exec_rdMta_set, if_neg hm]; rfl

/-! ### Interrupt cause and mask -/

/-- Bit 7 of the word that a read of `ICR` returns is the cause, whatever is drawn for the others. -/
theorem icrValue_rxdw (pending : Bool) (draw : Word) : (icrValue pending draw).getLsbD 7 = pending := by
  cases pending <;> simp [icrValue, rxdwBit, maskRxdw_eq]

/-- Settles O5: `icrValue_rxdw` says what bit 7 is. -/
theorem icrReadReturnsAndClearsTheCause : Obligations.IcrReadReturnsAndClearsTheCause :=
  ⟨decode_read .icr (by decide), fun s => ⟨_, _, rfl, icrValue_rxdw s.rxdw _⟩⟩

/-- Settles O6: the value is the next draw. -/
theorem imcReadReturnsAnyValue : Obligations.ImcReadReturnsAnyValue :=
  ⟨decode_read .imc (by decide), fun _ => ⟨_, _, rfl⟩⟩

/-- Settles O7: the write looks at bit 7 only. -/
theorem icrWriteClearsOnOne : Obligations.IcrWriteClearsOnOne := by
  intro s v
  refine ⟨decode_write .icr v (by decide), fun hset => ?_, fun hclear => ?_⟩
  · rw [exec, execWrIcr, rxdwOf_eq, hset]; rfl
  · rw [exec, execWrIcr, rxdwOf_eq, hclear]; rfl

/-- Settles O8: the mask is or-ed with the data, or and-ed with its complement. -/
theorem maskPortsSetAndClearBits : Obligations.MaskPortsSetAndClearBits := by
  intro s v
  refine ⟨decode_write .ims v (by decide), decode_write .imc v (by decide), ⟨_, rfl, rfl, fun k _ => ?_⟩,
    ⟨_, rfl, rfl, fun k hk => ?_⟩⟩
  · exact BitVec.getLsbD_or
  · simp [hk]

/-! ### Control registers and reset -/

theorem exec_wrCtrl_store {v : Word} (s : State) (h : v.getLsbD 26 = false) :
    exec (.wrCtrl v) s = .next { s with ctrl := v } := if_pos ((and_rst_eq_zero v).2 h)

theorem exec_wrCtrl_reset {v : Word} (s : State) (h : v.getLsbD 26 = true) :
    exec (.wrCtrl v) s = .next (resetBlock s) := by
  refine if_neg fun hzero => ?_
  rw [(and_rst_eq_zero v).1 hzero] at h
  exact Bool.false_ne_true h

/-- After a reset the rings have no slots, so that none is device-owned (70_reset_and_hazards.md rule R253). -/
theorem deviceOwns_resetBlock (e : Engine) (i : Nat) (s : State) : deviceOwns e i (resetBlock s) = false := by
  have hcap : ringCap e (resetBlock s) = 0 := by cases e <;> exact (by decide : slotsOf 0 = 0)
  rw [← Bool.not_eq_true, deviceOwns_iff, hcap]
  exact fun h => absurd h.1 (Nat.not_lt_zero i)

/-- Settles O12: what reset leaves of the drawn words has the named bits cleared. -/
theorem ctrlWriteStoresOrResets : Obligations.CtrlWriteStoresOrResets := by
  intro s v
  refine ⟨decode_write .ctrl v (by decide), exec_wrCtrl_store s, fun hv w hw => ?_, fun hv =>
    ⟨_, exec_wrCtrl_reset s hv, ?_, ?_, ?_, ?_, rfl, rfl, rfl, rfl, rfl, rfl, rfl, ?_, ?_, ?_, rfl, rfl, rfl, rfl, rfl,
      rfl, rfl, rfl, rfl, fun e i => deviceOwns_resetBlock e i s⟩⟩
  · rw [exec_wrCtrl_reset s hv, exec_wrCtrl_reset s hw]
  · exact enBit_eq .tx _ ▸ engineOn_resetBlock .tx s
  · exact enBit_eq .rx _ ▸ engineOn_resetBlock .rx s
  · exact extract_and_of_clear _ _ 16 2 (by decide)
  · simp [maskRxEn_eq, maskBsize_eq, maskSecrc_eq]
  · simp [maskRst_eq]
  · exact extract_and_of_clear _ _ 0 4 (by decide)
  · exact extract_and_of_clear _ _ 0 4 (by decide)

/-! ### Writes that enable an engine -/

theorem engineOn_tx (s : State) : engineOn .tx s = s.tctl.getLsbD 1 := rfl

theorem engineOn_rx (s : State) : engineOn .rx s = s.rctl.getLsbD 1 := rfl

/-- The check at an enable: an index that is out of range, unless both are slots of the ring. -/
theorem enableCheck_none_iff {e : Engine} {s : State} : enableCheck e s = none ↔
    ringHead e s < ringCap e s ∧ ringTail e s < ringCap e s := by
  unfold enableCheck
  split
  · next hhead => simp [hhead.not_gt]
  · next hhead =>
    split
    · next htail => simp [htail.not_gt]
    · next htail => simp [not_le.1 hhead, not_le.1 htail]

theorem enableCheck_some {e : Engine} {s : State} (h : ¬ (ringHead e s < ringCap e s ∧ ringTail e s < ringCap e s)) :
    ∃ r n, enableCheck e s = some (.idxRange r n) ∧ ringCap e s ≤ n := by
  unfold enableCheck
  by_cases hhead : ringCap e s ≤ ringHead e s
  · exact ⟨_, _, if_pos hhead, hhead⟩
  · have htail : ringCap e s ≤ ringTail e s := not_lt.1 fun hlt => h ⟨not_le.1 hhead, hlt⟩
    exact ⟨_, _, (if_neg hhead).trans (if_pos htail), htail⟩

/-- A write that turns no engine on, or one whose indices fit, is stored. -/
theorem writeEnable_stored {e : Engine} {v : Word} {s t : State} (h : engineOn e s = true ∨ v.getLsbD 1 = false ∨
    (ringHead e s < ringCap e s ∧ ringTail e s < ringCap e s)) : writeEnable e v s t = .next t := by
  have hcheck : (if !engineOn e s && enBit e v then enableCheck e s else none) = none := by
    obtain hon | hoff | hfits := h
    · simp [hon]
    · rw [enBit_eq, hoff, Bool.and_false]; rfl
    · rw [enableCheck_none_iff.2 hfits, ite_self]
  rw [writeEnable, hcheck]

/-- A write that turns an engine on with an index out of range is refused. -/
theorem writeEnable_refused {e : Engine} {v : Word} {s t : State} (hoff : engineOn e s = false)
    (hv : v.getLsbD 1 = true) (h : ¬ (ringHead e s < ringCap e s ∧ ringTail e s < ringCap e s)) :
    ∃ r n, writeEnable e v s t = .refused (.idxRange r n) ∧ ringCap e s ≤ n := by
  obtain ⟨r, n, hsome, hn⟩ := enableCheck_some h
  have hcheck : (if !engineOn e s && enBit e v then enableCheck e s else none) = some (.idxRange r n) := by
    rw [hoff, enBit_eq, hv, hsome]; rfl
  exact ⟨r, n, by rw [writeEnable, hcheck], hn⟩

/-- A write of `RCTL` changes the buffer size or the stripping under an enabled receiver. -/
theorem rctlReprograms_iff {v old : Word} : rctlReprograms v old = true ↔
    old.getLsbD 1 = true ∧ v.getLsbD 1 = true ∧
      (old.extractLsb' 16 2 ≠ v.extractLsb' 16 2 ∨ old.getLsbD 26 ≠ v.getLsbD 26) := by
  rw [rctlReprograms, Bool.and_eq_true, Bool.and_eq_true, Bool.or_eq_true, decide_eq_true_iff, decide_eq_true_iff,
    enBit_eq, enBit_eq, and_assoc]
  rfl

theorem exec_wrRctl_of_no_change {v : Word} {s : State} (h : ¬ rctlReprograms v s.rctl = true) :
    exec (.wrRctl v) s = writeEnable .rx v s { s with rctl := v } := if_neg h

/-- Settles O14: a change of the buffer size or of the stripping is asked first, then the indices. -/
theorem rctlWriteIsStoredOrRefused : Obligations.RctlWriteIsStoredOrRefused := by
  intro s v changes fits
  have hsame (h : s.rctl.getLsbD 1 = false ∨ v.getLsbD 1 = false ∨ ¬ changes) :
      exec (.wrRctl v) s = writeEnable .rx v s { s with rctl := v } := by
    refine exec_wrRctl_of_no_change fun hre => ?_
    obtain ⟨hon, hv, hch⟩ := rctlReprograms_iff.1 hre
    obtain hoff | hoff | hno := h
    · exact Bool.false_ne_true (hoff.symm.trans hon)
    · exact Bool.false_ne_true (hoff.symm.trans hv)
    · exact hno hch
  refine ⟨decode_write .rctl v (by decide), fun hon hv hch => ?_, fun hon _ hch => ?_, fun hv => ?_,
    fun hoff _ hfits => ?_, fun hoff hv hfits => ?_⟩
  · exact if_pos (rctlReprograms_iff.2 ⟨hon, hv, hch⟩)
  · exact (hsame (.inr (.inr hch))).trans (writeEnable_stored (.inl hon))
  · exact (hsame (.inr (.inl hv))).trans (writeEnable_stored (.inr (.inl hv)))
  · exact (hsame (.inl hoff)).trans (writeEnable_stored (.inr (.inr hfits)))
  · rw [hsame (.inl hoff)]
    exact writeEnable_refused hoff hv hfits

/-- Settles O15: `writeEnable` of the TX side, with nothing asked before it. -/
theorem tctlWriteIsStoredOrRefused : Obligations.TctlWriteIsStoredOrRefused := by
  intro s v fits
  exact ⟨decode_write .tctl v (by decide), fun h => writeEnable_stored h,
    fun hoff hv hfits => writeEnable_refused hoff hv hfits⟩

/-! ### Base, length and head of a ring -/

/-- The capacity is the stored length over the 16 bytes of a descriptor (10_state.md rule R25). -/
theorem slotsOf_masked_length (v : Word) : slotsOf (v &&& 0x000FFF80#32) = (v &&& 0x000FFF80#32).toNat / 16 := by
  have hlow : (v &&& 0x000FFF80#32).extractLsb' 0 7 = 0 := extract_and_of_clear _ _ 0 7 (by decide)
  have hhigh : (v &&& 0x000FFF80#32).extractLsb' 20 12 = 0 := extract_and_of_clear _ _ 20 12 (by decide)
  generalize v &&& 0x000FFF80#32 = len at *
  have hlow : len.toNat % 128 = 0 := congrArg BitVec.toNat hlow
  have hhigh : (len.toNat >>> 20) % 4096 = 0 := congrArg BitVec.toNat hhigh
  have hlt : len.toNat < 4294967296 := len.isLt
  have hslots : slotsOf len = (len.toNat >>> 7) % 8192 * 8 := rfl
  rw [Nat.shiftRight_eq_div_pow] at hhigh hslots
  omega

theorem writeUnless_unlocked {l : Bool} {why : Refusal} {t : State} (h : l = false) :
    writeUnless l why t = .next t := by rw [h, writeUnless_false]

theorem writeUnless_locked {l : Bool} {why : Refusal} {t : State} (h : l = true) :
    writeUnless l why t = .refused why := by rw [h, writeUnless_true]

/-- Settles O16: each write is `writeUnless` of the receiver's enable. -/
theorem rxRingWritesNeedADisabledReceiver : Obligations.RxRingWritesNeedADisabledReceiver := by
  intro s v
  refine ⟨decode_write .rdbal v (by decide), decode_write .rdbah v (by decide), decode_write .rdlen v (by decide),
    decode_write .rdh v (by decide), slotsOf_masked_length v, fun hoff => ?_, fun hon => ?_⟩
  · exact ⟨writeUnless_unlocked hoff, writeUnless_unlocked hoff, writeUnless_unlocked hoff, writeUnless_unlocked hoff⟩
  · exact ⟨writeUnless_locked hon, writeUnless_locked hon, writeUnless_locked hon, writeUnless_locked hon⟩

/-- Settles O17: each write is `writeUnless` of the transmitter's enable. -/
theorem txRingWritesNeedADisabledTransmitter : Obligations.TxRingWritesNeedADisabledTransmitter := by
  intro s v
  refine ⟨decode_write .tdbal v (by decide), decode_write .tdbah v (by decide), decode_write .tdlen v (by decide),
    decode_write .tdh v (by decide), slotsOf_masked_length v, fun hoff => ?_, fun hon => ?_⟩
  · exact ⟨writeUnless_unlocked hoff, writeUnless_unlocked hoff, writeUnless_unlocked hoff, writeUnless_unlocked hoff⟩
  · exact ⟨writeUnless_locked hon, writeUnless_locked hon, writeUnless_locked hon, writeUnless_locked hon⟩

/-! ### A ring's registers after a tail write -/

section TailWrite

variable (e e' : Engine) (s : State) (v : Word)

@[simp] theorem engineOn_setTail : engineOn e' (s.setTail e v) = engineOn e' s := by cases e <;> cases e' <;> rfl

@[simp] theorem ringCap_setTail : ringCap e' (s.setTail e v) = ringCap e' s := by cases e <;> cases e' <;> rfl

@[simp] theorem ringHead_setTail : ringHead e' (s.setTail e v) = ringHead e' s := by cases e <;> cases e' <;> rfl

@[simp] theorem ringTail_setTail : ringTail e (s.setTail e v) = idxOf v := by cases e <;> rfl

/-- The device-owned slots after a tail write: from the head up to the index written (10_state.md rule R38). -/
theorem deviceOwns_setTail_iff (i : Nat) : deviceOwns e i (s.setTail e (v &&& maskIdx)) = true ↔
    i < ringCap e s ∧ ringDist (ringCap e s) (ringHead e s) i < ringDist (ringCap e s) (ringHead e s) (idxOf v) := by
  rw [deviceOwns_iff, ringCap_setTail, ringHead_setTail, ringTail_setTail, idxOf_mask]

end TailWrite

/-! ### Tail writes under either policy (93_implementation_defined.md U9) -/

section TailPolicy

variable {e : Engine} {s : State} {v : Word}

/-- Under the default policy an enabled engine's tail is range-checked, and nothing else is. -/
theorem writeTail_interval (hpol : s.launch.tailPolicy = .interval) : writeTail e v s =
    writeUnless (engineOn e s && decide (ringCap e s ≤ idxOf v)) (.idxRange (tailReg e) (idxOf v))
      (s.setTail e (v &&& maskIdx)) := by
  simp [writeTail, hpol]

theorem writeTail_refused_of_range (hpol : s.launch.tailPolicy = .interval) (hon : engineOn e s = true)
    (hrange : ringCap e s ≤ idxOf v) : writeTail e v s = .refused (.idxRange (tailReg e) (idxOf v)) := by
  simp [writeTail_interval hpol, hon, hrange]

theorem writeTail_stored (hpol : s.launch.tailPolicy = .interval)
    (h : engineOn e s = false ∨ idxOf v < ringCap e s) : writeTail e v s = .next (s.setTail e (v &&& maskIdx)) := by
  have hopen : (engineOn e s && decide (ringCap e s ≤ idxOf v)) = false := by
    obtain hoff | hlt := h
    · simp [hoff]
    · simp [hlt]
  rw [writeTail_interval hpol, hopen, writeUnless_false]

/-- Under the alternative policy a tail in range is refused exactly where the device-owned interval gets shorter. -/
theorem writeTail_refuse (hpol : s.launch.tailPolicy = .refuse) (hlt : idxOf v < ringCap e s) : writeTail e v s =
    writeUnless (decide (ringDist (ringCap e s) (ringHead e s) (idxOf v) <
      ringDist (ringCap e s) (ringHead e s) (ringTail e s))) (.idxRange (tailReg e) (idxOf v))
      (s.setTail e (v &&& maskIdx)) := by
  have hslots : ringCap e s ≠ 0 := by omega
  simp [writeTail, hpol, tailRetreats, hlt.not_ge, hslots]

theorem writeTail_refused_of_retreat (hpol : s.launch.tailPolicy = .refuse) (hlt : idxOf v < ringCap e s)
    (hback : ringDist (ringCap e s) (ringHead e s) (idxOf v) < ringDist (ringCap e s) (ringHead e s) (ringTail e s)) :
    writeTail e v s = .refused (.idxRange (tailReg e) (idxOf v)) := by
  rw [writeTail_refuse hpol hlt, decide_eq_true hback, writeUnless_true]

theorem writeTail_stored_of_advance (hpol : s.launch.tailPolicy = .refuse) (hlt : idxOf v < ringCap e s)
    (hon : ringDist (ringCap e s) (ringHead e s) (ringTail e s) ≤ ringDist (ringCap e s) (ringHead e s) (idxOf v)) :
    writeTail e v s = .next (s.setTail e (v &&& maskIdx)) := by
  rw [writeTail_refuse hpol hlt, decide_eq_false hon.not_gt, writeUnless_false]

end TailPolicy

theorem setTail_rx_masked (s : State) (v : Word) :
    s.setTail .rx (v &&& maskIdx) = { s with rdt := v &&& 0x0000FFFF#32 } := by rw [maskIdx_eq]; rfl

theorem setTail_tx_masked (s : State) (v : Word) :
    s.setTail .tx (v &&& maskIdx) = { s with tdt := v &&& 0x0000FFFF#32 } := by rw [maskIdx_eq]; rfl

/-- Settles O18: the tail's rules of the RX ring. -/
theorem rxTailWriteHandsSlotsOver : Obligations.RxTailWriteHandsSlotsOver := by
  intro s v hpol
  refine ⟨decode_write .rdt v (by decide), fun hon hrange => writeTail_refused_of_range hpol hon hrange, fun h => ?_⟩
  rw [← setTail_rx_masked]
  exact ⟨writeTail_stored hpol h, deviceOwns_setTail_iff .rx s v⟩

/-- Settles O19: the tail's rules of the TX ring; of the engine's enable only the tail has changed. -/
theorem txTailWriteHandsSlotsOver : Obligations.TxTailWriteHandsSlotsOver := by
  intro s v hpol
  refine ⟨decode_write .tdt v (by decide), fun hon hrange => writeTail_refused_of_range hpol hon hrange, fun h => ?_⟩
  rw [← setTail_tx_masked]
  refine ⟨writeTail_stored hpol h, deviceOwns_setTail_iff .tx s v, ?_⟩
  rw [txEnabled_iff, engineOn_setTail, ringCap_setTail, ringHead_setTail, ringTail_setTail, idxOf_mask, engineOn_tx,
    idxOf_eq, ne_comm, and_comm (b := _ ≠ 0)]

/-- Settles O20: one rule for both tails. -/
theorem tailRetreatIsRefusedByThePolicy : Obligations.TailRetreatIsRefusedByThePolicy := by
  intro s v hpol
  rw [← setTail_rx_masked, ← setTail_tx_masked]
  exact ⟨fun _ hlt => ⟨writeTail_refused_of_retreat hpol hlt, writeTail_stored_of_advance hpol hlt⟩,
    fun _ hlt => ⟨writeTail_refused_of_retreat hpol hlt, writeTail_stored_of_advance hpol hlt⟩⟩

end Sys2Proof.Proofs

/-! The host's accesses to memory beside the register window, byte by byte: stores, loads and done-bit polls
(40_host_register_ops.md rules R153 to R155). -/

namespace Sys2Proof.Proofs

open Sys2Proof.Machine Sys2Proof.Laws

/-! ### The bytes of a number -/

/-- Byte `k` of a number laid down least significant first. -/
theorem getElem_leBytes {n v k : Nat} (hk : k < (leBytes n v).length) :
    (leBytes n v)[k] = BitVec.ofNat 8 (v / 256 ^ k) := by
  induction n generalizing v k with
  | zero => exact absurd hk (Nat.not_lt_zero k)
  | succ n ih =>
    cases k with
    | zero => simp [leBytes]
    | succ k => simp only [leBytes, List.getElem_cons_succ, ih, Nat.div_div_eq_div_mul, pow_succ']

/-- The digits to base 256 of the number that bytes hold are the bytes, and 0 beyond them. -/
theorem leNat_digit (bs : List Byte) (k : Nat) : BitVec.ofNat 8 (leNat bs / 256 ^ k) = bs.getD k 0 := by
  induction bs generalizing k with
  | nil => simp [leNat]
  | cons b bs ih =>
    have hb := b.isLt
    cases k with
    | zero =>
      apply BitVec.eq_of_toNat_eq
      simp only [leNat, BitVec.toNat_ofNat, pow_zero, Nat.div_one, List.getD_cons_zero]
      omega
    | succ k =>
      have htail : (b.toNat + 256 * leNat bs) / 256 = leNat bs := by omega
      rw [leNat, pow_succ', ← Nat.div_div_eq_div_mul, htail, ih, List.getD_cons_succ]

/-- Byte `k` of a word of 64 bits, as a digit of its number to base 256. -/
theorem extract_byte (v : BitVec 64) (k : Nat) : v.extractLsb' (8 * k) 8 = BitVec.ofNat 8 (v.toNat / 256 ^ k) := by
  apply BitVec.eq_of_toNat_eq
  rw [BitVec.extractLsb'_toNat, Nat.shiftRight_eq_div_pow, pow_mul, BitVec.toNat_ofNat]
  rfl

/-- At most eight bytes put into a word of 64 bits are read back byte by byte, and 0 beyond them. -/
theorem extract_byte_leNat {bs : List Byte} (hlen : bs.length ≤ 8) (k : Nat) :
    (BitVec.ofNat 64 (leNat bs)).extractLsb' (8 * k) 8 = bs.getD k 0 := by
  have hlt : leNat bs < 2 ^ 64 := calc
    leNat bs < 256 ^ bs.length := leNat_lt bs
    _ ≤ 256 ^ 8 := Nat.pow_le_pow_right (by decide) hlen
  rw [extract_byte, BitVec.toNat_ofNat, Nat.mod_eq_of_lt hlt, leNat_digit]

/-! ### Stores -/

/-- A store puts byte `k` of its value at `a + k`. -/
theorem find_store_leBytes (s : State) (a n : Nat) (v : BitVec 64) {k : Nat} (hk : k < n) :
    Memory.find (s.store a (leBytes n v.toNat)).mem (a + k) = some (v.extractLsb' (8 * k) 8) := by
  have hlen : k < (leBytes n v.toNat).length := by rwa [leBytes_length]
  rw [store_mem, find_write_inside _ _ _ _ hlen, getElem_leBytes hlen, extract_byte]

/-- Of a range with a device-owned byte some such byte is found, with its owner. -/
theorem ownedByte_of_owned {s : State} {a n : Nat} (h : ∃ k < n, ownerOf s (a + k) ≠ none) :
    ∃ x o, ownedByte s a n = some (x, o) ∧ ownerOf s x = some o ∧ a ≤ x ∧ x < a + n := by
  have hsome : ownedByte s a n ≠ none := by
    obtain ⟨k, hk, hne⟩ := h
    exact fun hnone => hne (ownedByte_none.1 hnone k hk)
  obtain ⟨⟨x, o⟩, hfound⟩ := Option.ne_none_iff_exists'.1 hsome
  obtain ⟨y, hy, howner⟩ := List.exists_of_findSome?_eq_some hfound
  obtain ⟨k, hk, rfl⟩ := List.mem_map.1 hy
  obtain ⟨o', ho', heq⟩ := Option.map_eq_some_iff.1 howner
  cases heq
  have hlt := List.mem_range.1 hk
  exact ⟨_, _, hfound, ho', by omega, by omega⟩

/-- A host access beside the register window is none of a register. -/
theorem touchesWindow_beside {s : State} {a n : Nat}
    (hwin : a + n ≤ s.launch.regBase.toNat ∨ s.launch.regBase.toNat + 0x20000 ≤ a) : ¬ touchesWindow s a n = true := by
  rw [touchesWindow_iff]
  omega

theorem storeAt_owned {w : Width} {a : Nat} {v : BitVec 64} {s : State} {x : Nat} {o : SlotRef}
    (hwin : a + w.bytes ≤ s.launch.regBase.toNat ∨ s.launch.regBase.toNat + 0x20000 ≤ a)
    (hspace : a + w.bytes ≤ spaceSize) (howned : ownedByte s a w.bytes = some (x, o)) :
    storeAt w a v s = .fault (.ownWrite x o) := by
  rw [storeAt, if_neg (touchesWindow_beside hwin), if_neg hspace.not_gt, howned]

/-- Settles O39: `storeAt_outside` and `storeAt_owned`. -/
theorem hostStoreWritesOrFaults : Obligations.HostStoreWritesOrFaults := by
  intro s w a v hwin hspace
  refine ⟨fun hfree => ⟨_, storeAt_outside hwin hspace hfree, rfl, ?_, fun k hk => find_store_leBytes s _ _ v hk⟩,
    fun howned => ?_⟩
  · have hsame := memSameOutside_store s a.toNat (leBytes w.bytes v.toNat)
    rwa [leBytes_length] at hsame
  · obtain ⟨x, o, hfound, howner, hlo, hhi⟩ := ownedByte_of_owned howned
    exact ⟨x, o, storeAt_owned hwin hspace hfound, howner, hlo, hhi⟩

/-! ### Loads -/

theorem loadAt_outside {w : Width} {a : Nat} {s : State}
    (hwin : a + w.bytes ≤ s.launch.regBase.toNat ∨ s.launch.regBase.toNat + 0x20000 ≤ a)
    (hspace : a + w.bytes ≤ spaceSize) :
    loadAt w a s = .next ((s.gotBytes (loadBytes s a w.bytes)).drawn w.bytes) := by
  rw [loadAt, if_neg (touchesWindow_beside hwin), if_neg hspace.not_gt]

theorem loadBytes_length (s : State) (a n : Nat) : (loadBytes s a n).length = n := by simp [loadBytes]

/-- The status bytes of a ring's descriptors. -/
theorem isStatusOf_iff {e : Engine} {s : State} {x : Nat} :
    isStatusOf e s x = true ↔ ∃ i < ringCap e s, x = descAddr e i s + 12 := by
  rw [isStatusOf, Bool.and_eq_true, Bool.and_eq_true, decide_eq_true_iff, decide_eq_true_iff, decide_eq_true_iff]
  simp only [descAddr, offStatus_eq, config_descSize]
  constructor
  · intro h
    exact ⟨(x - ringBase e s) / 16, by omega, by omega⟩
  · rintro ⟨i, hi, rfl⟩
    omega

/-- A load returns a byte that nobody owns, and a status byte whoever owns it (40_host_register_ops.md rule R153). -/
theorem loadsTrue_of_visible {s : State} {x : Nat}
    (h : ownerOf s x = none ∨ ∃ e i, i < ringCap e s ∧ x = descAddr e i s + 12) : loadsTrue s x = true := by
  rw [loadsTrue, Bool.or_eq_true, isStatusByte, Bool.or_eq_true, isStatusOf_iff, isStatusOf_iff]
  obtain hfree | ⟨e, hstatus⟩ := h
  · exact .inl (by rw [hfree]; rfl)
  · cases e
    · exact .inr (.inl hstatus)
    · exact .inr (.inr hstatus)

theorem loadBytes_of_visible {s : State} {a n k : Nat} {b : Byte} (hk : k < n)
    (hmem : Memory.find s.mem (a + k) = some b) (hsee : loadsTrue s (a + k) = true) :
    (loadBytes s a n).getD k 0 = b := by
  simp [loadBytes, hk, hsee, peek_of_find hmem]

theorem width_bytes_le (w : Width) : w.bytes ≤ 8 := by cases w <;> decide

/-- Settles O40: the bytes loaded are read back from the result one by one. -/
theorem hostLoadReturnsWhatItMaySee : Obligations.HostLoadReturnsWhatItMaySee := by
  intro s w a hwin hspace
  have hlen : (loadBytes s a.toNat w.bytes).length ≤ 8 := by rw [loadBytes_length]; exact width_bytes_le w
  refine ⟨BitVec.ofNat 64 (leNat (loadBytes s a.toNat w.bytes)), _, loadAt_outside hwin hspace, fun k hk _ => ?_,
    fun k hk b hmem hsee => ?_⟩
  · rw [extract_byte_leNat hlen, List.getD_eq_default _ _ (by rwa [loadBytes_length])]
  · rw [extract_byte_leNat hlen]
    exact loadBytes_of_visible hk hmem (loadsTrue_of_visible hsee)

/-! ### Polls -/

/-- Settles O41: the poll of a slot of the ring asks no owner. -/
theorem pollReturnsTheDoneBit : Obligations.PollReturnsTheDoneBit := by
  intro s e i b hslot hspace hmem
  rw [hostPoll, formDescAddr_ok.2 ⟨rfl, hspace⟩]
  simp only [if_pos hslot, offStatus_eq, peek_of_find hmem]
  rfl

end Sys2Proof.Proofs

/-! The TX engine's descriptors (41_tx_engine.md): what they decode to, what sending one does and what stops it, what a
step of the engine runs, and that it depends on the TX side of the state only. -/

namespace Sys2Proof.Proofs

open Sys2Proof.Machine Sys2Proof.Laws

/-! ### Decoding -/

/-- The lengths that may be sent (41_tx_engine.md rule R176). -/
theorem txLenOk_iff {len : LenField} : txLenOk len = true ↔ 1 ≤ len.toNat ∧ len.toNat ≤ 4096 := by
  rw [txLenOk, Bool.and_eq_true, decide_eq_true_iff, decide_eq_true_iff, config_maxTxLen]

theorem txLenOk_false_iff {len : LenField} : txLenOk len = false ↔ len.toNat = 0 ∨ 4096 < len.toNat := by
  rw [← Bool.not_eq_true, txLenOk_iff]
  omega

section DecodeTx

variable {d : BitVec 128}

theorem decode_txd_eopRs (h : d.extractLsb' 88 8 = 0x09) :
    decode (.txd d) = .ok (.txdEopRs (d.extractLsb' 0 64) (d.extractLsb' 64 16)) :=
  (decodeTxd_eq d).trans (if_pos (h.trans cmdEopRs_eq.symm))

theorem decode_txd_eop (h : d.extractLsb' 88 8 = 0x01) :
    decode (.txd d) = .ok (.txdEop (d.extractLsb' 0 64) (d.extractLsb' 64 16)) := by
  have hne : d.extractLsb' 88 8 ≠ cmdEopRs := by rw [h]; decide
  exact (decodeTxd_eq d).trans ((if_neg hne).trans (if_pos (h.trans cmdEop_eq.symm)))

/-- Any other command byte is refused: for the length, else for `EOP`, else for a reserved bit. -/
theorem decode_txd_other (hRs : d.extractLsb' 88 8 ≠ 0x09) (hEop : d.extractLsb' 88 8 ≠ 0x01) : decode (.txd d) =
    if txLenOk (d.extractLsb' 64 16) = false then .error (.txLen (d.extractLsb' 64 16))
    else if (d.extractLsb' 88 8).getLsbD 0 = false then .error .txNoEop
    else .error (.txCmd (d.extractLsb' 88 8)) := by
  rw [← cmdEopRs_eq] at hRs
  rw [← cmdEop_eq] at hEop
  exact (decodeTxd_eq d).trans ((if_neg hRs).trans (if_neg hEop))

end DecodeTx

/-- A TX descriptor decodes to one of the two forms or to nothing. -/
theorem decodeTxd_ok {d : BitVec 128} {i : Instr} (h : decodeTxd d = .ok i) :
    ∃ addr len, i = .txdEopRs addr len ∨ i = .txdEop addr len := by
  replace h := (decodeTxd_eq d).symm.trans h
  split at h
  · cases h; exact ⟨_, _, .inl rfl⟩
  split at h
  · cases h; exact ⟨_, _, .inr rfl⟩
  split at h
  · cases h
  split at h <;> cases h

/-- Settles O27: both forms have `EOP` set and no reserved bit, so a word refused for either is of another command. -/
theorem txDescriptorsDecodeByCommand : Obligations.TxDescriptorsDecodeByCommand := by
  intro d addr len cmd badLen
  have hlen (h : ¬ badLen) : ¬ txLenOk len = false := mt txLenOk_false_iff.1 h
  have hne (p : Byte → Prop) (hp : p cmd) (c : Byte) (hc : ¬ p c) : cmd ≠ c := fun heq => hc (heq ▸ hp)
  refine ⟨decode_txd_eopRs, decode_txd_eop, fun hRs hEop hbad => ?_, fun hgood heop => ?_, fun hgood heop hres => ?_⟩
  · rw [decode_txd_other hRs hEop, if_pos (txLenOk_false_iff.2 hbad)]
  · have hother := hne (·.getLsbD 0 = false) heop
    rw [decode_txd_other (hother _ (by decide)) (hother _ (by decide)), if_neg (hlen hgood), if_pos heop]
  · have hother := hne (· &&& 0xF6 ≠ 0) hres
    rw [decode_txd_other (hother _ (by decide)) (hother _ (by decide)), if_neg (hlen hgood),
      if_neg (by rw [heop]; decide)]

/-! ### What stops an engine's read -/

/-- A search of a range of addresses finds one, if there is one. -/
theorem find?_range_some {p : Nat → Bool} {a n : Nat} (h : ∃ k < n, p (a + k) = true) :
    ∃ x, ((List.range n).map (a + ·)).find? p = some x ∧ p x = true ∧ a ≤ x ∧ x < a + n := by
  obtain ⟨k, hk, hp⟩ := h
  have hmem : a + k ∈ (List.range n).map (a + ·) := List.mem_map_of_mem (List.mem_range.2 hk)
  obtain ⟨x, hx⟩ := Option.isSome_iff_exists.1 (List.find?_isSome.2 ⟨_, hmem, hp⟩)
  obtain ⟨j, hj, rfl⟩ := List.mem_map.1 (List.mem_of_find?_eq_some hx)
  have hlt := List.mem_range.1 hj
  exact ⟨_, hx, List.find?_some hx, by omega, by omega⟩

section Stops

variable {e : Engine} {a n : Nat} {s : State}

/-- An access to a range with a byte outside `DMA_OK` is the fault of one such byte (20_memory.md rule R79). -/
theorem dmaCheck_outside (h : ¬ dmaAll s a n) : ∃ x, dmaCheck e a n s = .error (.fault (.dma x e)) ∧
    dmaAdmits s x = false ∧ a ≤ x ∧ x < a + n := by
  have hout : ∃ k < n, (!dmaAdmits s (a + k)) = true := by simpa [dmaAll] using h
  obtain ⟨x, hfound, hx, hlo, hhi⟩ := find?_range_some (p := fun x => !dmaAdmits s x) hout
  have houtside : dmaOutside s a n = some x := hfound
  exact ⟨x, by rw [dmaCheck, houtside], by simpa using hx, hlo, hhi⟩

theorem dmaRead_outside (h : ¬ dmaAll s a n) : ∃ x, dmaRead e a n s = .error (.fault (.dma x e)) ∧
    dmaAdmits s x = false ∧ a ≤ x ∧ x < a + n := by
  obtain ⟨x, hcheck, hx⟩ := dmaCheck_outside (e := e) h
  exact ⟨x, by rw [dmaRead, hcheck], hx⟩

/-- A read of an admitted range with a byte never written is the fault of one such byte (20_memory.md rule R79). -/
theorem dmaRead_unwritten (hdma : dmaAll s a n) (h : ∃ k < n, Memory.find s.mem (a + k) = none) :
    ∃ x, dmaRead e a n s = .error (.fault (.uninit x e)) ∧ Memory.find s.mem x = none ∧ a ≤ x ∧ x < a + n := by
  have hnone : ∃ k < n, (Memory.find s.mem (a + k)).isNone = true := by simpa using h
  obtain ⟨x, hfound, hx, hlo, hhi⟩ := find?_range_some (p := fun x => (Memory.find s.mem x).isNone) hnone
  have hunwritten : unwritten s a n = some x := hfound
  exact ⟨x, by rw [dmaRead, dmaCheck_ok.2 hdma, hunwritten], by simpa using hx, hlo, hhi⟩

theorem descriptorAt_beyond {i : Nat} (h : spaceSize ≤ descAddr e i s) :
    descriptorAt e i s = .error (.refused (.ringWrap e)) := by
  rw [descriptorAt, formDescAddr, if_pos h]

theorem descriptorAt_outside {i : Nat} (hspace : descAddr e i s < spaceSize)
    (h : ¬ dmaAll s (descAddr e i s) config.descSize) :
    ∃ x, descriptorAt e i s = .error (.fault (.dma x e)) ∧ dmaAdmits s x = false ∧
      descAddr e i s ≤ x ∧ x < descAddr e i s + config.descSize := by
  obtain ⟨x, hcheck, hx⟩ := dmaCheck_outside (e := e) h
  exact ⟨x, by rw [descriptorAt, formDescAddr_ok.2 ⟨rfl, hspace⟩]; simp only [hcheck], hx⟩

end Stops

/-! ### Sending -/

section Sending

variable {addr : Addr} {len : LenField} {s : State}

theorem sendFrame_badLen (h : len.toNat = 0 ∨ 4096 < len.toNat) :
    sendFrame addr len s = .error (.refused (.txLen (ringHead .tx s) len)) := if_pos (txLenOk_false_iff.2 h)

/-- With an admitted length, the frame is what the engine's read of the buffer gives. -/
theorem sendFrame_stop_of_read {x : Stop} (hlo : 1 ≤ len.toNat) (hhi : len.toNat ≤ 4096)
    (h : dmaRead .tx addr.toNat len.toNat s = .error x) : sendFrame addr len s = .error x := by
  have hok : ¬ txLenOk len = false := by rw [txLenOk_iff.2 ⟨hlo, hhi⟩]; decide
  rw [sendFrame, if_neg hok, h]

theorem exec_txdEopRs_stop {x : Stop} (h : sendFrame addr len s = .error x) :
    exec (.txdEopRs addr len) s = x.outcome := by
  rw [exec, execTxdEopRs, h]

theorem exec_txdEop_stop {x : Stop} (h : sendFrame addr len s = .error x) :
    exec (.txdEop addr len) s = x.outcome := by
  rw [exec, execTxdEop, h]

end Sending

/-- What a report with the status `st` and the advance after it change: the frame is in `tx_log`, the status byte is
written and no other byte, the head is the next slot. -/
theorem advanceHead_reported {s t : State} {bs : List Byte} {st : Byte} (hcap : 0 < ringCap .tx s)
    (ht : t = advanceHead .tx (((s.emit bs).store (txStatusAddr s) [st]).drawn 1)) :
    t = { s with mem := t.mem, txLog := s.txLog ++ [bs], draws := t.draws,
                 tdh := BitVec.ofNat 32 ((ringHead .tx s + 1) % ringCap .tx s) } ∧
      memSameOutside (descAddr .tx (ringHead .tx s) s + 12) 1 s t ∧
      Memory.find t.mem (descAddr .tx (ringHead .tx s) s + 12) = some st := by
  rw [advanceHead_eq .tx (((s.emit bs).store (txStatusAddr s) [st]).drawn 1) hcap] at ht
  subst ht
  exact ⟨rfl, memSameOutside_store s (txStatusAddr s) [st], find_write_inside s.mem (txStatusAddr s) [st] 0 Nat.one_pos⟩

theorem advanceHead_emit {s : State} (bs : List Byte) (hcap : 0 < ringCap .tx s) :
    advanceHead .tx (s.emit bs) = { s with txLog := s.txLog ++ [bs],
                                           tdh := BitVec.ofNat 32 ((ringHead .tx s + 1) % ringCap .tx s) } :=
  advanceHead_eq .tx (s.emit bs) hcap

theorem txDoneStatus_done (draw : Byte) : (txDoneStatus draw).getLsbD 0 = true := by
  simp [txDoneStatus, maskDd_eq]

/-- Settles O25: the frame is sent and reported, or sending it stops. -/
theorem txdEopRsSendsAndReports : Obligations.TxdEopRsSendsAndReports := by
  intro s addr len hcap
  refine ⟨?_, fun hlo hhi hhead hdma bs hbs hmem => ?_, fun hbad => exec_txdEopRs_stop (sendFrame_badLen hbad),
    fun hlo hhi hdma => ?_, fun hlo hhi hdma hnone => ?_⟩
  · rintro d rfl rfl hcmd
    exact decode_txd_eopRs hcmd
  · obtain ⟨heq, hmemory, hstatus⟩ := advanceHead_reported (bs := bs) hcap rfl
    exact ⟨_, execTxdEopRs_next.2 ⟨txLenOk_iff.2 ⟨hlo, hhi⟩, hhead, bs, hbs, hdma, hmem, rfl⟩, heq, hmemory, _, hstatus,
      txDoneStatus_done _⟩
  · obtain ⟨x, hread, hx⟩ := dmaRead_outside (e := .tx) hdma
    exact ⟨x, exec_txdEopRs_stop (sendFrame_stop_of_read hlo hhi hread), hx⟩
  · obtain ⟨x, hread, hx⟩ := dmaRead_unwritten (e := .tx) hdma hnone
    exact ⟨x, exec_txdEopRs_stop (sendFrame_stop_of_read hlo hhi hread), hx⟩

/-- Settles O26: the frame is sent and not reported, or sending it stops as for `TXD.EOP.RS`. -/
theorem txdEopSendsAndDoesNotReport : Obligations.TxdEopSendsAndDoesNotReport := by
  intro s addr len hcap
  refine ⟨?_, fun hlo hhi hdma bs hbs hmem => ?_, fun hbad => exec_txdEop_stop (sendFrame_badLen hbad),
    fun hlo hhi hdma => ?_, fun hlo hhi hdma hnone => ?_⟩
  · rintro d rfl rfl hcmd
    exact decode_txd_eop hcmd
  · exact execTxdEop_next.2 ⟨txLenOk_iff.2 ⟨hlo, hhi⟩, bs, hbs, hdma, hmem, (advanceHead_emit bs hcap).symm⟩
  · obtain ⟨x, hread, hx⟩ := dmaRead_outside (e := .tx) hdma
    exact ⟨x, exec_txdEop_stop (sendFrame_stop_of_read hlo hhi hread), hx⟩
  · obtain ⟨x, hread, hx⟩ := dmaRead_unwritten (e := .tx) hdma hnone
    exact ⟨x, exec_txdEop_stop (sendFrame_stop_of_read hlo hhi hread), hx⟩

/-! ### The engine's step -/

theorem txStep_idle {s : State} (h : txEnabled s = false) : txStep s = .next s := by
  rw [txStep, h]; rfl

theorem txStep_stop {s : State} {x : Stop} (hon : txEnabled s = true) (h : fetchTxd s = .error x) :
    txStep s = x.outcome := by
  rw [txStep, if_pos hon, h]

theorem txStep_fetched {s : State} {d : DescWord} (hon : txEnabled s = true) (h : fetchTxd s = .ok d) :
    txStep s = runDecoded (ringHead .tx s) (decodeTxd d) s := by
  rw [txStep, if_pos hon, h]

theorem fetchTxd_stop_of_descriptor {s : State} {x : Stop} (h : descriptorAt .tx (ringHead .tx s) s = .error x) :
    fetchTxd s = .error x := by
  rw [fetchTxd, h]

/-- Where the descriptor at the head may be accessed, the fetch is the engine's read of its 16 bytes. -/
theorem fetchTxd_of_read {s : State} (h : headAdmitted .tx s) : fetchTxd s =
    (dmaRead .tx (descAddr .tx (ringHead .tx s) s) 16 s).map fun bs => BitVec.ofNat 128 (leNat bs) := by
  rw [fetchTxd_eq, descriptorAt_ok.2 ⟨rfl, h⟩]
  simp only
  cases dmaRead .tx (descAddr .tx (ringHead .tx s) s) 16 s <;> rfl

/-- Settles O28: each of the two denies one of the conditions of an enabled step. -/
theorem txEngineStopsAtTheTail : Obligations.TxEngineStopsAtTheTail := by
  intro s h
  refine txStep_idle (Bool.eq_false_iff.2 fun hon => ?_)
  obtain ⟨hen, hne, -⟩ := (txEnabled_iff s).1 hon
  obtain hoff | heq := h
  · exact Bool.false_ne_true (hoff.symm.trans hen)
  · exact hne heq

/-- Settles O29: of the two ways to send a frame, one writes the status byte and the other no byte. -/
theorem txStepWritesOnlyItsStatusByte : Obligations.TxStepWritesOnlyItsStatusByte := by
  intro s t h
  obtain ⟨hoff, rfl⟩ | ⟨hon, bs, hsent⟩ := txStep_sent h
  · exact ⟨rfl, fun _ _ => rfl, fun hon => absurd (hoff.symm.trans hon) Bool.false_ne_true⟩
  · obtain ⟨-, -, hne⟩ := (txEnabled_iff s).1 hon
    have hcap := Nat.pos_of_ne_zero hne
    obtain ht | ⟨-, ht⟩ := hsent
    · rw [advanceHead_emit bs hcap] at ht
      subst ht
      exact ⟨rfl, fun _ _ => rfl, fun _ => ⟨bs, rfl, rfl⟩⟩
    · obtain ⟨heq, hmemory, -⟩ := advanceHead_reported hcap ht
      rw [heq]
      exact ⟨rfl, hmemory, fun _ => ⟨bs, rfl, rfl⟩⟩

/-- Settles O32: the stops of forming the descriptor's address, of the check of its bytes, and of their read. -/
theorem txFetchStopsInOrder : Obligations.TxFetchStopsInOrder := by
  intro s hon
  refine ⟨fun hwrap => ?_, fun hspace hdma => ?_, fun hhead hnone => ?_⟩
  · exact txStep_stop hon (fetchTxd_stop_of_descriptor (descriptorAt_beyond hwrap))
  · obtain ⟨x, hstop, hx⟩ := descriptorAt_outside hspace hdma
    exact ⟨x, txStep_stop hon (fetchTxd_stop_of_descriptor hstop), hx⟩
  · obtain ⟨x, hread, hx⟩ := dmaRead_unwritten (e := .tx) hhead.2 hnone
    have hfetch : fetchTxd s = .error (.fault (.uninit x .tx)) := by
      rw [fetchTxd_of_read hhead]
      exact congrArg (Except.map _) hread
    exact ⟨x, txStep_stop hon hfetch, hx⟩

/-- Settles O46: the fetch does not look at what a turn moves on, and what it reads is what memory holds. -/
theorem stepRunsTheTxDescriptor : Obligations.StepRunsTheTxDescriptor := by
  intro s ts bs hturns hen hne hcap hhead hlen hmem
  have hnext : s.nextTurn = { s with turns := ts, draws := s.draws + 1, rota := s.rota + 1 } := by
    rw [State.nextTurn, hturns]; rfl
  have hon : txEnabled s.nextTurn = true := (txEnabled_iff s).2 ⟨hen, hne, hcap⟩
  have hread : dmaRead .tx (descAddr .tx (ringHead .tx s) s) 16 s.nextTurn = .ok bs :=
    dmaRead_ok.2 ⟨hhead.2, hlen, hmem⟩
  have hfetch : fetchTxd s.nextTurn = .ok (BitVec.ofNat 128 (leNat bs)) :=
    (fetchTxd_of_read (s := s.nextTurn) hhead).trans (congrArg (Except.map _) hread)
  have hstep : step s = runDecoded (ringHead .tx s) (decode (.txd (BitVec.ofNat 128 (leNat bs)))) s.nextTurn := by
    rw [step, hturns]
    exact txStep_fetched hon hfetch
  rw [hstep, ← hnext]
  exact ⟨fun i hi => by rw [hi]; rfl, fun x hx => by rw [hx]; rfl⟩

/-! ### What the engine's step depends on -/

/-- Two states agree on what the TX engine may look at (41_tx_engine.md rule R181). -/
structure SameTxSide (s u : State) : Prop where
  regs : sameTxRegs s u
  mem : u.mem = s.mem
  launch : u.launch = s.launch
  draws : u.draws = s.draws

namespace SameTxSide

variable {s u : State}

theorem ringHead (h : SameTxSide s u) : Machine.ringHead .tx u = Machine.ringHead .tx s := by
  obtain ⟨-, -, -, -, htdh, -⟩ := h.regs
  exact congrArg idxOf htdh

theorem ringCap (h : SameTxSide s u) : Machine.ringCap .tx u = Machine.ringCap .tx s := by
  obtain ⟨-, -, -, htdlen, -⟩ := h.regs
  exact congrArg slotsOf htdlen

theorem txEnabled (h : SameTxSide s u) : Machine.txEnabled u = Machine.txEnabled s := by
  obtain ⟨htctl, -, -, -, -, htdt⟩ := h.regs
  have hon : engineOn .tx u = engineOn .tx s := congrArg (enBit .tx) htctl
  have htail : ringTail .tx u = ringTail .tx s := congrArg idxOf htdt
  rw [Bool.eq_iff_iff, txEnabled_iff, txEnabled_iff, hon, h.ringHead, htail, h.ringCap]

theorem descAddr (h : SameTxSide s u) (i : Nat) : Machine.descAddr .tx i u = Machine.descAddr .tx i s := by
  obtain ⟨-, htdbal, htdbah, -⟩ := h.regs
  simp only [Machine.descAddr, ringBase, htdbal, htdbah]

theorem dmaCheck (h : SameTxSide s u) (e : Engine) (a n : Nat) :
    Machine.dmaCheck e a n u = Machine.dmaCheck e a n s := by
  simp only [Machine.dmaCheck, dmaOutside, dmaAdmits, h.launch]

theorem dmaRead (h : SameTxSide s u) (e : Engine) (a n : Nat) : Machine.dmaRead e a n u = Machine.dmaRead e a n s := by
  simp only [Machine.dmaRead, h.dmaCheck, unwritten, peekBytes, peek, h.mem]

theorem descriptorAt (h : SameTxSide s u) (i : Nat) : Machine.descriptorAt .tx i u = Machine.descriptorAt .tx i s := by
  simp only [Machine.descriptorAt, formDescAddr, h.descAddr, h.dmaCheck]

theorem fetchTxd (h : SameTxSide s u) : Machine.fetchTxd u = Machine.fetchTxd s := by
  simp only [Machine.fetchTxd, h.ringHead, h.descriptorAt, h.dmaRead]

theorem emit (h : SameTxSide s u) (bs : List Byte) : SameTxSide (s.emit bs) (u.emit bs) :=
  ⟨h.regs, h.mem, h.launch, h.draws⟩

theorem store (h : SameTxSide s u) (a : Nat) (bs : List Byte) : SameTxSide (s.store a bs) (u.store a bs) :=
  ⟨h.regs, congrArg (Memory.write · a bs) h.mem, h.launch, h.draws⟩

theorem drawn (h : SameTxSide s u) (n : Nat) : SameTxSide (s.drawn n) (u.drawn n) :=
  ⟨h.regs, h.mem, h.launch, congrArg (· + n) h.draws⟩

theorem advanceHead (h : SameTxSide s u) : SameTxSide (Machine.advanceHead .tx s) (Machine.advanceHead .tx u) := by
  obtain ⟨htctl, htdbal, htdbah, htdlen, -, htdt⟩ := h.regs
  rw [Machine.advanceHead, Machine.advanceHead, h.ringHead, h.ringCap]
  exact ⟨⟨htctl, htdbal, htdbah, htdlen, rfl, htdt⟩, h.mem, h.launch, h.draws⟩

/-- Sending stops in both states for the same reason, or sends the same frame. -/
theorem sendFrame (h : SameTxSide s u) (addr : Addr) (len : LenField) :
    (∃ x, Machine.sendFrame addr len s = .error x ∧ Machine.sendFrame addr len u = .error x) ∨
      ∃ bs, Machine.sendFrame addr len s = .ok (s.emit bs) ∧ Machine.sendFrame addr len u = .ok (u.emit bs) := by
  simp only [Machine.sendFrame, h.ringHead, h.dmaRead]
  split
  · exact .inl ⟨_, rfl, rfl⟩
  split
  · exact .inl ⟨_, rfl, rfl⟩
  · exact .inr ⟨_, rfl, rfl⟩

/-- The report stops in both states for the same reason, or writes the same byte. -/
theorem reportDone (h : SameTxSide s u) :
    (∃ x, Machine.reportDone s = .error x ∧ Machine.reportDone u = .error x) ∨
      ∃ a st, Machine.reportDone s = .ok ((s.store a [st]).drawn 1) ∧
        Machine.reportDone u = .ok ((u.store a [st]).drawn 1) := by
  simp only [Machine.reportDone, dmaWrite, h.ringHead, h.descriptorAt, h.dmaCheck, h.draws]
  split
  · exact .inl ⟨_, rfl, rfl⟩
  · cases Machine.dmaCheck .tx _ _ s with
    | error x => exact .inl ⟨x, rfl, rfl⟩
    | ok => exact .inr ⟨_, _, rfl, rfl⟩

end SameTxSide

/-- Two outcomes, from `s` and from `u`, are the same step of the TX engine: the same stop, or states that agree on the
TX side and have sent the same frames. -/
inductive SameTxOutcome (s u : State) : Result → Result → Prop where
  | next {t t' : State} (fs : List (List Byte)) (hside : SameTxSide t t') (hlog : t.txLog = s.txLog ++ fs)
      (hlog' : t'.txLog = u.txLog ++ fs) : SameTxOutcome s u (.next t) (.next t')
  | fault (f : Fault) : SameTxOutcome s u (.fault f) (.fault f)
  | refused (r : Refusal) : SameTxOutcome s u (.refused r) (.refused r)

theorem SameTxOutcome.stop {s u : State} (x : Stop) : SameTxOutcome s u x.outcome x.outcome := by
  cases x with
  | fault f => exact .fault f
  | refused r => exact .refused r

section SameTx

variable {s u : State} (h : SameTxSide s u)

include h

theorem exec_txdEop_sameTx (addr : Addr) (len : LenField) :
    SameTxOutcome s u (exec (.txdEop addr len) s) (exec (.txdEop addr len) u) := by
  obtain ⟨x, hs, hu⟩ | ⟨bs, hs, hu⟩ := h.sendFrame addr len
  · rw [exec_txdEop_stop hs, exec_txdEop_stop hu]
    exact .stop x
  · simp only [exec, execTxdEop, hs, hu]
    exact .next [bs] (h.emit bs).advanceHead rfl rfl

theorem exec_txdEopRs_sameTx (addr : Addr) (len : LenField) :
    SameTxOutcome s u (exec (.txdEopRs addr len) s) (exec (.txdEopRs addr len) u) := by
  obtain ⟨x, hs, hu⟩ | ⟨bs, hs, hu⟩ := h.sendFrame addr len
  · rw [exec_txdEopRs_stop hs, exec_txdEopRs_stop hu]
    exact .stop x
  · simp only [exec, execTxdEopRs, hs, hu]
    obtain ⟨x, hs', hu'⟩ | ⟨a, st, hs', hu'⟩ := (h.emit bs).reportDone
    · simp only [hs', hu']
      exact .stop x
    · simp only [hs', hu']
      exact .next [bs] (((h.emit bs).store a [st]).drawn 1).advanceHead rfl rfl

/-- The engine's step sees the TX side only: whether it steps, what it fetches, and what the descriptor does. -/
theorem txStep_sameTx : SameTxOutcome s u (txStep s) (txStep u) := by
  simp only [txStep, h.txEnabled, h.fetchTxd, h.ringHead]
  split
  · split
    · exact .stop _
    · next d _ =>
      cases hd : decodeTxd d with
      | error x => exact .refused _
      | ok i =>
        obtain ⟨addr, len, rfl | rfl⟩ := decodeTxd_ok hd
        · exact exec_txdEopRs_sameTx h addr len
        · exact exec_txdEop_sameTx h addr len
  · exact .next [] h (List.append_nil _).symm (List.append_nil _).symm

end SameTx

/-- Settles O33: `txStep_sameTx`, read off for each outcome of the first state. -/
theorem txStepReadsOnlyTheTxSide : Obligations.TxStepReadsOnlyTheTxSide := by
  intro s u hregs hmem hlaunch hdraws
  have hstep : SameTxOutcome s u (txStep s) (txStep u) := txStep_sameTx ⟨hregs, hmem, hlaunch, hdraws⟩
  generalize txStep s = r, txStep u = r' at hstep
  cases hstep with
  | next fs hside hlog hlog' =>
    refine ⟨?_, nofun, nofun⟩
    rintro t ⟨⟩
    exact ⟨_, rfl, hside.regs, hside.mem, hside.launch, hside.draws, fs, hlog, hlog'⟩
  | fault f => exact ⟨nofun, fun _ hf => hf, nofun⟩
  | refused r => exact ⟨nofun, nofun, fun _ hr => hr⟩

end Sys2Proof.Proofs

/-! The RX engine (42_rx_engine.md): what an engine's writes leave and what stops them, what a stored frame leaves, what
a step on an offered frame runs and what stops it, that it depends on the RX side of the state only, and that nothing
else sets the cause. -/

namespace Sys2Proof.Proofs

open Sys2Proof.Machine Sys2Proof.Laws

/-! ### What an engine's writes leave -/

theorem storeAll_append (ws vs : List (Nat × List Byte)) (s : State) :
    storeAll (ws ++ vs) s = storeAll vs (storeAll ws s) := by
  induction ws generalizing s with
  | nil => rfl
  | cons w ws ih => exact ih _

/-- After some writes memory holds the bytes of one that no later one touches. -/
theorem holds_storeAll {ws vs : List (Nat × List Byte)} {w : Nat × List Byte} {s : State}
    (hlater : ∀ v ∈ vs, apart w.1 w.2.length v.1 v.2.length) : holds (storeAll (ws ++ w :: vs) s) w.1 w.2 := by
  intro k hk
  rw [storeAll_append, storeAll, storeAll_outside, store_mem, find_write_inside _ _ _ _ hk]
  intro v hv
  have hv := hlater v hv
  unfold apart at hv
  omega

theorem holds_of_mem_eq {s t : State} {a : Nat} {bs : List Byte} (hmem : t.mem = s.mem) (h : holds s a bs) :
    holds t a bs := fun k hk => hmem ▸ h k hk

/-- A write leaves no byte unwritten that it touches or that was written before. -/
theorem find_write_ne_none {m : List Host.Cell} {a : Nat} {bs : List Byte} {x : Nat}
    (h : (a ≤ x ∧ x < a + bs.length) ∨ Memory.find m x ≠ none) : Memory.find (Memory.write m a bs) x ≠ none := by
  rw [find_write]
  split
  · next hin =>
    rw [ne_eq, List.getElem?_eq_none_iff]
    omega
  · next hout => exact h.resolve_left hout

/-- A byte that one of the writes touches has been written. -/
theorem storeAll_written {ws : List (Nat × List Byte)} {s : State} {x : Nat}
    (h : ∃ w ∈ ws, w.1 ≤ x ∧ x < w.1 + w.2.length) : Memory.find (storeAll ws s).mem x ≠ none := by
  obtain ⟨w, hw, hin⟩ := h
  obtain ⟨before, after, rfl⟩ := List.append_of_mem hw
  rw [storeAll_append, storeAll]
  exact storeAll_keeps (P := fun t => Memory.find t.mem x ≠ none) (find_write_ne_none (.inl hin))
    fun v _ t ht => find_write_ne_none (.inr ht)

/-! ### What stops an engine's writes -/

/-- No write changes what may be accessed: an engine's writes all land, or the first check that fails stops them. -/
theorem dmaWrites_eq (e : Engine) (ws : List (Nat × List Byte)) (s : State) : dmaWrites e ws s =
    (forM ws fun w => dmaCheck e w.1 w.2.length s).map fun _ => storeAll ws s := by
  induction ws generalizing s with
  | nil => rfl
  | cons w ws ih =>
    have hcheck (v : Nat × List Byte) : dmaCheck e v.1 v.2.length (s.store w.1 w.2) = dmaCheck e v.1 v.2.length s := rfl
    simp only [dmaWrites, dmaWrite, List.forM_cons]
    cases dmaCheck e w.1 w.2.length s with
    | error x => rfl
    | ok => simp only [ih, hcheck]; rfl

theorem dmaAll_append {s : State} {a n m : Nat} (h : dmaAll s a n) (h' : dmaAll s (a + n) m) : dmaAll s a (n + m) := by
  intro k hk
  by_cases hn : k < n
  · exact h k hn
  · have hm := h' (k - n) (by omega)
    rwa [show a + n + (k - n) = a + k by omega] at hm

/-- Of two writes side by side that are not both admitted a check fails, whatever comes after them. -/
theorem forM_dmaCheck_outside {e : Engine} {a n : Nat} {bs cs : List Byte} {ws : List (Nat × List Byte)} {s : State}
    (hlen : bs.length + cs.length = n) (h : ¬ dmaAll s a n) :
    ∃ x, forM ((a, bs) :: (a + bs.length, cs) :: ws) (fun w => dmaCheck e w.1 w.2.length s) =
      .error (.fault (.dma x e)) ∧ dmaAdmits s x = false ∧ a ≤ x ∧ x < a + n := by
  subst hlen
  simp only [List.forM_cons]
  by_cases hbs : dmaAll s a bs.length
  · have hcs : ¬ dmaAll s (a + bs.length) cs.length := fun hcs => h (dmaAll_append hbs hcs)
    obtain ⟨x, hcheck, hx, hlo, hhi⟩ := dmaCheck_outside (e := e) hcs
    exact ⟨x, by rw [dmaCheck_ok.2 hbs, hcheck]; rfl, hx, by omega, by omega⟩
  · obtain ⟨x, hcheck, hx, hlo, hhi⟩ := dmaCheck_outside (e := e) hbs
    exact ⟨x, by rw [hcheck]; rfl, hx, hlo, by omega⟩

/-! ### The writes of a stored frame -/

theorem drawBytes_length (s : State) (n : Nat) : (drawBytes s n).length = n := by simp [drawBytes]

section Writes

variable {addr d : Nat} {bs : List Byte} {s : State} (hfit : bs.length ≤ rxBufSize s)

include hfit

/-- Every write of a stored frame lies in the buffer or in the second half of the descriptor. -/
theorem rxWrites_within : ∀ w ∈ rxWrites addr d bs s,
    (addr ≤ w.1 ∧ w.1 + w.2.length ≤ addr + rxBufSize s) ∨ (d + 8 ≤ w.1 ∧ w.1 + w.2.length ≤ d + 16) := by
  simp only [rxWrites_eq, List.forall_mem_cons, drawBytes_length, leBytes_length, List.length_singleton]
  refine ⟨.inl ?_, .inl ?_, .inr ?_, .inr ?_, .inr ?_, .inr ?_, .inr ?_, nofun⟩ <;> omega

/-- Every byte of the buffer and of the second half of the descriptor is in one of the writes. -/
theorem rxWrites_cover {x : Nat} (hx : (addr ≤ x ∧ x < addr + rxBufSize s) ∨ (d + 8 ≤ x ∧ x < d + 16)) :
    ∃ w ∈ rxWrites addr d bs s, w.1 ≤ x ∧ x < w.1 + w.2.length := by
  simp only [rxWrites_eq, List.exists_mem_cons_iff, List.not_mem_nil, drawBytes_length, leBytes_length,
    List.length_singleton, false_and, exists_false, or_false]
  omega

theorem dmaAll_rxWrites (hbuf : dmaAll s addr (rxBufSize s)) (hd : dmaAll s d 16) :
    ∀ w ∈ rxWrites addr d bs s, dmaAll s w.1 w.2.length := by
  intro w hw k hk
  obtain hin | hin := rxWrites_within hfit w hw
  · have hbyte := hbuf (w.1 - addr + k) (by omega)
    rwa [show addr + (w.1 - addr + k) = w.1 + k by omega] at hbyte
  · have hbyte := hd (w.1 - d + k) (by omega)
    rwa [show d + (w.1 - d + k) = w.1 + k by omega] at hbyte

/-- The bytes of the frame stand in the buffer where no field of the descriptor is written over them. -/
theorem holds_rxWrites_frame (hapart : apart addr (rxBufSize s) (d + 8) 8) :
    holds (storeAll (rxWrites addr d bs s) s) addr bs := by
  rw [rxWrites_eq]
  refine holds_storeAll (ws := []) (w := (addr, bs)) ?_
  unfold apart at hapart ⊢
  simp only [List.forall_mem_cons, drawBytes_length, leBytes_length, List.length_singleton]
  refine ⟨?_, ?_, ?_, ?_, ?_, ?_, nofun⟩ <;> omega

end Writes

section Fields

variable (addr d : Nat) (bs : List Byte) (s : State)

/-- Wherever the buffer lies, the descriptor's fields are what is written to them: the length, `errors`, the status. -/
theorem holds_rxWrites_length : holds (storeAll (rxWrites addr d bs s) s) (d + 8)
    [BitVec.ofNat 8 bs.length, BitVec.ofNat 8 (bs.length / 256)] := by
  rw [rxWrites_eq]
  refine holds_storeAll (ws := [_, _]) (w := (d + 8, leBytes 2 bs.length)) ?_
  simp only [List.forall_mem_cons, apart, leBytes_length, List.length_singleton]
  refine ⟨?_, ?_, ?_, ?_, nofun⟩ <;> omega

theorem find_rxWrites_errors : Memory.find (storeAll (rxWrites addr d bs s) s).mem (d + 13) = some 0 := by
  rw [rxWrites_eq]
  refine holds_storeAll (ws := [_, _, _, _]) (w := (d + 13, [0])) ?_ 0 Nat.one_pos
  simp only [List.forall_mem_cons, apart, leBytes_length, List.length_singleton]
  refine ⟨?_, ?_, nofun⟩ <;> omega

theorem find_rxWrites_status : ∃ draw, Memory.find (storeAll (rxWrites addr d bs s) s).mem (d + 12) =
    some (rxDoneStatus draw) := by
  rw [rxWrites_eq]
  exact ⟨_, holds_storeAll (ws := [_, _, _, _, _, _]) (vs := []) (w := (d + 12, [_])) nofun 0 Nat.one_pos⟩

end Fields

/-! ### Storing a frame -/

theorem storedBytes_eq (o : Offer) (s : State) : storedBytes o s = receivedBytes o s := rfl

theorem rxTooLong_false_iff {o : Offer} {s : State} :
    rxTooLong o s = false ↔ (receivedBytes o s).length ≤ rxBufSize s := by
  rw [rxTooLong, decide_eq_false_iff_not, not_lt, storedBytes_eq]

theorem rxDoneStatus_done (draw : Byte) :
    (rxDoneStatus draw).getLsbD 0 = true ∧ (rxDoneStatus draw).getLsbD 1 = true := by
  simp [rxDoneStatus, maskDdEop_eq]

/-- The checks of storing a frame: the descriptor at the head, then every write. -/
def storeCheck (addr : Nat) (bs : List Byte) (s : State) : Except Stop Unit :=
  (descriptorAt .rx (ringHead .rx s) s).bind fun d =>
    forM (rxWrites addr d bs s) fun w => dmaCheck .rx w.1 w.2.length s

/-- With a frame on offer that fits, `RXD` stores it unless a check fails. -/
theorem exec_rxd_offering {addr : Addr} {o : Offer} {s : State} (hfit : rxTooLong o s = false) :
    exec (.rxd addr) (s.offering o) =
      match storeCheck addr.toNat (storedBytes o s) (s.offering o) with
      | .error x => x.outcome
      | .ok () => .next (rxDone addr.toNat (storedBytes o s) (s.offering o)) := by
  have hfit' : rxTooLong o (s.offering o) = false := hfit
  have hstored : storedBytes o (s.offering o) = storedBytes o s := rfl
  simp only [exec, execRxd, offering_offer, hfit', hstored, storeFrame, storeCheck, dmaWrites_eq]
  cases hdesc : descriptorAt .rx (ringHead .rx (s.offering o)) (s.offering o) with
  | error x => rfl
  | ok d =>
    obtain ⟨rfl, -⟩ := descriptorAt_ok.1 hdesc
    simp only [Except.bind]
    cases forM (rxWrites _ _ _ (s.offering o)) fun w => dmaCheck .rx w.1 w.2.length (s.offering o) <;> rfl

/-- A buffer with a byte outside `DMA_OK` stops storing a frame, before its descriptor is written. -/
theorem storeCheck_outside {addr : Nat} {bs : List Byte} {s : State} (hfit : bs.length ≤ rxBufSize s)
    (hhead : headAdmitted .rx s) (hbuf : ¬ dmaAll s addr (rxBufSize s)) :
    ∃ x, storeCheck addr bs s = .error (.fault (.dma x .rx)) ∧ dmaAdmits s x = false ∧
      addr ≤ x ∧ x < addr + rxBufSize s := by
  have hsize : bs.length + (drawBytes s (rxBufSize s - bs.length)).length = rxBufSize s := by
    rw [drawBytes_length]; omega
  rw [storeCheck, descriptorAt_ok.2 ⟨rfl, hhead⟩, Except.bind, rxWrites_eq]
  exact forM_dmaCheck_outside hsize hbuf

theorem rxDone_mem (addr : Nat) (bs : List Byte) (s : State) : (rxDone addr bs s).mem =
    (storeAll (rxWrites addr (descAddr .rx (ringHead .rx s) s) bs s) s).mem := by
  rw [rxDone_eq]

/-- A stored frame changes no byte outside the buffer and the second half of the descriptor. -/
theorem find_rxDone_outside {addr : Nat} {bs : List Byte} {s : State} {x : Nat} (hfit : bs.length ≤ rxBufSize s)
    (hbuf : x < addr ∨ addr + rxBufSize s ≤ x)
    (hdesc : x < descAddr .rx (ringHead .rx s) s + 8 ∨ descAddr .rx (ringHead .rx s) s + 16 ≤ x) :
    Memory.find (rxDone addr bs s).mem x = Memory.find s.mem x := by
  rw [rxDone_mem]
  refine storeAll_outside fun w hw => ?_
  have hin := rxWrites_within hfit w hw
  omega

/-- Every byte of the buffer and of the second half of the descriptor is written with a frame. -/
theorem find_rxDone_written {addr : Nat} {bs : List Byte} {s : State} {x : Nat} (hfit : bs.length ≤ rxBufSize s)
    (hx : (addr ≤ x ∧ x < addr + rxBufSize s) ∨
      (descAddr .rx (ringHead .rx s) s + 8 ≤ x ∧ x < descAddr .rx (ringHead .rx s) s + 16)) :
    Memory.find (rxDone addr bs s).mem x ≠ none := by
  rw [rxDone_mem]
  exact storeAll_written (rxWrites_cover hfit hx)

/-- Settles O34: what `RXD` writes, read back field by field. -/
theorem rxdStoresAndReports : Obligations.RxdStoresAndReports := by
  intro s addr o hcap ho hfit hhead hbuf
  have hmem := rxDone_mem addr.toNat (receivedBytes o s) s
  refine ⟨rxDone addr.toNat (receivedBytes o s) s,
    (execRxd_next ho).2 ⟨rxTooLong_false_iff.2 hfit, hhead, dmaAll_rxWrites hfit hbuf hhead.2, rfl⟩, ?_,
    fun x hx hx' => find_rxDone_outside hfit hx hx',
    fun hapart => holds_of_mem_eq hmem (holds_rxWrites_frame hfit hapart),
    fun k hk => find_rxDone_written hfit (.inl ⟨by omega, by omega⟩),
    holds_of_mem_eq hmem (holds_rxWrites_length _ _ _ s), ?_, ?_,
    fun k hk => find_rxDone_written hfit (.inr ⟨by omega, by omega⟩)⟩
  · rw [rxDone_eq, advanced_head .rx s hcap]
  · obtain ⟨draw, hstatus⟩ := find_rxWrites_status addr.toNat (descAddr .rx (ringHead .rx s) s) (receivedBytes o s) s
    exact ⟨_, hmem ▸ hstatus, rxDoneStatus_done draw⟩
  · rw [hmem]
    exact find_rxWrites_errors _ _ _ s

/-! ### The address field at the head -/

theorem holds_peekBytes {s : State} {a n : Nat} (h : ∀ k < n, Memory.find s.mem (a + k) ≠ none) :
    holds s a (peekBytes s a n) := by
  intro k hk
  rw [peekBytes_length] at hk
  obtain ⟨b, hb⟩ := Option.ne_none_iff_exists'.1 (h k hk)
  simp [peekBytes, peek_of_find hb, hb]

/-- The address field is part of the descriptor. -/
theorem dmaAll_addrField {s : State} (h : headAdmitted .rx s) : dmaAll s (descAddr .rx (ringHead .rx s) s) 8 :=
  fun k hk => h.2 k (by rw [config_descSize]; omega)

theorem fetchRxd_stop_of_descriptor {s : State} {x : Stop} (h : descriptorAt .rx (ringHead .rx s) s = .error x) :
    fetchRxd s = .error x := by
  rw [fetchRxd, h]

/-- Where the descriptor at the head may be accessed, the fetch is the engine's read of its first 8 bytes. -/
theorem fetchRxd_of_read {s : State} (h : headAdmitted .rx s) : fetchRxd s =
    (dmaRead .rx (descAddr .rx (ringHead .rx s) s) 8 s).map fun bs => inField (BitVec.ofNat 64 (leNat bs)) 0 := by
  rw [fetchRxd_eq, descriptorAt_ok.2 ⟨rfl, h⟩]
  simp only
  cases dmaRead .rx (descAddr .rx (ringHead .rx s) s) 8 s <;> rfl

/-- A fetch that succeeds has read eight bytes that memory holds. -/
theorem fetchRxd_ok {s : State} {d : DescWord} : fetchRxd s = .ok d ↔ headAdmitted .rx s ∧
    ∃ bs, bs.length = 8 ∧ holds s (descAddr .rx (ringHead .rx s) s) bs ∧ d = inField (BitVec.ofNat 64 (leNat bs)) 0 := by
  constructor
  · intro h
    cases hdesc : descriptorAt .rx (ringHead .rx s) s with
    | error x => rw [fetchRxd_stop_of_descriptor hdesc] at h; cases h
    | ok d' =>
      have hhead : headAdmitted .rx s := (descriptorAt_ok.1 hdesc).2
      rw [fetchRxd_of_read hhead] at h
      cases hread : dmaRead .rx (descAddr .rx (ringHead .rx s) s) 8 s with
      | error x => rw [hread] at h; cases h
      | ok bs =>
        rw [hread] at h
        obtain ⟨-, hlen, hmem⟩ := dmaRead_ok.1 hread
        exact ⟨hhead, bs, hlen, hmem, (Except.ok.inj h).symm⟩
  · rintro ⟨hhead, bs, hlen, hmem, rfl⟩
    rw [fetchRxd_of_read hhead, dmaRead_ok.2 ⟨dmaAll_addrField hhead, hlen, hmem⟩]
    rfl

/-- What is fetched is the address of the buffer of the slot at the head. -/
theorem toNat_fetchRxd {s : State} {d : DescWord} (h : fetchRxd s = .ok d) :
    (d.extractLsb' 0 64).toNat = bufAddr .rx (ringHead .rx s) s := by
  obtain ⟨-, bs, hlen, hmem, rfl⟩ := fetchRxd_ok.1 h
  have hpeek := peekBytes_of_holds hmem
  have hlt : leNat bs < 2 ^ 64 := (leNat_lt bs).trans_eq (by rw [hlen]; rfl)
  rw [hlen] at hpeek
  rw [extract_inField _ (by decide), BitVec.toNat_ofNat, Nat.mod_eq_of_lt hlt, bufAddr_eq, hpeek]

/-! ### The engine's step -/

theorem rxEmpty_false_iff {s : State} :
    rxEmpty s = false ↔ ringHead .rx s ≠ ringTail .rx s ∧ ringCap .rx s ≠ 0 := by
  simp [rxEmpty]

section Ready

variable {o : Offer} {s : State} (hon : s.rctl.getLsbD 1 = true)

include hon

theorem rxStep_long (hlong : rxBufSize s < (receivedBytes o s).length) :
    rxStep o s = .refused (.rxLong (receivedBytes o s).length) := by
  rw [rxStep, engineOn_rx, hon, if_neg (by decide)]
  exact if_pos (decide_eq_true hlong)

variable (hfit : (receivedBytes o s).length ≤ rxBufSize s)

include hfit

/-- On a frame that fits, an enabled receiver asks for a descriptor and runs it (42_rx_engine.md rule R190). -/
theorem rxStep_fits : rxStep o s = if rxEmpty s then .next s else
    match fetchRxd s with
    | .error x => x.outcome
    | .ok d => runDecoded (ringHead .rx s) (decodeRxd d) (s.offering o) := by
  rw [rxStep, engineOn_rx, hon, if_neg (by decide), rxTooLong_false_iff.2 hfit]
  rfl

theorem rxStep_empty (hempty : ringHead .rx s = ringTail .rx s) : rxStep o s = .next s := by
  have hnone : rxEmpty s = true := by simp [rxEmpty, hempty]
  rw [rxStep_fits hon hfit, if_pos hnone]

variable (hne : ringHead .rx s ≠ ringTail .rx s) (hcap : ringCap .rx s ≠ 0)

include hne hcap

theorem rxStep_stop {x : Stop} (h : fetchRxd s = .error x) : rxStep o s = x.outcome := by
  rw [rxStep_fits hon hfit, rxEmpty_false_iff.2 ⟨hne, hcap⟩, h]
  rfl

theorem rxStep_fetched {d : DescWord} (h : fetchRxd s = .ok d) :
    rxStep o s = exec (.rxd (d.extractLsb' 0 64)) (s.offering o) := by
  rw [rxStep_fits hon hfit, rxEmpty_false_iff.2 ⟨hne, hcap⟩, h]
  rfl

end Ready

/-- Settles O36: the three answers in the order in which the engine asks for them. -/
theorem rxDropsAndRefusesInOrder : Obligations.RxDropsAndRefusesInOrder := by
  intro s o
  exact ⟨fun hoff => if_pos hoff, rxStep_long, rxStep_empty⟩

/-- Settles O35: the stops of forming the descriptor's address, of the check of its bytes, of the read of its address
field, and of the writes to the buffer. -/
theorem rxStepStopsInOrder : Obligations.RxStepStopsInOrder := by
  intro s o hon hfit hne hcap
  have hstops {x : Stop} : fetchRxd s = .error x → rxStep o s = x.outcome := rxStep_stop hon hfit hne hcap
  refine ⟨fun hwrap => ?_, fun hspace hdma => ?_, fun hhead hnone => ?_, fun hhead hwritten hbuf => ?_⟩
  · exact hstops (fetchRxd_stop_of_descriptor (descriptorAt_beyond hwrap))
  · obtain ⟨x, hstop, hx⟩ := descriptorAt_outside hspace hdma
    exact ⟨x, hstops (fetchRxd_stop_of_descriptor hstop), hx⟩
  · obtain ⟨x, hread, hx⟩ := dmaRead_unwritten (e := .rx) (dmaAll_addrField hhead) hnone
    have hfetch : fetchRxd s = .error (.fault (.uninit x .rx)) := by
      rw [fetchRxd_of_read hhead, hread]; rfl
    exact ⟨x, hstops hfetch, hx⟩
  · obtain ⟨d, hfetch⟩ : ∃ d, fetchRxd s = .ok d :=
      ⟨_, fetchRxd_ok.2 ⟨hhead, _, peekBytes_length _ _ _, holds_peekBytes hwritten, rfl⟩⟩
    rw [← toNat_fetchRxd hfetch] at hbuf ⊢
    obtain ⟨x, hstop, hx⟩ := storeCheck_outside (s := s.offering o) hfit hhead hbuf
    refine ⟨x, ?_, hx⟩
    rw [rxStep_fetched hon hfit hne hcap hfetch, exec_rxd_offering (rxTooLong_false_iff.2 hfit), storedBytes_eq, hstop]
    rfl

/-- Settles O47: the fetch does not look at what a turn moves on, and what it reads is what memory holds. -/
theorem stepRunsTheRxDescriptor : Obligations.StepRunsTheRxDescriptor := by
  intro s ts o bs hturns hon hfit hne hcap hhead hlen hmem
  have hfetch : fetchRxd s.nextTurn = .ok (inField (BitVec.ofNat 64 (leNat bs)) 0) :=
    fetchRxd_ok.2 ⟨hhead, bs, hlen, hmem, rfl⟩
  have hstep : step s = rxStep o s.nextTurn := by rw [step, hturns]; rfl
  rw [hstep, rxStep_fetched (s := s.nextTurn) hon hfit hne hcap hfetch, extract_inField _ (by decide), State.offering,
    State.nextTurn, hturns]
  rfl

/-- Settles O37: a stored frame changes memory by `find_rxDone_outside`, at the address that was fetched. -/
theorem rxStepWritesOnlyItsBufferAndDescriptor : Obligations.RxStepWritesOnlyItsBufferAndDescriptor := by
  intro s t o hoffer h
  obtain rfl | ⟨d, hfetch, hx⟩ := rxStep_next h
  · exact ⟨rfl, fun _ _ _ => rfl⟩
  · obtain ⟨hfit, -, -, rfl⟩ := (execRxd_next (offering_offer s o)).1 hx
    rw [rxTooLong_false_iff] at hfit
    rw [← toNat_fetchRxd hfetch]
    refine ⟨?_, fun x hbuf hdesc => find_rxDone_outside (s := s.offering o) hfit hbuf hdesc⟩
    rw [rxDone_eq, State.offering, ← hoffer]

/-! ### What the engine's step depends on -/

/-- What the RX engine may look at (42_rx_engine.md rule R200), in a state whose other fields are those of reset. -/
def rxSide (s : State) : State :=
  { State.reset with
    rctl := s.rctl, rdbal := s.rdbal, rdbah := s.rdbah, rdlen := s.rdlen, rdh := s.rdh, rdt := s.rdt,
    mem := s.mem, launch := s.launch, draws := s.draws }

theorem rxSide_eq_iff {s u : State} : rxSide u = rxSide s ↔
    sameRxRegs s u ∧ u.mem = s.mem ∧ u.launch = s.launch ∧ u.draws = s.draws := by
  simp only [rxSide, sameRxRegs, State.mk.injEq, true_and, and_true, and_assoc]

/-- What depends on the RX side only is the same in two states with the same RX side. -/
theorem eq_of_rxSide {α : Type} {f : State → α} {s u : State} (h : rxSide u = rxSide s)
    (hf : ∀ t, f t = f (rxSide t)) : f u = f s := by rw [hf u, h, ← hf s]

/-- Two outcomes are the same stop, or next states that are related. -/
inductive SameOutcome (R : State → State → Prop) : Result → Result → Prop where
  | next {t t' : State} (h : R t t') : SameOutcome R (.next t) (.next t')
  | fault (f : Fault) : SameOutcome R (.fault f) (.fault f)
  | refused (r : Refusal) : SameOutcome R (.refused r) (.refused r)

theorem SameOutcome.stop {R : State → State → Prop} (x : Stop) : SameOutcome R x.outcome x.outcome := by
  cases x with
  | fault f => exact .fault f
  | refused r => exact .refused r

/-- What a step on an offered frame has in common in two states: the RX side after it, and whether it leaves the cause
or sets it. -/
def SameRxStep (s u t t' : State) : Prop :=
  rxSide t' = rxSide t ∧ (t.rxdw = s.rxdw ∧ t'.rxdw = u.rxdw ∨ t.rxdw = true ∧ t'.rxdw = true)

section SameRx

variable {s u : State} (h : rxSide u = rxSide s)

include h

theorem exec_rxd_sameRx (addr : Addr) {o : Offer} (hfit : rxTooLong o s = false) :
    SameOutcome (SameRxStep s u) (exec (.rxd addr) (s.offering o)) (exec (.rxd addr) (u.offering o)) := by
  have hfit' : rxTooLong o u = false := (eq_of_rxSide (f := rxTooLong o) h fun _ => rfl).trans hfit
  have hstored : storedBytes o u = storedBytes o s := eq_of_rxSide h fun _ => rfl
  have hcheck (bs : List Byte) : storeCheck addr.toNat bs (u.offering o) = storeCheck addr.toNat bs (s.offering o) :=
    eq_of_rxSide (f := storeCheck addr.toNat bs ∘ (State.offering · o)) h fun _ => rfl
  have hdone (bs : List Byte) : rxSide (rxDone addr.toNat bs (u.offering o)) =
      rxSide (rxDone addr.toNat bs (s.offering o)) :=
    eq_of_rxSide (f := rxSide ∘ rxDone addr.toNat bs ∘ (State.offering · o)) h fun _ => rfl
  rw [exec_rxd_offering hfit, exec_rxd_offering hfit', hstored, hcheck]
  split
  · exact .stop _
  · exact .next ⟨hdone _, .inr ⟨rfl, rfl⟩⟩

/-- The engine's step sees the RX side only: whether it takes the frame, what it fetches, and what it stores. -/
theorem rxStep_sameRx (o : Offer) : SameOutcome (SameRxStep s u) (rxStep o s) (rxStep o u) := by
  have hon : engineOn .rx u = engineOn .rx s := eq_of_rxSide h fun _ => rfl
  have hlong : rxTooLong o u = rxTooLong o s := eq_of_rxSide h fun _ => rfl
  have hstored : storedBytes o u = storedBytes o s := eq_of_rxSide h fun _ => rfl
  have hempty : rxEmpty u = rxEmpty s := eq_of_rxSide h fun _ => rfl
  have hfetch : fetchRxd u = fetchRxd s := eq_of_rxSide h fun _ => rfl
  have hdrop : SameOutcome (SameRxStep s u) (.next s) (.next u) := .next ⟨h, .inl ⟨rfl, rfl⟩⟩
  simp only [rxStep, hon, hlong, hstored, hempty, hfetch]
  split
  · exact hdrop
  split
  · exact .refused _
  · next hfit =>
    split
    · exact hdrop
    split
    · exact .stop _
    · next d _ => exact exec_rxd_sameRx h (d.extractLsb' 0 64) (Bool.eq_false_iff.2 hfit)

end SameRx

/-- Settles O38: `rxStep_sameRx`, read off for each outcome of the first state. -/
theorem rxStepReadsOnlyTheRxSide : Obligations.RxStepReadsOnlyTheRxSide := by
  intro s u o hregs hmem hlaunch hdraws
  have hstep := rxStep_sameRx (rxSide_eq_iff.2 ⟨hregs, hmem, hlaunch, hdraws⟩) o
  generalize rxStep o s = r, rxStep o u = r' at hstep
  cases hstep with
  | next hsame =>
    obtain ⟨hside, hcause⟩ := hsame
    obtain ⟨hregs', hmem', hlaunch', hdraws'⟩ := rxSide_eq_iff.1 hside
    refine ⟨?_, nofun, nofun⟩
    rintro t ⟨⟩
    exact ⟨_, rfl, hregs', hmem', hlaunch', hdraws', hcause⟩
  | fault f => exact ⟨nofun, fun _ hf => hf, nofun⟩
  | refused r => exact ⟨nofun, nofun, fun _ hr => hr⟩

/-! ### The cause -/

/-- An operation other than `RXD` leaves the cause or clears it. -/
theorem exec_rxdw_of_ne_rxd {i : Instr} {s t : State} (hi : ∀ addr, i ≠ .rxd addr) (h : exec i s = .next t) :
    t.rxdw = s.rxdw ∨ t.rxdw = false := by
  cases i <;> simp only [exec] at h
  case wrCtrl v =>
    obtain ⟨-, rfl⟩ | ⟨-, rfl⟩ := execWrCtrl_next h
    · exact .inl rfl
    · exact .inr rfl
  case rdIcr => rw [execRdIcr_next h]; exact .inr rfl
  case wrIcr v =>
    rw [execWrIcr_next h]
    split
    · exact .inr rfl
    · exact .inl rfl
  case wrRctl v => rw [(execWrRctl_next h).1]; exact .inl rfl
  case wrTctl v => rw [(execWrTctl_next h).1]; exact .inl rfl
  case wrRdt | wrTdt => rw [(writeTail_next h).1]; exact .inl rfl
  case txdEopRs a l => obtain ⟨-, -, bs, -, -, -, rfl⟩ := execTxdEopRs_next.1 h; exact .inl rfl
  case txdEop a l => obtain ⟨-, bs, -, -, -, rfl⟩ := execTxdEop_next.1 h; exact .inl rfl
  case rxd a => exact absurd rfl (hi a)
  case wrIms | wrImc | wrMta | wrRal0 | wrRah0 | rdImc => rw [← Host.Outcome.next.inj h]; exact .inl rfl
  case wrRdbal | wrRdbah | wrRdlen | wrRdh | wrTdbal | wrTdbah | wrTdlen | wrTdh =>
    rw [(writeUnless_next.1 h).2]; exact .inl rfl
  all_goals rw [readReg_next.1 h]; exact .inl rfl

/-- Settles O11: `exec_rxdw_of_ne_rxd`, and a stored frame ends with the cause set. -/
theorem causeIsSetOnlyByAStoredFrame : Obligations.CauseIsSetOnlyByAStoredFrame := by
  refine ⟨fun i s t h hclear hset => ?_, fun addr s t o ho h => ?_⟩
  · by_contra hno
    obtain hsame | hfalse := exec_rxdw_of_ne_rxd (not_exists.1 hno) h
    · exact Bool.false_ne_true (hclear.symm.trans (hsame.symm.trans hset))
    · exact Bool.false_ne_true (hfalse.symm.trans hset)
  · obtain ⟨-, -, -, rfl⟩ := (execRxd_next ho).1 h
    rfl

end Sys2Proof.Proofs

/-! The driver's sequences (43_driver_sequences.md): what the register writes that end `INIT` leave of the block, and
`TRANSMIT_ONE` at its poll of a slot the device has not done with. -/

namespace Sys2Proof.Proofs

open Sys2Proof.Machine Sys2Proof.Laws

/-! ### Register writes of a sequence -/

/-- A line that writes a register is that register's operation. -/
theorem driverOp_wrLine (r : Reg) (v : Word) (s : State) : driverOp (wrLine r v) s = exec (writeOp r v) s :=
  congrArg (runDecoded 0 · s) (decodeMmio_mmioWrite r v)

/-- After a register write that completes, a sequence goes on with its other lines. -/
theorem runLines_wrLine {r : Reg} {v : Word} {ops : List DriverOp} {s t : State} {res : Result}
    (h : exec (writeOp r v) s = .next t) (hrest : runLines ops t = res) : runLines (wrLine r v :: ops) s = res := by
  rw [runLines, driverOp_wrLine, h, ← hrest]

/-! ### Programming a ring -/

/-- The writes that program a ring: its base, its byte size, its head 0 and its tail (43_driver_sequences.md rule
R211). -/
def ringWrites (e : Engine) (ring : Addr) (len tail : Word) : List DriverOp :=
  match e with
  | .tx => [wrLine .tdbal (ring.extractLsb' 0 32), wrLine .tdbah (ring.extractLsb' 32 32), wrLine .tdlen len,
      wrLine .tdh 0, wrLine .tdt tail]
  | .rx => [wrLine .rdbal (ring.extractLsb' 0 32), wrLine .rdbah (ring.extractLsb' 32 32), wrLine .rdlen len,
      wrLine .rdh 0, wrLine .rdt tail]

/-- The state that `ringWrites` leaves. -/
def programRing (e : Engine) (ring : Addr) (len tail : Word) (s : State) : State :=
  match e with
  | .tx => { s with
      tdbal := ring.extractLsb' 0 32 &&& maskBaseLo, tdbah := ring.extractLsb' 32 32, tdlen := len &&& maskLen128,
      tdh := 0, tdt := tail &&& maskIdx }
  | .rx => { s with
      rdbal := ring.extractLsb' 0 32 &&& maskBaseLo, rdbah := ring.extractLsb' 32 32, rdlen := len &&& maskLen128,
      rdh := 0, rdt := tail &&& maskIdx }

section ProgramRing

variable (e e' : Engine) (ring : Addr) (len tail : Word) (s : State)

@[simp] theorem programRing_launch : (programRing e ring len tail s).launch = s.launch := by cases e <;> rfl

@[simp] theorem engineOn_programRing : engineOn e' (programRing e ring len tail s) = engineOn e' s := by
  cases e <;> cases e' <;> rfl

theorem ringCap_programRing : ringCap e (programRing e ring len tail s) = slotsOf len := by
  cases e <;> exact slotsOf_mask len

theorem ringHead_programRing : ringHead e (programRing e ring len tail s) = 0 := by cases e <;> rfl

theorem ringTail_programRing : ringTail e (programRing e ring len tail s) = idxOf tail := by
  cases e <;> exact idxOf_mask tail

/-- While its engine is disabled and under the default tail policy, every write of a ring's registers is accepted. -/
theorem runLines_ringWrites {e : Engine} {s : State} (hpol : s.launch.tailPolicy = .interval)
    (hoff : engineOn e s = false) (ops : List DriverOp) :
    runLines (ringWrites e ring len tail ++ ops) s = runLines ops (programRing e ring len tail s) := by
  cases e with
  | tx | rx =>
    exact runLines_wrLine (writeUnless_unlocked hoff) <| runLines_wrLine (writeUnless_unlocked hoff) <|
      runLines_wrLine (writeUnless_unlocked hoff) <| runLines_wrLine (writeUnless_unlocked hoff) <|
      runLines_wrLine (writeTail_stored hpol (.inl hoff)) rfl

end ProgramRing

/-- The base formed from the two halves of an aligned address is the address (10_state.md rule R25). -/
theorem baseOf_halves {ring : Addr} (halign : ring.extractLsb' 0 4 = 0) :
    baseOf (ring.extractLsb' 32 32) (ring.extractLsb' 0 32 &&& maskBaseLo) = ring.toNat := by
  have hlow (i : Nat) (hi : i < 4) : ring.getLsbD i = false := by
    simpa [hi] using congrArg (BitVec.getLsbD · i) halign
  have hmask : ∀ i < 32, maskBaseLo.getLsbD i = decide (4 ≤ i) := by decide
  have hkept : ring.extractLsb' 0 32 &&& maskBaseLo = ring.extractLsb' 0 32 := by
    apply BitVec.eq_of_getLsbD_eq
    intro i hi
    rw [BitVec.getLsbD_and, hmask i hi]
    by_cases h4 : 4 ≤ i
    · simp [h4]
    · simp [h4, hi, hlow i (not_le.1 h4)]
  rw [baseOf, hkept, hkept]
  exact congrArg BitVec.toNat BitVec.extractLsb'_append_extractLsb'

theorem ringBase_programRing (e : Engine) {ring : Addr} (len tail : Word) (s : State)
    (halign : ring.extractLsb' 0 4 = 0) : ringBase e (programRing e ring len tail s) = ring.toNat := by
  cases e <;> exact baseOf_halves halign

/-! ### Enabling the engines -/

theorem exec_wrTctl_enable {v : Word} {s : State}
    (hfits : ringHead .tx s < ringCap .tx s ∧ ringTail .tx s < ringCap .tx s) :
    exec (.wrTctl v) s = .next { s with tctl := v } := writeEnable_stored (.inr (.inr hfits))

theorem exec_wrRctl_enable {v : Word} {s : State} (hoff : s.rctl.getLsbD 1 = false) (hv : v.getLsbD 1 = true)
    (hfits : ringHead .rx s < ringCap .rx s ∧ ringTail .rx s < ringCap .rx s) :
    exec (.wrRctl v) s = .next { s with rctl := v } := by
  obtain ⟨-, -, -, -, henable, -⟩ := rctlWriteIsStoredOrRefused s v
  exact henable hoff hv hfits

/-- The writes of `INIT` that turn both engines on and enable the interrupt. -/
def enableWrites : List DriverOp := [wrLine .tctl 2, wrLine .rctl 0x04000002, wrLine .ims 0x80]

theorem runLines_enableWrites {s : State} (hoff : engineOn .rx s = false)
    (hfits : ∀ e, ringHead e s < ringCap e s ∧ ringTail e s < ringCap e s) :
    runLines enableWrites s = .next { s with tctl := 2, rctl := 0x04000002, im := s.im ||| 0x80 } := by
  exact runLines_wrLine (exec_wrTctl_enable (hfits .tx)) <|
    runLines_wrLine (exec_wrRctl_enable hoff (by decide) (hfits .rx)) <| runLines_wrLine rfl rfl

/-! ### The end of `INIT` in the reference configuration -/

/-- Rings of 16 slots, 256 bytes each, with all RX slots but the last handed over. -/
def initRings (d : Driver) (s : State) : State :=
  programRing .rx d.rxRing 256 15 (programRing .tx d.txRing 256 0 s)

theorem initRegisters_eq {d : Driver} (hcap : d.capacity = 16) :
    initRegisters d = ringWrites .tx d.txRing 256 0 ++ (ringWrites .rx d.rxRing 256 15 ++ enableWrites) := by
  rw [initRegisters, hcap]
  rfl

section InitRings

variable (e : Engine) (d : Driver) (s : State)

theorem ringBase_initRings (halign : (driverRing e d).extractLsb' 0 4 = 0) :
    ringBase e (initRings d s) = (driverRing e d).toNat := by
  cases e with
  | tx => exact ringBase_programRing .tx 256 0 s halign
  | rx => exact ringBase_programRing .rx 256 15 _ halign

theorem ringCap_initRings : ringCap e (initRings d s) = 16 := by
  cases e with
  | tx => exact (ringCap_programRing .tx d.txRing 256 0 s).trans (by decide)
  | rx => exact (ringCap_programRing .rx d.rxRing 256 15 _).trans (by decide)

theorem ringHead_initRings : ringHead e (initRings d s) = 0 := by
  cases e with
  | tx => exact ringHead_programRing .tx d.txRing 256 0 s
  | rx => exact ringHead_programRing .rx d.rxRing 256 15 _

theorem ringTail_tx_initRings : ringTail .tx (initRings d s) = 0 :=
  (ringTail_programRing .tx d.txRing 256 0 s).trans (by decide)

theorem ringTail_rx_initRings : ringTail .rx (initRings d s) = 15 :=
  (ringTail_programRing .rx d.rxRing 256 15 _).trans (by decide)

theorem indices_initRings : ringHead e (initRings d s) < ringCap e (initRings d s) ∧
    ringTail e (initRings d s) < ringCap e (initRings d s) := by
  rw [ringHead_initRings, ringCap_initRings]
  cases e with
  | tx => rw [ringTail_tx_initRings]; decide
  | rx => rw [ringTail_rx_initRings]; decide

theorem deviceOwns_tx_initRings (i : Nat) : deviceOwns .tx i (initRings d s) = false := by
  rw [← Bool.not_eq_true, deviceOwns_iff, ringCap_initRings, ringHead_initRings, ringTail_tx_initRings,
    ringDist_self (by decide)]
  omega

theorem deviceOwns_rx_initRings (i : Nat) : deviceOwns .rx i (initRings d s) = true ↔ i < 15 := by
  rw [deviceOwns_iff, ringCap_initRings, ringHead_initRings, ringTail_rx_initRings]
  have hdist (k : Nat) (hk : k < 16) : ringDist 16 0 k = k := ringDist_eq (by decide) hk
  constructor
  · rintro ⟨hi, hlt⟩
    rwa [hdist i hi, hdist 15 (by decide)] at hlt
  · intro hi
    rw [hdist i (by omega), hdist 15 (by decide)]
    omega

end InitRings

/-- The register writes that end `INIT` program both rings and then turn the engines on. -/
theorem runLines_initRegisters {s : State} {d : Driver} (hpol : s.launch.tailPolicy = .interval)
    (htx : engineOn .tx s = false) (hrx : engineOn .rx s = false) (hcap : d.capacity = 16) :
    runLines (initRegisters d) s =
      .next { initRings d s with tctl := 2, rctl := 0x04000002, im := s.im ||| 0x80 } := by
  rw [initRegisters_eq hcap, runLines_ringWrites _ _ _ hpol htx,
    runLines_ringWrites _ _ _ (by simpa using hpol) (by simpa using hrx)]
  exact runLines_enableWrites (s := initRings d s) hrx fun e => indices_initRings e d s

/-- Settles O60: what the programmed rings hold is untouched by the writes that enable the engines. -/
theorem initProgramsTheBlock : Obligations.InitProgramsTheBlock := by
  intro s d hpol htx hrx him hcap htxAlign hrxAlign
  have hsize : bufSizeOf (bsizeOf 0x04000002) = 2048 := by decide
  refine ⟨_, runLines_initRegisters hpol htx hrx hcap, ringBase_initRings .tx d s htxAlign,
    ringBase_initRings .rx d s hrxAlign, ringCap_initRings .tx d s, ringCap_initRings .rx d s,
    rfl, rfl, rfl, rfl, rfl, rfl, ?_, deviceOwns_tx_initRings d s, deviceOwns_rx_initRings d s, rfl, rfl, rfl, hsize⟩
  rw [him]
  rfl

/-! ### `TRANSMIT_ONE` -/

/-- The TX thread takes its next line; the end of its list is not the end of `INIT`. -/
theorem driverStep_tx {s : State} {op : DriverOp} {ops : List DriverOp} {t : State} (hops : s.driver.txOps = op :: ops)
    (h : driverOp op (s.ghost (setThreadOps .tx ops)) = .next t) : driverStep .tx s = .next t := by
  have hthread : threadOps .tx s.driver = op :: ops := hops
  simp only [driverStep, hthread, h]
  rfl

/-- The poll of `TRANSMIT_ONE` at a clear done bit ends the call. -/
theorem driverOp_txPoll_full {s : State} {b : Byte} (hslot : s.driver.txSlot < ringCap .tx s)
    (hspace : descAddr .tx s.driver.txSlot s < 0x10000000000000000)
    (hmem : Memory.find s.mem (descAddr .tx s.driver.txSlot s + 12) = some b) (hclear : b.getLsbD 0 = false) :
    driverOp .txPoll s = .next (txReturns .full { s with hostRead := 0 }) := by
  have hpoll : hostPoll .tx s.driver.txSlot s = .next { s with hostRead := 0 } := by
    rw [pollReturnsTheDoneBit s .tx _ b hslot hspace hmem, hclear]
    rfl
  simp [driverOp, hpoll, andThen]

/-- Settles O59: the line taken is the poll, of a state that differs in the thread's list only. -/
theorem transmitOneFailsWithoutAnyWrite : Obligations.TransmitOneFailsWithoutAnyWrite := by
  intro s ops b hops hslot hspace hmem hclear
  exact driverStep_tx hops (driverOp_txPoll_full hslot hspace hmem hclear)

end Sys2Proof.Proofs

/-! Interrupts, faults and refusals (60_exceptions.md): which operations clear the cause, and what a step that stops
leaves behind. -/

namespace Sys2Proof.Proofs

open Sys2Proof.Machine Sys2Proof.Laws

/-! ### The three kinds of operation -/

/-- An operation is a read or a write of a register, one of the two TX forms, or `RXD`: whatever its encoding can
decode to (30_encoding.md rules R91 and R94). -/
theorem instr_forms (i : Instr) : (∃ r, i = readOp r) ∨ (∃ r v, i = writeOp r v) ∨
    (∃ addr len, i = .txdEopRs addr len ∨ i = .txdEop addr len) ∨ ∃ addr, i = .rxd addr := by
  have hdecode := decodeOfEncodeIsTheInstruction i
  cases hcode : encode i with rw [hcode] at hdecode
  | mmio x =>
    obtain ⟨r, ⟨v, -, hi⟩ | ⟨-, hi⟩⟩ := decodeMmio_ok hdecode
    · exact .inr (.inl ⟨r, v, hi⟩)
    · exact .inl ⟨r, hi⟩
  | txd d => exact .inr (.inr (.inl (decodeTxd_ok hdecode)))
  | rxd d => exact .inr (.inr (.inr ⟨_, (Except.ok.inj hdecode).symm⟩))

/-! ### What clears the cause -/

/-- Of the register writes only those of `ICR` and `CTRL` can touch the cause. -/
theorem writeOp_rxdw {r : Reg} {v : Word} {s t : State} (hicr : r ≠ .icr) (hctrl : r ≠ .ctrl)
    (h : exec (writeOp r v) s = .next t) : t.rxdw = s.rxdw := by
  by_cases htx : r ∈ txSideRegs
  · rw [writeOp_txSide htx h]
  by_cases hrx : r ∈ rxSideRegs
  · rw [writeOp_rxSide hrx h]
  cases r
  case icr => exact absurd rfl hicr
  case ctrl => exact absurd rfl hctrl
  case ims | imc | mta | ral0 | rah0 => rw [← Host.Outcome.next.inj h]
  all_goals simp [txSideRegs, rxSideRegs] at htx hrx

/-- A sent frame leaves the cause alone. -/
theorem exec_txd_rxdw {addr : Addr} {len : LenField} {s t : State}
    (h : exec (.txdEopRs addr len) s = .next t ∨ exec (.txdEop addr len) s = .next t) : t.rxdw = s.rxdw := by
  obtain h | h := h
  · obtain ⟨-, -, bs, -, -, -, rfl⟩ := execTxdEopRs_next.1 h
    rfl
  · obtain ⟨-, bs, -, -, -, rfl⟩ := execTxdEop_next.1 h
    rfl

/-- `RXD` never clears the cause: with a frame on offer it sets it, with none it does nothing. -/
theorem exec_rxd_rxdw {addr : Addr} {s t : State} (h : exec (.rxd addr) s = .next t) (hset : s.rxdw = true) :
    t.rxdw = true := by
  obtain ⟨-, rfl⟩ | ⟨o, ho, -⟩ := execRxd_cases h
  · exact hset
  · exact causeIsSetOnlyByAStoredFrame.2 addr s t o ho h

theorem exec_wrIcr_rxdw {v : Word} {s t : State} (h : exec (.wrIcr v) s = .next t) :
    t.rxdw = (s.rxdw && !v.getLsbD 7) := by
  rw [execWrIcr_next h, rxdwOf_eq]
  cases v.getLsbD 7 <;> simp

theorem exec_wrCtrl_rxdw {v : Word} {s t : State} (h : exec (.wrCtrl v) s = .next t) :
    t.rxdw = (s.rxdw && !v.getLsbD 26) := by
  cases hv : v.getLsbD 26 with
  | false => rw [← Host.Outcome.next.inj ((exec_wrCtrl_store s hv).symm.trans h)]; simp
  | true => rw [← Host.Outcome.next.inj ((exec_wrCtrl_reset s hv).symm.trans h)]; simp

/-- The operations that clear a pending cause (60_exceptions.md rule R234). -/
def ClearsCause (i : Instr) : Prop :=
  i = .rdIcr ∨ (∃ v : Word, i = .wrIcr v ∧ v.getLsbD 7 = true) ∨ ∃ v : Word, i = .wrCtrl v ∧ v.getLsbD 26 = true

theorem rxdw_eq_false_of_clearsCause {i : Instr} {s t : State} (hi : ClearsCause i) (h : exec i s = .next t) :
    t.rxdw = false := by
  obtain rfl | ⟨v, rfl, hv⟩ | ⟨v, rfl, hv⟩ := hi
  · rw [execRdIcr_next h]; rfl
  · simp [exec_wrIcr_rxdw h, hv]
  · simp [exec_wrCtrl_rxdw h, hv]

/-- An operation of any other kind keeps a pending cause. -/
theorem clearsCause_of_rxdw_eq_false {i : Instr} {s t : State} (h : exec i s = .next t) (hset : s.rxdw = true)
    (hclear : t.rxdw = false) : ClearsCause i := by
  have hchanged : t.rxdw ≠ s.rxdw := by simp [hset, hclear]
  obtain ⟨r, rfl⟩ | ⟨r, v, rfl⟩ | ⟨addr, len, rfl | rfl⟩ | ⟨addr, rfl⟩ := instr_forms i
  · by_cases hicr : r = .icr
    · exact .inl (hicr ▸ rfl)
    · exact absurd ((readOp_next h).2 hicr) hchanged
  · by_cases hicr : r = .icr
    · subst hicr
      exact .inr (.inl ⟨v, rfl, by simpa [hset, hclear] using exec_wrIcr_rxdw h⟩)
    by_cases hctrl : r = .ctrl
    · subst hctrl
      exact .inr (.inr ⟨v, rfl, by simpa [hset, hclear] using exec_wrCtrl_rxdw h⟩)
    · exact absurd (writeOp_rxdw hicr hctrl h) hchanged
  · exact absurd (exec_txd_rxdw (.inl h)) hchanged
  · exact absurd (exec_txd_rxdw (.inr h)) hchanged
  · exact absurd (hclear.symm.trans (exec_rxd_rxdw h hset)) Bool.false_ne_true

/-- Settles O10: the three forms clear the cause, and no other kind of operation does. -/
theorem causeIsClearedOnlyByHostOrReset : Obligations.CauseIsClearedOnlyByHostOrReset :=
  fun _ _ _ h hset => ⟨clearsCause_of_rxdw_eq_false h hset, fun hi => rxdw_eq_false_of_clearsCause hi h⟩

/-! ### What a step that stops leaves behind -/

section Marks

variable {α : Type} [DecidableEq α] (m : α) (ms : List α)

/-- A mark once added is recorded, also where it was before. -/
theorem mem_addMark_self : m ∈ addMark m ms := by
  unfold addMark
  split
  · assumption
  · simp

/-- Marks are never taken away (10_state.md rule R42). -/
theorem subset_addMark : ms ⊆ addMark m ms := by
  unfold addMark
  split
  · exact List.Subset.refl ms
  · exact List.subset_append_left ms [m]

end Marks

section Stopped

variable {s : State}

theorem advance_of_next {t : State} (h : step s = .next t) : advance s = t := by rw [advance, h]

theorem advance_of_fault {f : Fault} (h : step s = .fault f) : advance s = s.nextTurn.recordFault f := by
  rw [advance, h]

theorem advance_of_refused {r : Refusal} (h : step s = .refused r) : advance s = s.nextTurn.recordRefusal r := by
  rw [advance, h]

end Stopped

/-- Whatever the step, no fault and no refusal recorded is lost. -/
theorem marks_subset_advance (s : State) : s.faulted ⊆ (advance s).faulted ∧ s.refused ⊆ (advance s).refused := by
  cases h : step s with
  | next t =>
    obtain ⟨-, hfaulted, hrefused⟩ := stepsLeaveLaunchAndMarks s t h
    rw [advance_of_next h, hfaulted, hrefused]
    exact ⟨List.Subset.refl _, List.Subset.refl _⟩
  | fault f =>
    rw [advance_of_fault h]
    exact ⟨subset_addMark f s.faulted, List.Subset.refl _⟩
  | refused r =>
    rw [advance_of_refused h]
    exact ⟨List.Subset.refl _, subset_addMark r s.refused⟩

/-- A run with no mark at its end had none before its last step. -/
theorem unmarked_of_unmarked_advance {s : State} (h : Unmarked (advance s)) : Unmarked s := by
  obtain ⟨hfaulted, hrefused⟩ := marks_subset_advance s
  obtain ⟨hnoFault, hnoRefusal⟩ := h
  exact ⟨List.subset_nil.1 (hnoFault ▸ hfaulted), List.subset_nil.1 (hnoRefusal ▸ hrefused)⟩

/-- Settles O55: a stop is one mark added to the state whose turn is spent, and marks are never taken away. -/
theorem stopsAreRecordedAndChangeNothingElse : Obligations.StopsAreRecordedAndChangeNothingElse := by
  intro s
  obtain ⟨hfaulted, hrefused⟩ := marks_subset_advance s
  refine ⟨fun f h => ?_, fun r h => ?_, hfaulted, hrefused, unmarked_of_unmarked_advance⟩
  · rw [advance_of_fault h]
    exact ⟨mem_addMark_self f s.faulted, rfl⟩
  · rw [advance_of_refused h]
    exact ⟨mem_addMark_self r s.refused, rfl⟩

end Sys2Proof.Proofs

/-! Reset and hazards (70_reset_and_hazards.md): a tail write onto the head, the host's stores beside what the device
owns, and the round in which unscheduled agents take turns. -/

namespace Sys2Proof.Proofs

open Sys2Proof.Machine Sys2Proof.Laws

/-! ### A tail on the head -/

/-- A ring whose tail is on its head has no device-owned slot. -/
theorem deviceOwns_of_tail_on_head {e : Engine} {s : State} (hhead : ringHead e s < ringCap e s)
    (hmeet : ringTail e s = ringHead e s) (i : Nat) : deviceOwns e i s = false := by
  rw [← Bool.not_eq_true, deviceOwns_iff, hmeet, ringDist_self hhead]
  rintro ⟨-, hnear⟩
  exact Nat.not_lt_zero _ hnear

theorem txEnabled_of_tail_on_head {s : State} (hmeet : ringTail .tx s = ringHead .tx s) : txEnabled s = false := by
  rw [← Bool.not_eq_true, txEnabled_iff]
  rintro ⟨-, hne, -⟩
  exact hne hmeet.symm

/-- Settles O31: the write is stored, and puts the tail on the head. -/
theorem tailOntoHeadStallsTheEngine : Obligations.TailOntoHeadStallsTheEngine := by
  intro s v hpol hhead hv
  have hv : idxOf v = ringHead .tx s := (idxOf_eq v).trans hv
  have hstored : exec (.wrTdt v) s = .next (s.setTail .tx (v &&& maskIdx)) :=
    writeTail_stored hpol (.inr (hv ▸ hhead))
  have hmeet : ringTail .tx (s.setTail .tx (v &&& maskIdx)) = ringHead .tx (s.setTail .tx (v &&& maskIdx)) := by
    rw [ringTail_setTail, ringHead_setTail, idxOf_mask, hv]
  have hidle := txEnabled_of_tail_on_head hmeet
  exact ⟨_, hstored, deviceOwns_of_tail_on_head hhead hmeet, hidle, txStep_idle hidle⟩

/-! ### Device-owned bytes -/

/-- A host store that completes has written none of the device's bytes. -/
theorem storeAt_keeps_owned {w : Width} {a : Nat} {v : BitVec 64} {s t : State} {x : Nat}
    (h : storeAt w a v s = .next t) (howned : ownerOf s x ≠ none) : Memory.find t.mem x = Memory.find s.mem x := by
  obtain hacc | ⟨-, hfree, rfl⟩ := storeAt_next h
  · rw [(accessed_frame hacc).1]
  · have hbeside : x < a ∨ a + w.bytes ≤ x := by
      by_contra! hin
      obtain ⟨k, rfl⟩ := Nat.exists_eq_add_of_le hin.1
      exact howned (hfree k (by omega))
    exact find_write_outside _ _ _ _ (by rwa [leBytes_length])

/-- Settles O56: of the host's primitives only a store can change memory. -/
theorem hostNeverWritesDeviceOwnedBytes : Obligations.HostNeverWritesDeviceOwnedBytes := by
  intro s t op x h howned
  cases op with
  | mmio _ => rw [(accessed_frame (hostMmio_next h)).1]
  | load _ _ => rw [(loadAt_frame h).1]
  | store _ _ _ => exact storeAt_keeps_owned h howned
  | pollTx _ => rw [(hostPoll_frame h).1]
  | pollRx _ => rw [(hostPoll_frame h).1]

/-! ### The round of the unscheduled agents -/

/-- The agent with the counter's number, modulo six, is asked first. -/
theorem idleOrder_of_getElem? {n : Nat} {tn : Turn} (h : idleAgents[n % 6]? = some tn) :
    ∃ ts, idleOrder n = tn :: ts := by
  obtain ⟨hlt, hget⟩ := List.getElem?_eq_some_iff.1 h
  refine ⟨idleAgents.drop (n % 6 + 1) ++ idleAgents.take (n % 6), ?_⟩
  rw [← hget, ← List.cons_append, ← List.drop_eq_getElem_cons hlt]
  rfl

/-- With nothing scheduled, an enabled agent whose number comes up takes the step. -/
theorem step_of_idleAgent {s : State} {k : Nat} {tn : Turn} (hturns : s.turns = []) (hk : (s.rota + 1) % 6 = k)
    (htn : idleAgents[k]? = some tn) (hon : turnEnabled tn s.nextTurn = true) : step s = takeTurn tn s.nextTurn := by
  obtain ⟨ts, horder⟩ := idleOrder_of_getElem? (n := s.rota + 1) (hk ▸ htn)
  have hidle : step s = unscheduled s.nextTurn := by rw [step, hturns]; rfl
  exact hidle.trans (unscheduled_of_head horder hon)

/-- The numbers of the driver's threads in the round. -/
theorem idleAgents_thread {th : Thread} {k : Nat}
    (h : (th, k) ∈ [(Thread.init, 1), (Thread.tx, 2), (Thread.rx, 3)]) : idleAgents[k]? = some (.driver th) := by
  simp only [List.mem_cons, List.not_mem_nil, or_false, Prod.mk.injEq] at h
  obtain ⟨rfl, rfl⟩ | ⟨rfl, rfl⟩ | ⟨rfl, rfl⟩ := h <;> rfl

theorem driverCall_of_mayBegin {c : Call} {s : State} (h : callMayBegin c s = true) :
    driverCall c s = .next (s.ghost (beginCall c)) := if_pos h

theorem callMayBegin_intr {s : State} (hinit : s.driver.initOps = []) (hdrain : s.driver.rxOps = [])
    (hlive : s.driver.halted = false) (hline : intLine s = true) : callMayBegin .intr s = true := by
  simp [callMayBegin, intrMayBegin, hinit, hdrain, hlive, hline]

theorem dispatcherStep_oldest {s : State} {a : Addr} {rest : List Addr} (h : s.driver.dispatching = a :: rest) :
    dispatcherStep 0 s =
      .next { s with driver := { s.driver with pages := s.driver.pages ++ [a], dispatching := rest } } := by
  simp [dispatcherStep, State.ghost, h]

/-! ### What every step does to the schedule -/

/-- The schedule and the turn counter of two states are the same. -/
def SameSchedule (s t : State) : Prop := t.turns = s.turns ∧ t.rota = s.rota

theorem exec_keeps_sameSchedule {r s t : State} {i : Instr} (hs : SameSchedule r s) (h : exec i s = .next t) :
    SameSchedule r t := by
  obtain ⟨-, -, -, -, hturns, hrota⟩ := exec_untouched h
  rwa [SameSchedule, hturns, hrota]

/-- The host and its driver schedule nothing. -/
theorem kept_sameSchedule (r : State) : Kept (SameSchedule r) where
  access s t hs ha := by
    obtain ⟨reg, hx | ⟨v, hx⟩⟩ := ha
    · exact exec_keeps_sameSchedule hs hx
    · exact exec_keeps_sameSchedule hs hx
  read _ _ h := h
  drawn _ _ h := h
  store _ _ _ h _ := h
  ghost _ _ h := h

/-- A step that completes leaves the schedule as it is once the turn is off it. -/
theorem step_sameSchedule {s t : State} (h : step s = .next t) : SameSchedule s.nextTurn t := by
  have hturn : SameSchedule s.nextTurn s.nextTurn := ⟨rfl, rfl⟩
  obtain htx | ⟨o, hrx⟩ | hhost := step_agents h
  · obtain ⟨-, rfl⟩ | ⟨-, addr, len, hx | hx⟩ := txStep_next htx
    · exact hturn
    · exact exec_keeps_sameSchedule hturn hx
    · exact exec_keeps_sameSchedule hturn hx
  · obtain rfl | ⟨d, -, hx⟩ := rxStep_next hrx
    · exact hturn
    · exact exec_keeps_sameSchedule (s := s.nextTurn.offering o) hturn hx
  · exact hhost _ (kept_sameSchedule _) hturn

/-- Every step of a run, also one that stops, takes one turn off the schedule and counts it. -/
theorem advance_sameSchedule (s : State) : SameSchedule s.nextTurn (advance s) := by
  cases h : step s with
  | next t => rw [advance_of_next h]; exact step_sameSchedule h
  | fault f => rw [advance_of_fault h]; exact ⟨rfl, rfl⟩
  | refused r => rw [advance_of_refused h]; exact ⟨rfl, rfl⟩

/-- Settles O57: `step_of_idleAgent` for each agent of the round, which `advance_sameSchedule` moves on. -/
theorem unscheduledAgentsTakeTurns : Obligations.UnscheduledAgentsTakeTurns := by
  intro s
  obtain ⟨hschedule, hrota⟩ := advance_sameSchedule s
  refine ⟨fun hturns hk hon => step_of_idleAgent hturns hk rfl hon, fun th k hth hturns hk hops => ?_,
    fun hturns hk hinit hdrain hlive hline => ?_, fun a rest hpages hturns hk => ?_, hrota, fun hturns => ?_⟩
  · have hon : turnEnabled (.driver th) s.nextTurn = true := by simpa [turnEnabled] using hops
    exact step_of_idleAgent hturns hk (idleAgents_thread hth) hon
  · have hon : callMayBegin .intr s.nextTurn = true := callMayBegin_intr hinit hdrain hlive hline
    exact (step_of_idleAgent hturns hk rfl hon).trans (driverCall_of_mayBegin hon)
  · have hon : turnEnabled (.dispatcher 0) s.nextTurn = true := by simp [turnEnabled, hpages]
    exact (step_of_idleAgent hturns hk rfl hon).trans (dispatcherStep_oldest (s := s.nextTurn) hpages)
  · exact hschedule.trans (congrArg List.tail hturns)

end Sys2Proof.Proofs

/-! Words of the test vectors (95_test_vectors.md): what the round trip of the encoder says of a given word, and which
words are none of the notation (30_encoding.md rules R100, R103). -/

namespace Sys2Proof.Proofs

open Sys2Proof.Machine

/-- The round trip, read from the word: the one that an operation encodes to decodes to that operation. -/
theorem decode_of_eq_encode {c : Code} {i : Instr} (h : c = encode i) : decode c = .ok i :=
  h ▸ decodeOfEncodeIsTheInstruction i

/-- What makes 64 bits no word of the notation (30_encoding.md rule R103): a bit of 62:52, or a read with data. -/
theorem decode_mmio_notAWord {x : BitVec 64}
    (h : x.extractLsb' 52 11 ≠ 0 ∨ (x.getLsbD 63 = false ∧ x.extractLsb' 0 32 ≠ 0)) :
    decode (.mmio x) = .error (.notAWord x) := if_pos h

/-- Settles O50: the register words and the RX descriptor are what their operations encode to. The TX descriptor, an
image that has `DD` set already, is told by its command byte. Of the two non-words one has a bit of 62:52 and the other
is a read with data. -/
theorem sampleWordsDecode : Obligations.SampleWordsDecode := by
  refine ⟨decode_of_eq_encode ?wrCtrl, decode_of_eq_encode ?rdIcr, decode_of_eq_encode ?wrRctl,
    decode_of_eq_encode ?wrRdt, decode_of_eq_encode ?rdTdt, decode_of_eq_encode ?wrMta, decode_of_eq_encode ?rdRah0,
    decode_txd_eopRs ?command, decode_of_eq_encode ?rxd, decode_mmio_notAWord (.inl ?upperBits),
    decode_mmio_notAWord (.inr ?readData)⟩
  all_goals decide

end Sys2Proof.Proofs
